-- ==== Sys2Proof/Word.lean ====
section
/-! DEFINITION. The word types of the block (spec/00_scope.md section 6, spec/30_encoding.md R95): bytes, port addresses and
16-bit quantities. Every number is unsigned. -/

namespace Sys2Proof

/-- A byte: the data of every transaction (R65). -/
abbrev Byte := BitVec 8

/-- An I/O port address, PORT_ADDR_BITS = 16 bits (R7). -/
abbrev Port := BitVec 16

/-- A 16-bit quantity: a cell index, a cursor position or a divisor (R95). -/
abbrev Half := BitVec 16

end Sys2Proof
end

