-- ==== Sys2Proof/Config.lean ====
section
/-! DEFINITION. The parameters of spec/00_scope.md R6 and R7, each under the spec's own name, the constraints of R8, and the
free values: what the spec leaves OPEN (INIT_DIVISOR, CONSOLE_CHANNEL) and `draw` (section 7). Parameters with a value hold the
value of R6 or the default of R7 (log 10). -/

namespace Sys2Proof.Config

/-! ### Parameters whose value the source gives (R6) -/

/-- N_SERIAL: the number of UARTs. -/
def nSerial : Nat := 2
/-- OFF_DATA: offset of the data port. -/
def offData : Port := 0
/-- OFF_FIFO: offset of the FIFO-control port. -/
def offFifo : Port := 2
/-- OFF_LINE: offset of the line-control port. -/
def offLine : Port := 3
/-- OFF_MODEM: offset of the modem-control port. -/
def offModem : Port := 4
/-- OFF_STATUS: offset of the line-status port. -/
def offStatus : Port := 5
/-- LINE_8N1: 8 data bits, no parity, 1 stop bit, DLAB clear. -/
def line8N1 : Byte := 0x03
/-- FIFO_CFG: enable the FIFO, clear both FIFOs, 14-byte trigger. -/
def fifoCfg : Byte := 0xC7
/-- MODEM_CFG: assert DTR and RTS. -/
def modemCfg : Byte := 0x03
/-- ATTR_DEFAULT: the attribute byte of white-on-black. -/
def attrDefault : Byte := 0x0F
/-- BLANK_CHAR: the character code of a blank cell. -/
def blankChar : Byte := 0x00
/-- CELL_BYTES: bytes per cell. -/
def cellBytes : Nat := 2
/-- DIVISOR_BITS: width of the baud divisor. -/
def divisorBits : Nat := 16
/-- WIDTH: cells per row. -/
def width : Nat := 80
/-- The colour codes of white-on-black (R64, D21). -/
def white : Nat := 0xF
/-- See `white`. -/
def black : Nat := 0x0

/-! ### Parameters with the spec's default (R7) -/

/-- HEIGHT: rows of the grid (D2). -/
def height : Nat := 25
/-- GRID_BASE: physical byte address of cell 0 (D3). -/
def gridBase : Nat := 0xB8000
/-- PHYS_ADDR_BITS: width of a physical address (D3). -/
def physAddrBits : Nat := 32
/-- PORT_ADDR_BITS: width of a port address (D5); `Port` has this width. -/
def portAddrBits : Nat := 16
/-- CRTC_CMD_PORT: the cursor command port (D4). -/
def crtcCmdPort : Port := 0x3D4
/-- CRTC_DATA_PORT: the cursor data port (D4). -/
def crtcDataPort : Port := 0x3D5
/-- CURSOR_HIGH_CMD: the command that selects CUR_HI (D4). -/
def cursorHighCmd : Byte := 0x0E
/-- CURSOR_LOW_CMD: the command that selects CUR_LO (D4). -/
def cursorLowCmd : Byte := 0x0F
/-- COM1_BASE: base port of UART 0 (D5). -/
def com1Base : Port := 0x3F8
/-- COM2_BASE: base port of UART 1 (D5). -/
def com2Base : Port := 0x2F8
/-- DLAB_ENABLE_BYTE: the line-control byte that enters divisor-latch mode (D6). -/
def dlabEnableByte : Byte := 0x80
/-- TX_EMPTY_MASK: the mask of the transmit-empty bit of LSR (D7). -/
def txEmptyMask : Byte := 0x20
/-- NEWLINE: the byte the console treats as newline (D22). -/
def newline : Byte := 0x0A
/-- TX_FIFO_DEPTH: bytes the transmit FIFO holds when enabled (D14). -/
def txFifoDepth : Nat := 16
/-- RX_FIFO_DEPTH: bytes the receive FIFO holds when enabled (D14). -/
def rxFifoDepth : Nat := 16
/-- BAUD_BASE: the bit rate at divisor 1; timing only (D36). -/
def baudBase : Nat := 115200

/-- WIDTH x HEIGHT: the number of cells, and the scroll-pending value of CURSOR (R34). -/
def cells : Nat := width * height

/-- 2 x WIDTH x HEIGHT: the bytes of the grid window (R62). -/
def windowBytes : Nat := cellBytes * cells

/-- 2 x WIDTH x (HEIGHT - 1): the bytes a scroll copies (R150). -/
def scrollBytes : Nat := cellBytes * (width * (height - 1))

/-- What happens when the cursor passes the last cell (OVERFLOW_POLICY, R7): the source's three choices. -/
inductive OverflowPolicy where
  | wrap
  | scroll
  | truncate
  deriving DecidableEq, Repr

/-- OVERFLOW_POLICY = scroll (D24). -/
def overflowPolicy : OverflowPolicy := .scroll

/-! ### Free values -/

/-- INIT_DIVISOR, OPEN (R7, D8): any 16-bit value. -/
opaque initDivisor : Half

/-- The value the platform chooses for CONSOLE_CHANNEL, OPEN (R7, D9). -/
opaque openConsoleChannel : Port

/-- CONSOLE_CHANNEL: the open value, kept different from both serial bases as R8 demands. Every value R8 admits is the value
of this definition for the equal choice of `openConsoleChannel`, and a choice R8 excludes is moved one up (log 10). -/
def consoleChannel : Port :=
  if openConsoleChannel = com1Base ∨ openConsoleChannel = com2Base then openConsoleChannel + 1 else openConsoleChannel

/-- `draw(8)` (section 7): the n-th free byte, under no law (log 4). -/
opaque draw : Nat → Byte

/-- The parity bit of a frame under stick parity, by its format and byte: R23 names the field and no rule gives the bit (log 27). -/
opaque stickParityBit : BitVec 7 → Byte → Bool

/-! ### The configuration as one record, with R8's constraints -/

/-- A choice of every parameter of R7, with WIDTH of R6. -/
structure Params where
  width : Nat
  height : Nat
  gridBase : Nat
  physAddrBits : Nat
  portAddrBits : Nat
  crtcCmdPort : Port
  crtcDataPort : Port
  cursorHighCmd : Byte
  cursorLowCmd : Byte
  com1Base : Port
  com2Base : Port
  dlabEnableByte : Byte
  line8N1 : Byte
  txEmptyMask : Byte
  newline : Byte
  txFifoDepth : Nat
  rxFifoDepth : Nat
  baudBase : Nat
  initDivisor : Half
  consoleChannel : Port
  overflowPolicy : OverflowPolicy
  deriving DecidableEq, Repr

/-- The parameters this model runs with. -/
def params : Params where
  width := width
  height := height
  gridBase := gridBase
  physAddrBits := physAddrBits
  portAddrBits := portAddrBits
  crtcCmdPort := crtcCmdPort
  crtcDataPort := crtcDataPort
  cursorHighCmd := cursorHighCmd
  cursorLowCmd := cursorLowCmd
  com1Base := com1Base
  com2Base := com2Base
  dlabEnableByte := dlabEnableByte
  line8N1 := line8N1
  txEmptyMask := txEmptyMask
  newline := newline
  txFifoDepth := txFifoDepth
  rxFifoDepth := rxFifoDepth
  baudBase := baudBase
  initDivisor := initDivisor
  consoleChannel := consoleChannel
  overflowPolicy := overflowPolicy

/-- The eight ports a UART claims (R122). -/
def uartPorts (base : Port) : List Port := [base, base + 1, base + 2, base + 3, base + 4, base + 5, base + 6, base + 7]

/-- The constraints of R8 on a choice of the parameters (INIT_DIVISOR in 0..65535 holds by its type). -/
structure Params.Valid (p : Params) : Prop where
  width_pos : 1 ≤ p.width
  height_pos : 1 ≤ p.height
  cells_fit : p.width * p.height ≤ 65535
  port_width : p.portAddrBits = 16
  bases_differ : p.com1Base ≠ p.com2Base
  uarts_disjoint : ∀ q ∈ uartPorts p.com1Base, q ∉ uartPorts p.com2Base
  com1_not_crtc : p.crtcCmdPort ∉ uartPorts p.com1Base ∧ p.crtcDataPort ∉ uartPorts p.com1Base
  com2_not_crtc : p.crtcCmdPort ∉ uartPorts p.com2Base ∧ p.crtcDataPort ∉ uartPorts p.com2Base
  crtc_ports_differ : p.crtcCmdPort ≠ p.crtcDataPort
  cursor_cmds_differ : p.cursorHighCmd ≠ p.cursorLowCmd
  console_not_com1 : p.consoleChannel ≠ p.com1Base
  console_not_com2 : p.consoleChannel ≠ p.com2Base
  one_mask_bit : ∃ i : Fin 8, p.txEmptyMask = BitVec.twoPow 8 i.val
  dlab_bit_set : p.dlabEnableByte.getLsbD 7 = true
  dlab_bit_clear : p.line8N1.getLsbD 7 = false
  fifo_depth_pos : 1 ≤ p.txFifoDepth
  window_fits : p.gridBase + 2 * (p.width * p.height) ≤ 2 ^ p.physAddrBits

end Sys2Proof.Config
end

