-- ==== Sys2Proof/Syntax.lean ====
section
/-! DEFINITION. The instructions of the block: one constructor per row of spec/opcode_table.json. The transactions of the register
level are its instructions and the commands of the sequencer its pseudo-instructions (spec/00_scope.md R4); the transmitter's step
is the one row without a word (R178). -/

namespace Sys2Proof

/-- A UART instance, `u` in {0, 1} (R20). `com1` is UART[0], `com2` is UART[1]. -/
inductive UartId where
  | com1
  | com2
  deriving DecidableEq, Repr

/-- The instructions, with the operands of spec/30_encoding.md R91 to R95: the constructor fixes direction and register. A format U
instruction names the UART on whose bus it is seen (R90), since the U word has no field for it. -/
inductive Instr where
  /-- PORT_WRITE, `OUT port, value` (R120). -/
  | portWrite (port : Port) (value : Byte)
  /-- PORT_READ, `IN port` (R121). -/
  | portRead (port : Port)
  /-- UART_TX_WRITE: a data-port write seen with DLAB = 0 (R170). -/
  | uartTxWrite (u : UartId) (v : Byte)
  /-- UART_DIV_WRITE: a data-port write seen with DLAB = 1 (R171). -/
  | uartDivWrite (u : UartId) (v : Byte)
  /-- UART_FCR_WRITE (R173). -/
  | uartFcrWrite (u : UartId) (v : Byte)
  /-- UART_LCR_WRITE (R174). -/
  | uartLcrWrite (u : UartId) (v : Byte)
  /-- UART_MCR_WRITE (R175). -/
  | uartMcrWrite (u : UartId) (v : Byte)
  /-- UART_LSR_READ (R176). -/
  | uartLsrRead (u : UartId)
  /-- UART_TX_SEND: the transmitter's step (R178); it has no word. -/
  | uartTxSend (u : UartId)
  /-- CRTC_INDEX_WRITE (R133). -/
  | crtcIndexWrite (v : Byte)
  /-- CRTC_CURSOR_HIGH_WRITE: a cursor data-port write seen under CURSOR_HIGH_CMD (R134). -/
  | crtcCursorHighWrite (v : Byte)
  /-- CRTC_CURSOR_LOW_WRITE: a cursor data-port write seen under CURSOR_LOW_CMD (R135). -/
  | crtcCursorLowWrite (v : Byte)
  /-- GRID_CHAR_STORE of cell `k`, byte offset 2k (R130). -/
  | gridCharStore (k : Half) (v : Byte)
  /-- GRID_ATTR_STORE of cell `k`, byte offset 2k + 1 (R131). -/
  | gridAttrStore (k : Half) (v : Byte)
  /-- GRID_LOAD of byte offset `off` (R132). -/
  | gridLoad (off : BitVec 17)
  /-- `write_port(port, value)` as a command, code 0x0 (R120, R124). -/
  | writePort (port : Port) (value : Byte)
  /-- `read_port(port)` as a command, code 0x1 (R121, R124). -/
  | readPort (port : Port)
  /-- `fb.write_cell(index, char, fg, bg)`, code 0x2 (R145). A colour may be wider than its 4 bits; R99 masks it (log 19). -/
  | fbWriteCell (index : Half) (char : Byte) (fg bg : Nat)
  /-- `fb.move_cursor(pos)`, code 0x3 (R146). -/
  | fbMoveCursor (pos : Half)
  /-- `fb.write(text)`, code 0x4 (R147). -/
  | fbWrite (text : List Byte)
  /-- `fb.clear()`, code 0x5 (R151). -/
  | fbClear
  /-- `serial.configure_baud_rate(port, divisor)`, code 0x6 (R200). -/
  | serialConfigureBaudRate (port : Port) (divisor : Half)
  /-- `serial.configure_line(port)`, code 0x7 (R201). -/
  | serialConfigureLine (port : Port)
  /-- `serial.configure_buffer(port)`, code 0x8 (R202). -/
  | serialConfigureBuffer (port : Port)
  /-- `serial.configure_modem(port)`, code 0x9 (R203). -/
  | serialConfigureModem (port : Port)
  /-- `serial.is_transmit_fifo_empty(port)`, code 0xA (R204). -/
  | serialIsTransmitFifoEmpty (port : Port)
  /-- `serial.init(port)`, code 0xB (R205). -/
  | serialInit (port : Port)
  /-- `serial.write(port, text)`, code 0xC (R206). -/
  | serialWrite (port : Port) (text : List Byte)
  /-- `print(channel, text)`, code 0xD (R220). -/
  | print (channel : Port) (text : List Byte)
  /-- `fb.scroll()`, label code 0xE, an internal step of `fb.write` (R150). -/
  | fbScroll
  /-- Command code 0xF, unused (R105). -/
  | reservedCmd
  deriving DecidableEq, Repr

/-- The reasons of a refusal (spec/60_exceptions.md R237). The last two are the model's names for R105's "a caller that presents
either is refused" (log 14). -/
inductive RefuseReason where
  /-- A read of a cursor port (R137). -/
  | crtcRead
  /-- A cursor data-port write under no cursor index (R136). -/
  | crtcIndexNotModelled
  /-- A read of a UART data port (R172). -/
  | uartDataRead
  /-- Any other access the source does not make at a UART's ports (R177). -/
  | uartAccessNotModelled
  /-- A FIFO-control write that changes FIFO_EN without both clear bits (R173). -/
  | fifoModeChangeWithoutClear
  /-- A modem-control write with bit 4 set (R175). -/
  | loopbackNotModelled
  /-- Command code 0xE presented by a caller (R105, R150). -/
  | scrollNotIssuable
  /-- Command code 0xF (R105). -/
  | reservedCommand
  deriving DecidableEq, Repr

end Sys2Proof
end

