-- ==== Sys2Proof/WellFormed.lean ====
section
/-! DEFINITION. Which instructions are well formed: a grid access lies in the grid window (spec/30_encoding.md R94, R103: "the only
illegal words are those whose off is outside the window"). Every other operand is legal at every value of its type. -/

namespace Sys2Proof

/-- `k` is a cell of the grid (R94). -/
def cellInGrid (k : Half) : Bool := decide (k.toNat < Config.cells)

/-- `off` is a byte offset of the grid window (R94). -/
def offsetInWindow (off : BitVec 17) : Bool := decide (off.toNat < Config.windowBytes)

/-- The well-formedness check of an instruction. -/
def Instr.wellFormed : Instr → Bool
  | .portWrite _ _ => true
  | .portRead _ => true
  | .uartTxWrite _ _ => true
  | .uartDivWrite _ _ => true
  | .uartFcrWrite _ _ => true
  | .uartLcrWrite _ _ => true
  | .uartMcrWrite _ _ => true
  | .uartLsrRead _ => true
  | .uartTxSend _ => true
  | .crtcIndexWrite _ => true
  | .crtcCursorHighWrite _ => true
  | .crtcCursorLowWrite _ => true
  | .gridCharStore k _ => cellInGrid k
  | .gridAttrStore k _ => cellInGrid k
  | .gridLoad off => offsetInWindow off
  | .writePort _ _ => true
  | .readPort _ => true
  | .fbWriteCell _ _ _ _ => true
  | .fbMoveCursor _ => true
  | .fbWrite _ => true
  | .fbClear => true
  | .serialConfigureBaudRate _ _ => true
  | .serialConfigureLine _ => true
  | .serialConfigureBuffer _ => true
  | .serialConfigureModem _ => true
  | .serialIsTransmitFifoEmpty _ => true
  | .serialInit _ => true
  | .serialWrite _ _ => true
  | .print _ _ => true
  | .fbScroll => true
  | .reservedCmd => true

end Sys2Proof
end

