-- ==== Sys2Proof/Decode.lean ====
section
/-! DEFINITION. The words of the five formats (spec/30_encoding.md R90 to R95), the opcode map of R101 to R105 as patterns (mask and
match), a total decoder that rejects by name, and the encoder written from the same patterns. -/

namespace Sys2Proof

/-- The typed operands that follow a command code (R95: "typed values (not packed into bits)"); a command reads those its row of
R104 names. -/
structure CmdOperands where
  /-- `port`, or `channel` of `print`. -/
  port : Port := 0
  /-- `value`, or `char` of `fb.write_cell`. -/
  value : Byte := 0
  fg : Nat := 0
  bg : Nat := 0
  /-- `index`, or `pos` of `fb.move_cursor`. -/
  index : Half := 0
  divisor : Half := 0
  text : List Byte := []
  deriving DecidableEq, Repr

/-- A word and where it is seen, which tells its format (R90). -/
inductive Request where
  /-- At the port primitive. -/
  | p (w : BitVec 25)
  /-- On the bus of a UART, after the address decode. -/
  | u (unit : UartId) (w : BitVec 13)
  /-- At the cursor hardware, after the address decode. -/
  | c (w : BitVec 18)
  /-- At the memory side. -/
  | m (w : BitVec 26)
  /-- At the sequencer's command input. -/
  | cmd (code : BitVec 4) (ops : CmdOperands)
  deriving DecidableEq, Repr

/-- Why a word is no instruction. -/
inductive DecodeError where
  /-- Reserved space of format U or C (R105): the refusal the rules give. -/
  | reserved (reason : RefuseReason)
  /-- A format M word whose off lies outside the window (R103, R105). -/
  | outsideWindow (off : Nat)
  deriving DecidableEq, Repr

/-- A row of the opcode table: the bits that are fixed and their values. -/
structure Pattern (n : Nat) where
  mask : BitVec n
  value : BitVec n
  deriving DecidableEq, Repr

/-- The word is one of the row's. -/
def Pattern.hits {n : Nat} (p : Pattern n) (w : BitVec n) : Bool := w &&& p.mask == p.value

/-! ### The rows (R91, R101, R102, R103) -/

/-- PORT_WRITE (R91). -/
def rowPortWrite : Pattern 25 := ⟨0x1000000, 0x1000000⟩
/-- PORT_READ (R91). -/
def rowPortRead : Pattern 25 := ⟨0x1000000, 0x0000000⟩
/-- UART_TX_WRITE (R101). -/
def rowTxWrite : Pattern 13 := ⟨0x1F00, 0x1000⟩
/-- UART_DIV_WRITE (R101). -/
def rowDivWrite : Pattern 13 := ⟨0x1F00, 0x1800⟩
/-- UART_FCR_WRITE (R101). -/
def rowFcrWrite : Pattern 13 := ⟨0x1700, 0x1200⟩
/-- UART_LCR_WRITE (R101). -/
def rowLcrWrite : Pattern 13 := ⟨0x1700, 0x1300⟩
/-- UART_MCR_WRITE (R101). -/
def rowMcrWrite : Pattern 13 := ⟨0x1700, 0x1400⟩
/-- UART_LSR_READ (R101). -/
def rowLsrRead : Pattern 13 := ⟨0x1700, 0x0500⟩
/-- CRTC_INDEX_WRITE (R102). -/
def rowIndexWrite : Pattern 18 := ⟨0x30000, 0x20000⟩
/-- A data-port write of format C under the index `cmd`: dir = 1, sel = 1, idx = cmd (R102). -/
def rowCursorWrite (cmd : Byte) : Pattern 18 := ⟨0x3FF00, 0x30000 ||| (cmd.setWidth 18 <<< 8)⟩
/-- CRTC_CURSOR_HIGH_WRITE (R102). -/
def rowCursorHigh : Pattern 18 := rowCursorWrite Config.cursorHighCmd
/-- CRTC_CURSOR_LOW_WRITE (R102). -/
def rowCursorLow : Pattern 18 := rowCursorWrite Config.cursorLowCmd
/-- GRID_CHAR_STORE (R103). -/
def rowCharStore : Pattern 26 := ⟨0x2000100, 0x2000000⟩
/-- GRID_ATTR_STORE (R103). -/
def rowAttrStore : Pattern 26 := ⟨0x2000100, 0x2000100⟩
/-- GRID_LOAD (R103). -/
def rowGridLoad : Pattern 26 := ⟨0x2000000, 0x0000000⟩

/-- The rows of format P. -/
def rowsP : List (Pattern 25) := [rowPortWrite, rowPortRead]
/-- The rows of format U. -/
def rowsU : List (Pattern 13) := [rowTxWrite, rowDivWrite, rowFcrWrite, rowLcrWrite, rowMcrWrite, rowLsrRead]
/-- The rows of format C. -/
def rowsC : List (Pattern 18) := [rowIndexWrite, rowCursorHigh, rowCursorLow]
/-- The rows of format M. -/
def rowsM : List (Pattern 26) := [rowCharStore, rowAttrStore, rowGridLoad]

/-! ### Fields -/

/-- The data field, bits 7:0 of formats P, U, C and M. -/
def dataField {n : Nat} (w : BitVec n) : Byte := BitVec.ofNat 8 w.toNat
/-- The port field of format P, bits 23:8 (R91). -/
def portField (w : BitVec 25) : Port := BitVec.ofNat 16 (w.toNat / 2 ^ 8)
/-- The off field of format M, bits 24:8 (R94). -/
def offField (w : BitVec 26) : BitVec 17 := BitVec.ofNat 17 (w.toNat / 2 ^ 8)
/-- The cell index of format M, off[16:1], bits 24:9 (R94). -/
def cellField (w : BitVec 26) : Half := BitVec.ofNat 16 (w.toNat / 2 ^ 9)
/-- The off field of format U, bits 10:8 (R92). -/
def uartOffField (w : BitVec 13) : BitVec 3 := BitVec.ofNat 3 (w.toNat / 2 ^ 8)

/-! ### The decoder -/

/-- Format P: the two rows cover it (R91). The data field of a read request is not read. -/
def decodeP (w : BitVec 25) : Instr :=
  if rowPortWrite.hits w then .portWrite (portField w) (dataField w) else .portRead (portField w)

/-- Format U (R101); the reserved words have the refusals of R172 and R177. -/
def decodeU (u : UartId) (w : BitVec 13) : Except DecodeError Instr :=
  if rowTxWrite.hits w then .ok (.uartTxWrite u (dataField w))
  else if rowDivWrite.hits w then .ok (.uartDivWrite u (dataField w))
  else if rowFcrWrite.hits w then .ok (.uartFcrWrite u (dataField w))
  else if rowLcrWrite.hits w then .ok (.uartLcrWrite u (dataField w))
  else if rowMcrWrite.hits w then .ok (.uartMcrWrite u (dataField w))
  else if rowLsrRead.hits w then .ok (.uartLsrRead u)
  else if uartOffField w = 0 then .error (.reserved .uartDataRead)
  else .error (.reserved .uartAccessNotModelled)

/-- Format C (R102); the reserved words have the refusals of R136 and R137. -/
def decodeC (w : BitVec 18) : Except DecodeError Instr :=
  if rowIndexWrite.hits w then .ok (.crtcIndexWrite (dataField w))
  else if rowCursorHigh.hits w then .ok (.crtcCursorHighWrite (dataField w))
  else if rowCursorLow.hits w then .ok (.crtcCursorLowWrite (dataField w))
  else if w.getLsbD 17 then .error (.reserved .crtcIndexNotModelled)
  else .error (.reserved .crtcRead)

/-- Format M (R103): a word whose off is outside the window is illegal. The data field of a load request is not read. -/
def decodeM (w : BitVec 26) : Except DecodeError Instr :=
  if offsetInWindow (offField w) then
    if rowCharStore.hits w then .ok (.gridCharStore (cellField w) (dataField w))
    else if rowAttrStore.hits w then .ok (.gridAttrStore (cellField w) (dataField w))
    else .ok (.gridLoad (offField w))
  else .error (.outsideWindow (offField w).toNat)

/-- Format CMD: the code picks the command (R104). -/
def decodeCmd (code : BitVec 4) (o : CmdOperands) : Instr :=
  match code.toNat with
  | 0x0 => .writePort o.port o.value
  | 0x1 => .readPort o.port
  | 0x2 => .fbWriteCell o.index o.value o.fg o.bg
  | 0x3 => .fbMoveCursor o.index
  | 0x4 => .fbWrite o.text
  | 0x5 => .fbClear
  | 0x6 => .serialConfigureBaudRate o.port o.divisor
  | 0x7 => .serialConfigureLine o.port
  | 0x8 => .serialConfigureBuffer o.port
  | 0x9 => .serialConfigureModem o.port
  | 0xA => .serialIsTransmitFifoEmpty o.port
  | 0xB => .serialInit o.port
  | 0xC => .serialWrite o.port o.text
  | 0xD => .print o.port o.text
  | 0xE => .fbScroll
  | _ => .reservedCmd

/-- The decoder, total on every word of every format. -/
def decode : Request → Except DecodeError Instr
  | .p w => .ok (decodeP w)
  | .u unit w => decodeU unit w
  | .c w => decodeC w
  | .m w => decodeM w
  | .cmd code ops => .ok (decodeCmd code ops)

/-! ### The encoder -/

/-- A row's word with the data field `v`. -/
def Pattern.withData {n : Nat} (p : Pattern n) (v : Byte) : BitVec n := p.value ||| v.setWidth n

/-- The P word of direction `write`, `port` and `v` (R91). -/
def wordP (write : Bool) (port : Port) (v : Byte) : BitVec 25 := BitVec.ofBool write ++ port ++ v

/-- The M word of direction `store`, byte offset `off` and `v` (R94). -/
def wordM (store : Bool) (off : BitVec 17) (v : Byte) : BitVec 26 := BitVec.ofBool store ++ off ++ v

/-- The canonical word of an instruction: bits a row does not read are 0 (idx of a command-port write, dlab of offsets 2 to 5, the
data of a read), and a command's unread operands are 0. UART_TX_SEND has no word (R178). -/
def encode : Instr → Option Request
  | .portWrite port v => some (.p (wordP true port v))
  | .portRead port => some (.p (wordP false port 0))
  | .uartTxWrite u v => some (.u u (rowTxWrite.withData v))
  | .uartDivWrite u v => some (.u u (rowDivWrite.withData v))
  | .uartFcrWrite u v => some (.u u (rowFcrWrite.withData v))
  | .uartLcrWrite u v => some (.u u (rowLcrWrite.withData v))
  | .uartMcrWrite u v => some (.u u (rowMcrWrite.withData v))
  | .uartLsrRead u => some (.u u rowLsrRead.value)
  | .uartTxSend _ => none
  | .crtcIndexWrite v => some (.c (rowIndexWrite.withData v))
  | .crtcCursorHighWrite v => some (.c (rowCursorHigh.withData v))
  | .crtcCursorLowWrite v => some (.c (rowCursorLow.withData v))
  | .gridCharStore k v => some (.m (wordM true (k ++ 0#1) v))
  | .gridAttrStore k v => some (.m (wordM true (k ++ 1#1) v))
  | .gridLoad off => some (.m (wordM false off 0))
  | .writePort port value => some (.cmd 0x0 { port := port, value := value })
  | .readPort port => some (.cmd 0x1 { port := port })
  | .fbWriteCell index char fg bg => some (.cmd 0x2 { index := index, value := char, fg := fg, bg := bg })
  | .fbMoveCursor pos => some (.cmd 0x3 { index := pos })
  | .fbWrite text => some (.cmd 0x4 { text := text })
  | .fbClear => some (.cmd 0x5 {})
  | .serialConfigureBaudRate port divisor => some (.cmd 0x6 { port := port, divisor := divisor })
  | .serialConfigureLine port => some (.cmd 0x7 { port := port })
  | .serialConfigureBuffer port => some (.cmd 0x8 { port := port })
  | .serialConfigureModem port => some (.cmd 0x9 { port := port })
  | .serialIsTransmitFifoEmpty port => some (.cmd 0xA { port := port })
  | .serialInit port => some (.cmd 0xB { port := port })
  | .serialWrite port text => some (.cmd 0xC { port := port, text := text })
  | .print channel text => some (.cmd 0xD { port := channel, text := text })
  | .fbScroll => some (.cmd 0xE {})
  | .reservedCmd => some (.cmd 0xF {})

/-! ### The opcode table's words -/

/-- The request a table word stands for: its length tells the format (4 bits CMD, 13 U, 18 C, 25 P, 26 M). Where only whole bytes
are given, 8 is CMD, 16 U (seen at UART[0]), 24 C, and 32 is P when the word fits 25 bits and M otherwise (log 11). -/
def requestOfTableWord (nbits w : Nat) : Option Request :=
  if nbits ≤ 8 then if w < 2 ^ 4 then some (.cmd (BitVec.ofNat 4 w) {}) else none
  else if nbits ≤ 16 then if w < 2 ^ 13 then some (.u .com1 (BitVec.ofNat 13 w)) else none
  else if nbits ≤ 24 then if w < 2 ^ 18 then some (.c (BitVec.ofNat 18 w)) else none
  else if nbits = 26 then if w < 2 ^ 26 then some (.m (BitVec.ofNat 26 w)) else none
  else if w < 2 ^ 25 then some (.p (BitVec.ofNat 25 w))
  else if nbits ≠ 25 ∧ w < 2 ^ 26 then some (.m (BitVec.ofNat 26 w))
  else none

/-- The instruction the decoder reads from a word of the opcode table. -/
def decodeTableWord (nbits w : Nat) : Option Instr :=
  match requestOfTableWord nbits w with
  | some r => (decode r).toOption
  | none => none

end Sys2Proof
end

