-- ==== Sys2Proof/Machine/State.lean ====
section
/-! DEFINITION. The state of the block as plain data (spec/10_state.md R20 to R36), its reset value (R40), and the ways a step can
stop. A register the spec lets hold `none` is an `Option`: `none` is the spec's own value, which its rules test (log 5). -/

namespace Sys2Proof.Machine

/-- Memory bytes by physical address, in the canonical form of `Memory.wf`: addresses strictly rising. An unlisted address reads as
`none`, the reset content of every grid byte (R40), so no entry can equal what an unlisted address reads as. -/
abbrev Memory := List Host.Cell

/-- One record of LINE: a byte sent, with the divisor and the format in force (R29). -/
structure LineRecord where
  byte : Byte
  div : Option Half
  fmt : Option (BitVec 7)
  deriving DecidableEq, Repr

/-- The state of one UART (R21 to R29). -/
structure Uart where
  /-- DLH, the high byte of the divisor (R21). -/
  dlh : Option Byte
  /-- DLL, the low byte of the divisor (R21). -/
  dll : Option Byte
  /-- DLPHASE (R22): false is 0, the next divisor byte is the high one. -/
  dlphase : Bool
  /-- LCR (R23): bit 7 DLAB, bits 6:0 FMT. -/
  lcr : Option Byte
  /-- FIFO_EN (R24). -/
  fifoEn : Option Bool
  /-- RX_TRIG (R24). -/
  rxTrig : Option (BitVec 2)
  /-- FCR_MISC (R24). -/
  fcrMisc : Option (BitVec 3)
  /-- MCR (R25). -/
  mcr : Option Byte
  /-- Pin DTR (R25): true is asserted. -/
  dtr : Option Bool
  /-- Pin RTS (R25): true is asserted. -/
  rts : Option Bool
  /-- TXFIFO, oldest first (R26). -/
  txfifo : List Byte
  /-- RXFIFO (R27). -/
  rxfifo : List Byte
  /-- LINE, in the order sent (R29). -/
  line : List LineRecord
  deriving DecidableEq, Repr

/-- A UART after reset (R40). -/
def Uart.reset : Uart where
  dlh := none
  dll := none
  dlphase := false
  lcr := none
  fifoEn := none
  rxTrig := none
  fcrMisc := none
  mcr := none
  dtr := none
  rts := none
  txfifo := []
  rxfifo := []
  line := []

/-- A state element that may hold `none`, as UnwrittenState names it (R231, R235). -/
inductive Element where
  | gridByte (off : Nat)
  | cursor
  | uartLcr (u : UartId)
  | uartFifoEn (u : UartId)
  deriving DecidableEq, Repr

/-- A fault record of the spec (R231): name and info. It is recorded in FAULT; it is no stop of `step`. -/
inductive FaultRecord where
  | gridIndexOutOfRange (index : Half)
  | cursorOutOfRange (pos : Half)
  | txOverrun (u : UartId) (byte : Byte)
  | unwrittenState (element : Element)
  deriving DecidableEq, Repr

/-- The code of a fault (R231). -/
def FaultRecord.code : FaultRecord → Nat
  | .gridIndexOutOfRange _ => 1
  | .cursorOutOfRange _ => 2
  | .txOverrun _ _ => 3
  | .unwrittenState _ => 4

/-! ### The sequencer's position (R35) -/

/-- Position in `fb.write_cell` (R145). -/
inductive CellAt where
  | char
  | attr
  deriving DecidableEq, Repr

/-- Position in `fb.move_cursor` (R146). -/
inductive MoveAt where
  | highCmd
  | highData
  | lowCmd
  | lowData
  | record
  deriving DecidableEq, Repr

/-- Position in `fb.write` (R147): the loop head before the scroll check, the body after it, the common advance by one, and after
the call of `fb.move_cursor`. `i` is the loop index. -/
inductive WriteAt where
  | head (i : Nat)
  | body (i : Nat)
  | advance (i : Nat)
  | final
  deriving DecidableEq, Repr

/-- Position in `fb.scroll` (R150): before the load of `off + 2 * WIDTH`, before the store of `b` at `off`, before the blanking of
cell `k` (at `k = WIDTH * HEIGHT`, before the update of CURSOR). -/
inductive ScrollAt where
  | load (off : Nat)
  | store (off : Nat) (b : Byte)
  | blank (k : Nat)
  deriving DecidableEq, Repr

/-- Position in `fb.clear` (R151): before the blanking of cell `k` (at `k = WIDTH * HEIGHT`, before `CURSOR <- 0`), before the call
of `fb.move_cursor`, and after it. -/
inductive ClearAt where
  | blank (k : Nat)
  | move
  | final
  deriving DecidableEq, Repr

/-- Position in `serial.configure_baud_rate` (R200). -/
inductive BaudAt where
  | enable
  | high
  | low
  deriving DecidableEq, Repr

/-- Position in `serial.init` (R205): which call is next. -/
inductive InitAt where
  | baud
  | line
  | buffer
  | modem
  | final
  deriving DecidableEq, Repr

/-- Position in `serial.write` (R206): the spin, the call of `serial.init`, the payload byte `i`. -/
inductive SerialAt where
  | spin
  | init
  | payload (i : Nat)
  deriving DecidableEq, Repr

/-- A command being executed: its operands, captured when it was issued or called (R75), and the position in its pseudocode. -/
inductive Frame where
  | writeCell (index : Half) (char : Byte) (fg bg : Nat) (loc : CellAt)
  | moveCursor (pos : Half) (loc : MoveAt)
  | fbWrite (text : List Byte) (loc : WriteAt)
  | scroll (loc : ScrollAt)
  | clear (loc : ClearAt)
  | configureBaud (port : Port) (divisor : Half) (loc : BaudAt)
  | configureLine (port : Port)
  | configureBuffer (port : Port)
  | configureModem (port : Port)
  | isTxEmpty (port : Port)
  | init (port : Port) (loc : InitAt)
  | serialWrite (port : Port) (text : List Byte) (loc : SerialAt)
  | print (channel : Port) (text : List Byte) (called : Bool)
  deriving DecidableEq, Repr

/-! ### The model's own bookkeeping -/

/-- What a read or a command returns to the caller (R121, R132, R176, R204). -/
inductive ReturnValue where
  | byte (b : Byte)
  | bit (b : Bool)
  deriving DecidableEq, Repr

/-- An agent that takes a step (spec/00_scope.md R5). `sequencer` stands for the driver side: the sequencer while a command runs,
the caller while it is idle. -/
inductive Agent where
  | sequencer
  | transmitter (u : UartId)
  deriving DecidableEq, Repr

end Sys2Proof.Machine

namespace Sys2Proof.Machine

/-- The whole state of the block. -/
structure State where
  /-- UART[0], at COM1_BASE (R20). -/
  uart0 : Uart
  /-- UART[1], at COM2_BASE (R20). -/
  uart1 : Uart
  /-- GRID (R30), by physical address. -/
  grid : Memory
  /-- CRTC_INDEX (R31). -/
  crtcIndex : Option Byte
  /-- CUR_HI (R32). -/
  curHi : Option Byte
  /-- CUR_LO (R32). -/
  curLo : Option Byte
  /-- HWCURSOR (R33). -/
  hwCursor : Option Half
  /-- CURSOR (R34). -/
  cursor : Option Half
  /-- SEQ (R35): the running command first, then the commands that called it; `[]` is `idle`. -/
  seq : List Frame
  /-- FAULT (R36): the fault records raised so far. -/
  fault : List FaultRecord
  /-- REFUSED (R36): the mark, with its reason; `none` is not set. -/
  refused : Option RefuseReason
  /-- The value last returned to the caller; the model's own (log 6). -/
  result : Option ReturnValue
  /-- How many free values have been drawn; the model's own (log 4). -/
  draws : Nat
  /-- The agents of the coming steps; when it is empty the sequencer steps. The model's own (log 2). -/
  sched : List Agent
  /-- The requests the caller has issued, oldest first; the model's own (log 3). -/
  inbox : List Request
  deriving DecidableEq, Repr

/-- Why the machine stops with a fault. No record of R231 is one of these: the spec's faults are recorded in FAULT and the block
goes on (R240). -/
inductive Fault where
  /-- Raised by GRID_CHAR_STORE, GRID_ATTR_STORE, GRID_LOAD and by the fetch of an M word at a byte offset outside the grid window,
  an address that is not of this hardware (R62, R105). Safe: the hardware has no such access (log 12). -/
  | outsideGridWindow (off : Nat)
  deriving DecidableEq, Repr

/-- Why an instruction has no meaning. -/
inductive Refusal where
  /-- An instruction this model gives no meaning; no arm of `exec` answers it. Safe. -/
  | notModelled (mnemonic : String)
  /-- Raised by `step` in a state marked REFUSED: "no theorem may be stated about what follows it" (R237). Safe (log 7). -/
  | markedRefused (reason : RefuseReason)
  deriving DecidableEq, Repr

/-- The state after power-on (R40, R260); the model's own fields hold the values of log 2, 3, 4 and 6. -/
def State.reset : State where
  uart0 := Uart.reset
  uart1 := Uart.reset
  grid := []
  crtcIndex := none
  curHi := none
  curLo := none
  hwCursor := none
  cursor := none
  seq := []
  fault := []
  refused := none
  result := none
  draws := 0
  sched := []
  inbox := []

end Sys2Proof.Machine
end

