-- ==== Sys2Proof/Machine/Operands.lean ====
section
/-! DEFINITION. Operand assembly (spec/30_encoding.md R96 to R100), the grid addresses (spec/20_memory.md R62) and the cursor
arithmetic (spec/42_console_sequencer.md R148, R149, R150, R154). -/

namespace Sys2Proof.Machine

/-- `(v >> 8) & 0xFF`, the byte sent first (R96, R97). -/
def hiByte (v : Half) : Byte := BitVec.ofNat 8 (v.toNat / 256)

/-- `v & 0xFF`, the byte sent second (R96, R97). -/
def loByte (v : Half) : Byte := BitVec.ofNat 8 v.toNat

/-- `{hi, lo}` (section 6). -/
def pair (hi lo : Byte) : Half := hi ++ lo

/-- `(port + OFF) mod 2^PORT_ADDR_BITS` (R100). -/
def registerPort (port off : Port) : Port := port + off

/-- `((bg & 0xF) << 4) | (fg & 0xF)` (R99): a colour wider than four bits is masked. -/
def attrByte (fg bg : Nat) : Byte := BitVec.ofNat 4 bg ++ BitVec.ofNat 4 fg

/-- Byte offset of the character of cell `k` (R64, R98). -/
def charOffset (k : Nat) : Nat := Config.cellBytes * k

/-- Byte offset of the attribute of cell `k` (R64, R98). -/
def attrOffset (k : Nat) : Nat := Config.cellBytes * k + 1

/-- The physical address of byte offset `off` of the window (R62). -/
def gridAddr (off : Nat) : Nat := Config.gridBase + off

/-- The addend of a newline step, `WIDTH - (CURSOR mod WIDTH) - 1`, taken to the cursor (R148). The arithmetic is on naturals and
R154 bounds every result by 16 bits wherever CURSOR meets its invariant (log 18). -/
def cursorNewline (c : Half) : Half := BitVec.ofNat 16 (c.toNat + (Config.width - c.toNat % Config.width - 1))

/-- The advance by one of every character (R147, R149). -/
def cursorAdvance (c : Half) : Half := BitVec.ofNat 16 (c.toNat + 1)

/-- `CURSOR - WIDTH`, at the end of a scroll (R150). -/
def cursorUp (c : Half) : Half := BitVec.ofNat 16 (c.toNat - Config.width)

/-- BASE[u] (section 6). -/
def base : UartId → Port
  | .com1 => Config.com1Base
  | .com2 => Config.com2Base

/-- Who claims a port (R122). -/
inductive Claim where
  | uart (u : UartId) (off : BitVec 3)
  | crtcCmd
  | crtcData
  | unclaimed
  deriving DecidableEq, Repr

/-- The offset of a port in UART `u`'s block of eight, `(port - BASE[u]) mod 2^PORT_ADDR_BITS` when it is at most 7 (R122). -/
def uartOffset (u : UartId) (port : Port) : Option (BitVec 3) :=
  if (port - base u).toNat ≤ 7 then some (BitVec.ofNat 3 (port - base u).toNat) else none

/-- The address decode `Claim(port)` (R122). -/
def claim (port : Port) : Claim :=
  match uartOffset .com1 port with
  | some off => .uart .com1 off
  | none =>
    match uartOffset .com2 port with
    | some off => .uart .com2 off
    | none => if port = Config.crtcCmdPort then .crtcCmd else if port = Config.crtcDataPort then .crtcData else .unclaimed

end Sys2Proof.Machine
end

