-- ==== Sys2Proof/Machine/Ops.lean ====
section
/-! DEFINITION. The named operations over memory and registers, taking a fault (spec/60_exceptions.md R240), marking a refusal (R237),
and the free draw (spec/00_scope.md section 7). -/

namespace Sys2Proof.Machine

/-! ### Memory -/

/-- The byte at an address, `none` where nothing was stored since reset. -/
def Memory.read : Memory → Nat → Option Byte
  | [], _ => none
  | (b, v) :: m, a => if b = a then some v else Memory.read m a

/-- Store a byte, keeping the addresses strictly rising. -/
def Memory.write : Memory → Nat → Byte → Memory
  | [], a, v => [(a, v)]
  | (b, w) :: m, a, v =>
    if a < b then (a, v) :: (b, w) :: m
    else if a = b then (a, v) :: m
    else (b, w) :: Memory.write m a v

/-- The canonical form: addresses strictly rising. -/
def Memory.wf : Memory → Bool
  | [] => true
  | [_] => true
  | (a, _) :: (b, w) :: m => decide (a < b) && Memory.wf ((b, w) :: m)

/-- Every listed address lies in the grid window (R62). -/
def Memory.inWindow (m : Memory) : Bool :=
  m.all fun cell => decide (Config.gridBase ≤ cell.1) && decide (cell.1 < Config.gridBase + Config.windowBytes)

/-! ### Registers -/

/-- UART[u] (R20). -/
def State.uart (s : State) : UartId → Uart
  | .com1 => s.uart0
  | .com2 => s.uart1

/-- Replace UART[u] and nothing else (R20). -/
def State.setUart (s : State) (u : UartId) (x : Uart) : State :=
  match u with
  | .com1 => { s with uart0 := x }
  | .com2 => { s with uart1 := x }

/-- SEQ = idle (R35). -/
def State.idle (s : State) : Bool := s.seq.isEmpty

/-- A command is accepted only when SEQ = idle and FAULT is empty (R35, R240). -/
def State.accepts (s : State) : Bool := s.seq.isEmpty && s.fault.isEmpty

/-! ### Faults and refusals -/

/-- What `raise` does (R240): the record is appended to FAULT, SEQ <- idle, the running command and its callers are abandoned,
nothing is returned to the caller. Nothing is saved, no vector is fetched and no mode changes. There is no return from a fault
(R241): only reset clears FAULT. -/
def State.takeFault (s : State) (r : FaultRecord) : State :=
  { s with fault := s.fault ++ [r], seq := [], result := none }

/-- What `refuse` does (R237): the state is marked REFUSED. Nothing may be said of what follows (log 7). -/
def State.markRefused (s : State) (r : RefuseReason) : State := { s with refused := some r }

/-- A transaction as the sequencer sees it: complete, with the byte it returned if any, or stopped, with the outcome it leaves. -/
inductive Txn (α : Type) where
  | done (a : α) (s : State)
  | stopped (o : Host.Outcome State Fault Refusal)

/-- `raise` inside a transaction. -/
def Txn.raise {α : Type} (s : State) (r : FaultRecord) : Txn α := .stopped (.next (s.takeFault r))

/-- `refuse` inside a transaction. -/
def Txn.refuse {α : Type} (s : State) (r : RefuseReason) : Txn α := .stopped (.next (s.markRefused r))

/-- The outcome of a transaction that stands alone: `k` says what becomes of the byte returned. -/
def Txn.settle {α : Type} (t : Txn α) (k : α → State → State) : Host.Outcome State Fault Refusal :=
  match t with
  | .done a s => .next (k a s)
  | .stopped o => o

/-- Nothing is returned. -/
def keep (_ : Unit) (s : State) : State := s

/-- The byte read is returned to the caller. -/
def returnByte (b : Byte) (s : State) : State := { s with result := some (.byte b) }

/-! ### Free values -/

/-- `draw(8)`: the next free byte (section 7), chosen anew each time. -/
def State.drawn (s : State) : Byte := Config.draw s.draws

/-- The state after a draw. -/
def State.afterDraw (s : State) : State := { s with draws := s.draws + 1 }

/-! ### The command input -/

/-- A command is issued with its first frame: SEQ <- running when it is accepted (R35); a command that is not accepted has none of
its effect and waits (log 8). -/
def State.issue (s : State) (f : Frame) : Host.Outcome State Fault Refusal :=
  if s.accepts then .next { s with seq := [f], result := none } else .next s

/-- `call` of a command from the running one (section 7): its frame goes on the stack. -/
def State.call (s : State) (f : Frame) : State := { s with seq := f :: s.seq }

/-! ### Placing a request where the next step fetches it -/

/-- The state in which the very next step accepts `r`: the driver side is to step, idle, unfaulted and unmarked, and `r` is the
first request. -/
def State.placeRequest (s : State) (r : Request) : State :=
  { s with seq := [], fault := [], refused := none, sched := [], inbox := r :: s.inbox }

end Sys2Proof.Machine
end

