-- ==== Sys2Proof/Machine/Grid.lean ====
section
/-! DEFINITION. The grid accesses, format M (spec/41_console_registers.md R130 to R132). -/

namespace Sys2Proof.Machine

/-- `MemWrite(GRID_BASE + off, 1, v)` (R130, R131): one grid byte, nothing else. -/
def gridStore (off : Nat) (v : Byte) (s : State) : Txn Unit :=
  if off < Config.windowBytes then .done () { s with grid := Memory.write s.grid (gridAddr off) v }
  else .stopped (.fault (.outsideGridWindow off))

/-- `MemRead(GRID_BASE + off, 1)` (R132): a byte never written raises UnwrittenState. -/
def gridRead (off : Nat) (s : State) : Txn Byte :=
  if off < Config.windowBytes then
    match Memory.read s.grid (gridAddr off) with
    | some b => .done b s
    | none => .raise s (.unwrittenState (.gridByte off))
  else .stopped (.fault (.outsideGridWindow off))

/-- GRID_CHAR_STORE (R130): GRID[2k] <- v. -/
def execGridCharStore (k : Half) (v : Byte) (s : State) : Host.Outcome State Fault Refusal :=
  (gridStore (charOffset k.toNat) v s).settle keep

/-- GRID_ATTR_STORE (R131): GRID[2k + 1] <- v. -/
def execGridAttrStore (k : Half) (v : Byte) (s : State) : Host.Outcome State Fault Refusal :=
  (gridStore (attrOffset k.toNat) v s).settle keep

/-- GRID_LOAD (R132): GRID[off] is returned; no state element of the block changes. -/
def execGridLoad (off : BitVec 17) (s : State) : Host.Outcome State Fault Refusal :=
  (gridRead off.toNat s).settle returnByte

end Sys2Proof.Machine
end

