-- ==== Sys2Proof/Machine/Crtc.lean ====
section
/-! DEFINITION. The cursor hardware, format C (spec/41_console_registers.md R133 to R137). -/

namespace Sys2Proof.Machine

/-- A command-port write (R133): CRTC_INDEX <- v. -/
def crtcCmdWrite (v : Byte) (s : State) : Txn Unit := .done () { s with crtcIndex := some v }

/-- Load the cursor high byte (R134). -/
def State.loadCursorHigh (s : State) (v : Byte) : State := { s with curHi := some v }

/-- Load the cursor low byte and commit HWCURSOR when CUR_HI is not `none` (R135). -/
def State.loadCursorLow (s : State) (v : Byte) : State :=
  match s.curHi with
  | some h => { s with curLo := some v, hwCursor := some (pair h v) }
  | none => { s with curLo := some v }

/-- A data-port write: the register is the one CRTC_INDEX selects (R134, R135), and under any other index it is refused (R136). -/
def crtcDataWrite (v : Byte) (s : State) : Txn Unit :=
  if s.crtcIndex = some Config.cursorHighCmd then .done () (s.loadCursorHigh v)
  else if s.crtcIndex = some Config.cursorLowCmd then .done () (s.loadCursorLow v)
  else .refuse s .crtcIndexNotModelled

/-- CRTC_INDEX_WRITE (R133). -/
def execCrtcIndexWrite (v : Byte) (s : State) : Host.Outcome State Fault Refusal :=
  (crtcCmdWrite v s).settle keep

/-- CRTC_CURSOR_HIGH_WRITE (R134). The idx field of its word is CRTC_INDEX itself and not on the bus (R93), so the transaction goes
where CRTC_INDEX sends it (log 9). -/
def execCrtcCursorHighWrite (v : Byte) (s : State) : Host.Outcome State Fault Refusal :=
  (crtcDataWrite v s).settle keep

/-- CRTC_CURSOR_LOW_WRITE (R135). See `execCrtcCursorHighWrite` for the idx field. -/
def execCrtcCursorLowWrite (v : Byte) (s : State) : Host.Outcome State Fault Refusal :=
  (crtcDataWrite v s).settle keep

end Sys2Proof.Machine
end

