-- ==== Sys2Proof/Machine/Flags.lean ====
section
/-! DEFINITION. The flags and derived registers of a UART (spec/10_state.md R21 to R28, R38): none is stored, each is computed from
the registers. -/

namespace Sys2Proof.Machine

/-- DIV = {DLH, DLL}, `none` when either byte is (R21). -/
def Uart.div (x : Uart) : Option Half :=
  match x.dlh, x.dll with
  | some h, some l => some (h ++ l)
  | _, _ => none

/-- DLAB = LCR[7], `none` when LCR is (R23, R92). -/
def Uart.dlab (x : Uart) : Option Bool := x.lcr.map fun l => l.getLsbD 7

/-- FMT = LCR[6:0] (R23). -/
def Uart.fmt (x : Uart) : Option (BitVec 7) := x.lcr.map fun l => l.extractLsb' 0 7

/-- The capacity of TXFIFO under FIFO_EN: TX_FIFO_DEPTH when enabled, the one holding register when not (R26). -/
def txCapacity (enabled : Bool) : Nat := if enabled then Config.txFifoDepth else 1

/-- TXCAP, `none` when FIFO_EN is (R26). -/
def Uart.txcap (x : Uart) : Option Nat := x.fifoEn.map txCapacity

/-- The transmit-empty flag: 1 exactly when TXFIFO = [] (R28, R38). -/
def Uart.transmitEmpty (x : Uart) : Bool := x.txfifo.isEmpty

/-- The line-status byte of a read that drew `r`: the bit under TX_EMPTY_MASK is transmit-empty, the other seven are `r`'s (R176). -/
def Uart.lsr (x : Uart) (r : Byte) : Byte :=
  if x.transmitEmpty then r ||| Config.txEmptyMask else r &&& ~~~Config.txEmptyMask

/-- The test of `serial.is_transmit_fifo_empty` on a status byte (R204). -/
def statusShowsEmpty (v : Byte) : Bool := v &&& Config.txEmptyMask != 0

/-! ### The fields of the stored bytes (R23, R24, R25); the layouts are the spec's decisions D11 to D13 -/

/-- Data bits of a frame format: FMT[1:0] = 00, 01, 10, 11 is 5, 6, 7, 8 (R23). -/
def dataBits (fmt : BitVec 7) : Nat := 5 + (fmt.extractLsb' 0 2).toNat

/-- FMT[2]: 0 is one stop bit; 1 is two, or one and a half with 5-bit words (R23). -/
def longStop (fmt : BitVec 7) : Bool := fmt.getLsbD 2

/-- FMT[3]: parity enable (R23). -/
def parityEnable (fmt : BitVec 7) : Bool := fmt.getLsbD 3

/-- FMT[4]: even-parity select (R23). -/
def evenParity (fmt : BitVec 7) : Bool := fmt.getLsbD 4

/-- FMT[5]: stick parity (R23). -/
def stickParity (fmt : BitVec 7) : Bool := fmt.getLsbD 5

/-- FMT[6]: break control (R23). -/
def breakControl (fmt : BitVec 7) : Bool := fmt.getLsbD 6

/-- The receive trigger level in bytes: 00, 01, 10, 11 is 1, 4, 8, 14 (R24). -/
def triggerBytes (t : BitVec 2) : Nat :=
  match t.toNat with
  | 0 => 1
  | 1 => 4
  | 2 => 8
  | _ => 14

/-- The fields of a FIFO-control byte (R24). -/
def fcrEnable (v : Byte) : Bool := v.getLsbD 0
/-- Bit 1: clear the receive FIFO (R24). -/
def fcrClearRx (v : Byte) : Bool := v.getLsbD 1
/-- Bit 2: clear the transmit FIFO (R24). -/
def fcrClearTx (v : Byte) : Bool := v.getLsbD 2
/-- Bits 5:3, FCR_MISC (R24). -/
def fcrMiscBits (v : Byte) : BitVec 3 := v.extractLsb' 3 3
/-- Bits 7:6, the trigger level (R24). -/
def fcrTrigger (v : Byte) : BitVec 2 := v.extractLsb' 6 2

/-- MCR bit 0, DTR (R25). -/
def mcrDtr (v : Byte) : Bool := v.getLsbD 0
/-- MCR bit 1, RTS (R25). -/
def mcrRts (v : Byte) : Bool := v.getLsbD 1
/-- MCR bit 4, loopback (R25). -/
def mcrLoopback (v : Byte) : Bool := v.getLsbD 4

end Sys2Proof.Machine
end

