-- ==== Sys2Proof/Machine/Uart.lean ====
section
/-! DEFINITION. The UART at the register level, format U, and the transmitter's step (spec/43_uart_registers.md R170 to R178). -/

namespace Sys2Proof.Machine

/-- Load one divisor byte: DLH when DLPHASE = 0, DLL when it is 1, and DLPHASE toggles (R171). -/
def Uart.loadDivisorByte (x : Uart) (v : Byte) : Uart :=
  if x.dlphase then { x with dll := some v, dlphase := false } else { x with dlh := some v, dlphase := true }

/-- A data-port write (R170, R171). The checks stand in R239's order: LCR `none`, then the DLAB decode, then FIFO_EN `none`, then a
full TXFIFO. -/
def uartDataWrite (u : UartId) (v : Byte) (s : State) : Txn Unit :=
  match (s.uart u).dlab with
  | none => .raise s (.unwrittenState (.uartLcr u))
  | some true => .done () (s.setUart u ((s.uart u).loadDivisorByte v))
  | some false =>
    match (s.uart u).txcap with
    | none => .raise s (.unwrittenState (.uartFifoEn u))
    | some cap =>
      if (s.uart u).txfifo.length < cap then
        .done () (s.setUart u { s.uart u with txfifo := (s.uart u).txfifo ++ [v] })
      else .raise s (.txOverrun u v)

/-- The registers after a FIFO-control write of `v` (R173). -/
def Uart.configureFifo (x : Uart) (v : Byte) : Uart :=
  { x with
    fifoEn := some (fcrEnable v)
    rxfifo := if fcrClearRx v then [] else x.rxfifo
    txfifo := if fcrClearTx v then [] else x.txfifo
    fcrMisc := some (fcrMiscBits v)
    rxTrig := some (fcrTrigger v) }

/-- A FIFO-control write (R173): a change of FIFO_EN without both clear bits is refused. -/
def uartFifoWrite (u : UartId) (v : Byte) (s : State) : Txn Unit :=
  if (s.uart u).fifoEn ≠ some (fcrEnable v) ∧ ¬ (fcrClearRx v = true ∧ fcrClearTx v = true) then
    .refuse s .fifoModeChangeWithoutClear
  else .done () (s.setUart u ((s.uart u).configureFifo v))

/-- The registers after a line-control write of `v` (R174). -/
def Uart.configureLine (x : Uart) (v : Byte) : Uart :=
  { x with lcr := some v, dlphase := if v.getLsbD 7 then false else x.dlphase }

/-- A line-control write (R174). -/
def uartLineWrite (u : UartId) (v : Byte) (s : State) : Txn Unit :=
  .done () (s.setUart u ((s.uart u).configureLine v))

/-- The registers after a modem-control write of `v` (R175). -/
def Uart.configureModem (x : Uart) (v : Byte) : Uart :=
  { x with mcr := some v, dtr := some (mcrDtr v), rts := some (mcrRts v) }

/-- A modem-control write (R175): loopback is refused. -/
def uartModemWrite (u : UartId) (v : Byte) (s : State) : Txn Unit :=
  if mcrLoopback v then .refuse s .loopbackNotModelled
  else .done () (s.setUart u ((s.uart u).configureModem v))

/-- A line-status read (R176): seven bits are drawn, and no state element of the block changes. -/
def uartStatusRead (u : UartId) (s : State) : Txn Byte :=
  .done ((s.uart u).lsr s.drawn) s.afterDraw

/-- `UartWrite(u, off, v)` (R170 to R177). -/
def uartWrite (u : UartId) (off : BitVec 3) (v : Byte) (s : State) : Txn Unit :=
  match off.toNat with
  | 0 => uartDataWrite u v s
  | 2 => uartFifoWrite u v s
  | 3 => uartLineWrite u v s
  | 4 => uartModemWrite u v s
  | _ => .refuse s .uartAccessNotModelled

/-- `UartRead(u, off)` (R172, R176, R177). -/
def uartRead (u : UartId) (off : BitVec 3) (s : State) : Txn Byte :=
  match off.toNat with
  | 0 => .refuse s .uartDataRead
  | 5 => uartStatusRead u s
  | _ => .refuse s .uartAccessNotModelled

/-- The registers after the transmitter's step: the oldest byte leaves TXFIFO and is recorded on LINE with the divisor and format in
force (R178). It is enabled only when TXFIFO is not empty; when it is empty the transmitter does nothing (log 16). -/
def Uart.transmit (x : Uart) : Uart :=
  match x.txfifo with
  | [] => x
  | b :: rest => { x with txfifo := rest, line := x.line ++ [{ byte := b, div := x.div, fmt := x.fmt }] }

/-- UART_TX_WRITE (R170). The dlab field of its word is LCR[7] itself and not on the bus (R92), so the write goes where DLAB sends
it: R170's own pseudocode goes to R171 when LCR[7] = 1 (log 9). -/
def execUartTxWrite (u : UartId) (v : Byte) (s : State) : Host.Outcome State Fault Refusal :=
  (uartDataWrite u v s).settle keep

/-- UART_DIV_WRITE (R171). See `execUartTxWrite` for the dlab field. -/
def execUartDivWrite (u : UartId) (v : Byte) (s : State) : Host.Outcome State Fault Refusal :=
  (uartDataWrite u v s).settle keep

/-- UART_FCR_WRITE (R173). -/
def execUartFcrWrite (u : UartId) (v : Byte) (s : State) : Host.Outcome State Fault Refusal :=
  (uartFifoWrite u v s).settle keep

/-- UART_LCR_WRITE (R174). -/
def execUartLcrWrite (u : UartId) (v : Byte) (s : State) : Host.Outcome State Fault Refusal :=
  (uartLineWrite u v s).settle keep

/-- UART_MCR_WRITE (R175). -/
def execUartMcrWrite (u : UartId) (v : Byte) (s : State) : Host.Outcome State Fault Refusal :=
  (uartModemWrite u v s).settle keep

/-- UART_LSR_READ (R176). -/
def execUartLsrRead (u : UartId) (s : State) : Host.Outcome State Fault Refusal :=
  (uartStatusRead u s).settle returnByte

/-- UART_TX_SEND (R178). -/
def execUartTxSend (u : UartId) (s : State) : Host.Outcome State Fault Refusal :=
  .next (s.setUart u (s.uart u).transmit)

end Sys2Proof.Machine
end

