-- ==== Sys2Proof/Machine/PortIo.lean ====
section
/-! DEFINITION. The port I/O primitive, format P, and its two commands (spec/40_port_io.md R120 to R124). -/

namespace Sys2Proof.Machine

/-- `PortWrite(port, value)` (R120): the write has the effect of the device that claims the port; an unclaimed port changes nothing
(R123). -/
def portWrite (port : Port) (v : Byte) (s : State) : Txn Unit :=
  match claim port with
  | .uart u off => uartWrite u off v s
  | .crtcCmd => crtcCmdWrite v s
  | .crtcData => crtcDataWrite v s
  | .unclaimed => .done () s

/-- `PortRead(port)` (R121): the byte of the device that claims the port; an unclaimed port returns `draw(8)` (R123). -/
def portRead (port : Port) (s : State) : Txn Byte :=
  match claim port with
  | .uart u off => uartRead u off s
  | .crtcCmd => .refuse s .crtcRead
  | .crtcData => .refuse s .crtcRead
  | .unclaimed => .done s.drawn s.afterDraw

/-- PORT_WRITE (R120). -/
def execPortWrite (port : Port) (v : Byte) (s : State) : Host.Outcome State Fault Refusal :=
  (portWrite port v s).settle keep

/-- PORT_READ (R121). -/
def execPortRead (port : Port) (s : State) : Host.Outcome State Fault Refusal :=
  (portRead port s).settle returnByte

/-- `write_port` as a command (R120, R124): one port write when the command is accepted (R35); otherwise it waits (log 8). -/
def execWritePort (port : Port) (v : Byte) (s : State) : Host.Outcome State Fault Refusal :=
  if s.accepts then (portWrite port v { s with result := none }).settle keep else .next s

/-- `read_port` as a command (R121, R124): one port read when the command is accepted (R35); otherwise it waits (log 8). -/
def execReadPort (port : Port) (s : State) : Host.Outcome State Fault Refusal :=
  if s.accepts then (portRead port { s with result := none }).settle returnByte else .next s

end Sys2Proof.Machine
end

