-- ==== Sys2Proof/Machine/Sequencer.lean ====
section
/-! DEFINITION. The sequencer (spec/10_state.md R35): the pseudocode of every command as a table of positions. One step issues exactly
one transaction or performs one internal register update and moves to the next point of the pseudocode; calls, returns and tests
take no step of their own (log 25). -/

namespace Sys2Proof.Machine

/-- What one step of the sequencer does. -/
inductive Micro where
  /-- `PortWrite(port, v)`. -/
  | write (port : Port) (v : Byte)
  /-- `PortRead(port)`. -/
  | read (port : Port)
  /-- `MemWrite(GRID_BASE + off, 1, v)`. -/
  | store (off : Nat) (v : Byte)
  /-- `MemRead(GRID_BASE + off, 1)`. -/
  | load (off : Nat)
  /-- `CURSOR <- c`. -/
  | setCursor (c : Half)
  /-- `raise r`. -/
  | raise (r : FaultRecord)
  /-- Nothing: a position at which a command has already ended, which no run reaches (log 17). -/
  | skip
  deriving DecidableEq, Repr

/-- Do it: the byte a read returned, if any. -/
def Micro.run : Micro → State → Txn (Option Byte)
  | .write port v, s => match portWrite port v s with | .done _ t => .done none t | .stopped o => .stopped o
  | .read port, s => match portRead port s with | .done b t => .done (some b) t | .stopped o => .stopped o
  | .store off v, s => match gridStore off v s with | .done _ t => .done none t | .stopped o => .stopped o
  | .load off, s => match gridRead off s with | .done b t => .done (some b) t | .stopped o => .stopped o
  | .setCursor c, s => .done none { s with cursor := some c }
  | .raise r, s => .raise s r
  | .skip, s => .done none s

/-- The first position of a scroll (R150): with HEIGHT = 1 the copy loop is empty. -/
def scrollStart : ScrollAt :=
  if 0 < Config.scrollBytes then .load 0 else .blank (Config.width * (Config.height - 1))

/-- The position after the store of the copy loop at `off` (R150). -/
def scrollNext (off : Nat) : ScrollAt :=
  if off + 1 < Config.scrollBytes then .load (off + 1) else .blank (Config.width * (Config.height - 1))

/-- The per-character work of `fb.write` after the scroll check, when it is a call: any byte but NEWLINE is written at CURSOR with
white on black (R149). A newline is no call (R148). -/
def writeBody (text : List Byte) (i : Nat) (c : Half) : Option (Frame × Frame) :=
  if text.getD i 0 = Config.newline then none
  else some (.fbWrite text (.advance i), .writeCell c (text.getD i 0) Config.white Config.black .char)

/-- The call at a position, if a call stands there: the caller's frame at the position it resumes from, and the callee's first
frame. -/
def Frame.callee (cursor : Option Half) : Frame → Option (Frame × Frame)
  | .fbWrite text (.head i) =>
    match cursor with
    | none => none
    | some c =>
      if i < text.length then
        if Config.cells ≤ c.toNat then some (.fbWrite text (.body i), .scroll scrollStart)
        else writeBody text i c
      else some (.fbWrite text .final, .moveCursor c .highCmd)
  | .fbWrite text (.body i) =>
    match cursor with
    | none => none
    | some c => writeBody text i c
  | .scroll (.blank k) =>
    if k < Config.cells then
      some (.scroll (.blank (k + 1)), .writeCell (BitVec.ofNat 16 k) Config.blankChar Config.white Config.black .char)
    else none
  | .clear (.blank k) =>
    if k < Config.cells then
      some (.clear (.blank (k + 1)), .writeCell (BitVec.ofNat 16 k) Config.blankChar Config.white Config.black .char)
    else none
  | .clear .move => some (.clear .final, .moveCursor 0 .highCmd)
  | .init port .baud => some (.init port .line, .configureBaud port Config.initDivisor .enable)
  | .init port .line => some (.init port .buffer, .configureLine port)
  | .init port .buffer => some (.init port .modem, .configureBuffer port)
  | .init port .modem => some (.init port .final, .configureModem port)
  | .serialWrite port text .spin => some (.serialWrite port text .spin, .isTxEmpty port)
  | .serialWrite port text .init => some (.serialWrite port text (.payload 0), .init port .baud)
  | .print channel text false =>
    some (.print channel text true,
      if channel = Config.consoleChannel then .fbWrite text (.head 0) else .serialWrite channel text .spin)
  | _ => none

/-- Enter the call at the top frame's position, if one stands there. -/
def enter (cursor : Option Half) : List Frame → List Frame
  | [] => []
  | f :: rest =>
    match f.callee cursor with
    | some (caller, callee) => callee :: caller :: rest
    | none => f :: rest

/-- Enter every call up to the next action: calls nest at most four deep (section 7), so three calls suffice. -/
def enterAll (cursor : Option Half) (fs : List Frame) : List Frame :=
  enter cursor (enter cursor (enter cursor fs))

/-- The action at a position where no call stands. -/
def Frame.micro (cursor : Option Half) : Frame → Micro
  | .writeCell index char _ _ .char =>
    if Config.cells ≤ index.toNat then .raise (.gridIndexOutOfRange index) else .store (charOffset index.toNat) char
  | .writeCell index _ fg bg .attr => .store (attrOffset index.toNat) (attrByte fg bg)
  | .moveCursor pos .highCmd =>
    if Config.cells < pos.toNat then .raise (.cursorOutOfRange pos) else .write Config.crtcCmdPort Config.cursorHighCmd
  | .moveCursor pos .highData => .write Config.crtcDataPort (hiByte pos)
  | .moveCursor _ .lowCmd => .write Config.crtcCmdPort Config.cursorLowCmd
  | .moveCursor pos .lowData => .write Config.crtcDataPort (loByte pos)
  | .moveCursor pos .record => .setCursor pos
  | .fbWrite _ (.head _) =>
    match cursor with
    | none => .raise (.unwrittenState .cursor)
    | some c => .setCursor (cursorNewline c)
  | .fbWrite _ (.body _) =>
    match cursor with
    | none => .raise (.unwrittenState .cursor)
    | some c => .setCursor (cursorNewline c)
  | .fbWrite _ (.advance _) =>
    match cursor with
    | none => .raise (.unwrittenState .cursor)
    | some c => .setCursor (cursorAdvance c)
  | .scroll (.load off) => .load (off + Config.cellBytes * Config.width)
  | .scroll (.store off b) => .store off b
  | .scroll (.blank _) =>
    match cursor with
    | none => .raise (.unwrittenState .cursor)
    | some c => .setCursor (cursorUp c)
  | .clear (.blank _) => .setCursor 0
  | .configureBaud port _ .enable => .write (registerPort port Config.offLine) Config.dlabEnableByte
  | .configureBaud port d .high => .write (registerPort port Config.offData) (hiByte d)
  | .configureBaud port d .low => .write (registerPort port Config.offData) (loByte d)
  | .configureLine port => .write (registerPort port Config.offLine) Config.line8N1
  | .configureBuffer port => .write (registerPort port Config.offFifo) Config.fifoCfg
  | .configureModem port => .write (registerPort port Config.offModem) Config.modemCfg
  | .isTxEmpty port => .read (registerPort port Config.offStatus)
  | .serialWrite port text (.payload i) => .write (registerPort port Config.offData) (text.getD i 0)
  | _ => .skip

/-- Where a position goes after its action. -/
inductive After where
  /-- The same command goes on. -/
  | cont (f : Frame)
  /-- The command ends, returning a bit or nothing. -/
  | ret (v : Option Bool)
  deriving DecidableEq, Repr

/-- The position after an action that returned `b`. -/
def Frame.after (b : Option Byte) : Frame → After
  | .writeCell index char fg bg .char => .cont (.writeCell index char fg bg .attr)
  | .moveCursor pos .highCmd => .cont (.moveCursor pos .highData)
  | .moveCursor pos .highData => .cont (.moveCursor pos .lowCmd)
  | .moveCursor pos .lowCmd => .cont (.moveCursor pos .lowData)
  | .moveCursor pos .lowData => .cont (.moveCursor pos .record)
  | .fbWrite text (.head i) => .cont (.fbWrite text (.advance i))
  | .fbWrite text (.body i) => .cont (.fbWrite text (.advance i))
  | .fbWrite text (.advance i) => .cont (.fbWrite text (.head (i + 1)))
  | .scroll (.load off) => .cont (.scroll (.store off (b.getD 0)))
  | .scroll (.store off _) => .cont (.scroll (scrollNext off))
  | .clear (.blank _) => .cont (.clear .move)
  | .configureBaud port d .enable => .cont (.configureBaud port d .high)
  | .configureBaud port d .high => .cont (.configureBaud port d .low)
  | .isTxEmpty _ => .ret (some (statusShowsEmpty (b.getD 0)))
  | .serialWrite port text (.payload i) =>
    if i + 1 < text.length then .cont (.serialWrite port text (.payload (i + 1))) else .ret none
  | _ => .ret none

/-- A caller receives what its callee returned: the spin ends when the bit is 1 (R206). -/
def Frame.resume (v : Option Bool) : Frame → Frame
  | .serialWrite port text .spin => .serialWrite port text (if v = some true then .init else .spin)
  | f => f

/-- A command that has nothing left to do once its callee has returned. -/
def Frame.finished : Frame → Bool
  | .fbWrite _ .final => true
  | .clear .final => true
  | .init _ .final => true
  | .serialWrite _ text (.payload i) => decide (text.length ≤ i)
  | .print _ _ true => true
  | _ => false

/-- Return `v` to the callers: the caller goes on from where it called, and one that has nothing left to do ends too, returning
nothing. At the end of the outermost command SEQ returns to idle (R35) and what it returned goes to the caller. -/
def State.returnFrom (s : State) : Option Bool → List Frame → State
  | v, [] => { s with seq := [], result := v.map .bit }
  | v, f :: rest => if (f.resume v).finished then s.returnFrom none rest else { s with seq := f.resume v :: rest }

/-- SEQ after the action of the top frame `f`, which returned `b`. -/
def State.moveOn (s : State) (f : Frame) (rest : List Frame) (b : Option Byte) : State :=
  match f.after b with
  | .cont g => { s with seq := g :: rest }
  | .ret v => s.returnFrom v rest

/-- One step of the sequencer while a command runs. -/
def sequencerStep (s : State) : Host.Outcome State Fault Refusal :=
  match enterAll s.cursor s.seq with
  | [] => .next s
  | f :: rest =>
    match (f.micro s.cursor).run s with
    | .done b t => .next (t.moveOn f rest b)
    | .stopped o => o

/-- The transaction of an action, as the instruction it is; `none` for an internal update. -/
def Micro.transaction : Micro → Option Instr
  | .write port v => some (.portWrite port v)
  | .read port => some (.portRead port)
  | .store off v =>
    some (if off % 2 = 0 then .gridCharStore (BitVec.ofNat 16 (off / 2)) v else .gridAttrStore (BitVec.ofNat 16 (off / 2)) v)
  | .load off => some (.gridLoad (BitVec.ofNat 17 off))
  | .setCursor _ => none
  | .raise _ => none
  | .skip => none

/-- The action the sequencer takes at its next step. -/
def State.nextMicro (s : State) : Micro :=
  match enterAll s.cursor s.seq with
  | [] => .skip
  | f :: _ => f.micro s.cursor

/-- The transaction the sequencer issues at its next step. -/
def State.issues (s : State) : Option Instr := s.nextMicro.transaction

end Sys2Proof.Machine
end

