-- ==== Sys2Proof/Machine/Console.lean ====
section
/-! DEFINITION. The console commands (spec/42_console_sequencer.md R145 to R151). A command's meaning starts the sequencer at the
first position of its pseudocode; the positions are in Machine/Sequencer.lean. -/

namespace Sys2Proof.Machine

/-- `fb.write_cell` (R145). -/
def execFbWriteCell (index : Half) (char : Byte) (fg bg : Nat) (s : State) : Host.Outcome State Fault Refusal :=
  s.issue (.writeCell index char fg bg .char)

/-- `fb.move_cursor` (R146). -/
def execFbMoveCursor (pos : Half) (s : State) : Host.Outcome State Fault Refusal :=
  s.issue (.moveCursor pos .highCmd)

/-- `fb.write` (R147). -/
def execFbWrite (text : List Byte) (s : State) : Host.Outcome State Fault Refusal :=
  s.issue (.fbWrite text (.head 0))

/-- `fb.clear` (R151). -/
def execFbClear (s : State) : Host.Outcome State Fault Refusal :=
  s.issue (.clear (.blank 0))

/-- `fb.scroll` (R150): called from the running command it enters the scroll; a caller cannot issue it, and one that does is refused
(R105, log 15). -/
def execFbScroll (s : State) : Host.Outcome State Fault Refusal :=
  if s.idle then .next (s.markRefused .scrollNotIssuable) else .next (s.call (.scroll scrollStart))

/-- Command code 0xF is unused; a caller that presents it is refused (R105). -/
def execReservedCmd (s : State) : Host.Outcome State Fault Refusal :=
  .next (s.markRefused .reservedCommand)

end Sys2Proof.Machine
end

