-- ==== Sys2Proof/Machine/Serial.lean ====
section
/-! DEFINITION. The serial commands and the dispatcher (spec/44_uart_sequencer.md R200 to R206, spec/45_dispatcher.md R220). A command's
meaning starts the sequencer at the first position of its pseudocode; the positions are in Machine/Sequencer.lean. -/

namespace Sys2Proof.Machine

/-- `serial.configure_baud_rate` (R200). -/
def execSerialConfigureBaudRate (port : Port) (divisor : Half) (s : State) : Host.Outcome State Fault Refusal :=
  s.issue (.configureBaud port divisor .enable)

/-- `serial.configure_line` (R201). -/
def execSerialConfigureLine (port : Port) (s : State) : Host.Outcome State Fault Refusal :=
  s.issue (.configureLine port)

/-- `serial.configure_buffer` (R202). -/
def execSerialConfigureBuffer (port : Port) (s : State) : Host.Outcome State Fault Refusal :=
  s.issue (.configureBuffer port)

/-- `serial.configure_modem` (R203). -/
def execSerialConfigureModem (port : Port) (s : State) : Host.Outcome State Fault Refusal :=
  s.issue (.configureModem port)

/-- `serial.is_transmit_fifo_empty` (R204). -/
def execSerialIsTransmitFifoEmpty (port : Port) (s : State) : Host.Outcome State Fault Refusal :=
  s.issue (.isTxEmpty port)

/-- `serial.init` (R205). -/
def execSerialInit (port : Port) (s : State) : Host.Outcome State Fault Refusal :=
  s.issue (.init port .baud)

/-- `serial.write` (R206). -/
def execSerialWrite (port : Port) (text : List Byte) (s : State) : Host.Outcome State Fault Refusal :=
  s.issue (.serialWrite port text .spin)

/-- `print` (R220). -/
def execPrint (channel : Port) (text : List Byte) (s : State) : Host.Outcome State Fault Refusal :=
  s.issue (.print channel text false)

end Sys2Proof.Machine
end

