-- ==== Sys2Proof/Machine/Dispatch.lean ====
section
/-! DEFINITION. The dispatch of an instruction to its meaning, one arm per constructor of Instr. -/

namespace Sys2Proof.Machine

def exec (i : Instr) (s : State) : Host.Outcome State Fault Refusal :=
  match i with
  | .portWrite port value => Sys2Proof.Machine.execPortWrite port value s
  | .portRead port => Sys2Proof.Machine.execPortRead port s
  | .uartTxWrite u v => Sys2Proof.Machine.execUartTxWrite u v s
  | .uartDivWrite u v => Sys2Proof.Machine.execUartDivWrite u v s
  | .uartFcrWrite u v => Sys2Proof.Machine.execUartFcrWrite u v s
  | .uartLcrWrite u v => Sys2Proof.Machine.execUartLcrWrite u v s
  | .uartMcrWrite u v => Sys2Proof.Machine.execUartMcrWrite u v s
  | .uartLsrRead u => Sys2Proof.Machine.execUartLsrRead u s
  | .uartTxSend u => Sys2Proof.Machine.execUartTxSend u s
  | .crtcIndexWrite v => Sys2Proof.Machine.execCrtcIndexWrite v s
  | .crtcCursorHighWrite v => Sys2Proof.Machine.execCrtcCursorHighWrite v s
  | .crtcCursorLowWrite v => Sys2Proof.Machine.execCrtcCursorLowWrite v s
  | .gridCharStore k v => Sys2Proof.Machine.execGridCharStore k v s
  | .gridAttrStore k v => Sys2Proof.Machine.execGridAttrStore k v s
  | .gridLoad off => Sys2Proof.Machine.execGridLoad off s
  | .writePort port value => Sys2Proof.Machine.execWritePort port value s
  | .readPort port => Sys2Proof.Machine.execReadPort port s
  | .fbWriteCell index char fg bg => Sys2Proof.Machine.execFbWriteCell index char fg bg s
  | .fbMoveCursor pos => Sys2Proof.Machine.execFbMoveCursor pos s
  | .fbWrite text => Sys2Proof.Machine.execFbWrite text s
  | .fbClear => Sys2Proof.Machine.execFbClear s
  | .serialConfigureBaudRate port divisor => Sys2Proof.Machine.execSerialConfigureBaudRate port divisor s
  | .serialConfigureLine port => Sys2Proof.Machine.execSerialConfigureLine port s
  | .serialConfigureBuffer port => Sys2Proof.Machine.execSerialConfigureBuffer port s
  | .serialConfigureModem port => Sys2Proof.Machine.execSerialConfigureModem port s
  | .serialIsTransmitFifoEmpty port => Sys2Proof.Machine.execSerialIsTransmitFifoEmpty port s
  | .serialInit port => Sys2Proof.Machine.execSerialInit port s
  | .serialWrite port text => Sys2Proof.Machine.execSerialWrite port text s
  | .print channel text => Sys2Proof.Machine.execPrint channel text s
  | .fbScroll => Sys2Proof.Machine.execFbScroll s
  | .reservedCmd => Sys2Proof.Machine.execReservedCmd s

end Sys2Proof.Machine
end

