-- ==== Sys2Proof/Machine/Agents.lean ====
section
/-! DEFINITION. The step of each agent (spec/00_scope.md R5): the caller's, the sequencer's and a transmitter's, and the choice among
them (spec/20_memory.md R73). -/

namespace Sys2Proof.Machine

/-- The sequencer accepts the first request and runs it. A word of reserved space is refused by the reason its rule gives (R105), and
an M word outside the window is no access of this hardware (log 12). -/
def acceptRequest (r : Request) (s : State) : Host.Outcome State Fault Refusal :=
  match decode r with
  | .ok i => exec i s
  | .error (.reserved reason) => .next (s.markRefused reason)
  | .error (.outsideWindow off) => .fault (.outsideGridWindow off)

/-- The caller's step: while a fault is recorded, or when nothing is issued, nothing happens (R35, R240). -/
def callerStep (s : State) : Host.Outcome State Fault Refusal :=
  match s.fault, s.inbox with
  | [], r :: rest => acceptRequest r { s with inbox := rest }
  | _, _ => .next s

/-- The driver side: the sequencer while a command runs, the caller while it is idle. -/
def driverStep (s : State) : Host.Outcome State Fault Refusal :=
  if s.idle then callerStep s else sequencerStep s

/-- One step of the block: the agent the schedule names, or the driver side when the schedule is at its end (log 2). -/
def agentStep (s : State) : Host.Outcome State Fault Refusal :=
  match s.sched with
  | [] => driverStep s
  | .sequencer :: rest => driverStep { s with sched := rest }
  | .transmitter u :: rest => exec (.uartTxSend u) { s with sched := rest }

/-- Nothing may be said of what follows the mark REFUSED (R237): such a state has no step. -/
def markedStep (s : State) : Host.Outcome State Fault Refusal :=
  match s.refused with
  | some reason => .refused (.markedRefused reason)
  | none => agentStep s

end Sys2Proof.Machine
end

