-- ==== Sys2Proof/Machine/Step.lean ====
section
/-! DEFINITION. One step of the machine, and the state in which a word of the opcode table is what the next step runs. -/

namespace Sys2Proof.Machine

/-- One step. -/
def step (s : State) : Host.Outcome State Fault Refusal := markedStep s

/-- `s` with the word `w` of `nbits` bits issued as the caller's first request, and the driver side about to accept it (log 3). A
number that is no word of any format places nothing. -/
def State.withFetchWord (s : State) (nbits w : Nat) : State :=
  match requestOfTableWord nbits w with
  | some r => s.placeRequest r
  | none => s

end Sys2Proof.Machine
end

