-- ==== Sys2Proof/Machine/Observe.lean ====
section
/-! DEFINITION. What an observer of the block sees: the screen and the displayed cursor (spec/41_console_registers.md R138), the baud
rate (spec/43_uart_registers.md R179), the frame on the wire (R180) and the U word a port transaction becomes at a UART
(spec/30_encoding.md R92). None is a step. -/

namespace Sys2Proof.Machine

/-- GRID[off]: the byte at an offset of the window (R30). -/
def State.gridByte (s : State) (off : Nat) : Option Byte := Memory.read s.grid (gridAddr off)

/-- Cell `k`: its character and its attribute (R30, R64). -/
def State.cell (s : State) (k : Nat) : Option Byte × Option Byte := (s.gridByte (charOffset k), s.gridByte (attrOffset k))

/-- The screen content at row `r`, column `c` (R138). -/
def State.screen (s : State) (r c : Nat) : Option Byte × Option Byte := s.cell (r * Config.width + c)

/-- Where the display shows the cursor: its row and column when HWCURSOR is on a cell (R138). -/
def State.shownCursor (s : State) : Option (Nat × Nat) :=
  match s.hwCursor with
  | some h => if h.toNat < Config.cells then some (h.toNat / Config.width, h.toNat % Config.width) else none
  | none => none

/-- The bit rate of a divisor, in bits per second: BAUD_BASE / DIV as a numerator and a denominator; DIV = 0 has no rate (R179).
Timing only: nothing in the model reads it. -/
def baudRate (div : Half) : Option (Nat × Nat) := if div = 0 then none else some (Config.baudBase, div.toNat)

/-! ### The wire (R180), by the fields of the frame format (R23) -/

/-- The marking level, 1: the level of an idle line and of a stop bit (R180). -/
def marking : Bool := true

/-- The spacing level, 0: the level of a start bit and of a line under break control (R180, R23). -/
def spacing : Bool := false

/-- A stretch of the wire: its level, and how long it lasts in half bit times, since a stop may last one and a half (R23). -/
structure WireStretch where
  level : Bool
  halfBits : Nat
  deriving DecidableEq, Repr

/-- One bit time at a level. -/
def oneBit (level : Bool) : WireStretch := { level, halfBits := 2 }

/-- The data bits of a frame, least significant first, as many as the format's word length (R180, R23). -/
def frameData (fmt : BitVec 7) (b : Byte) : List Bool := (List.range (dataBits fmt)).map fun i => b.getLsbD i

/-- Whether a list of bits has an odd number of ones. -/
def oddOnes (bits : List Bool) : Bool := bits.foldr Bool.xor false

/-- The parity bit: even or odd over the data bits by FMT[4], and a free value under stick parity (R23, log 27). -/
def parityBit (fmt : BitVec 7) (b : Byte) : Bool :=
  if stickParity fmt then Config.stickParityBit fmt b else oddOnes (frameData fmt b) == evenParity fmt

/-- The optional parity bit: present when FMT[3] is set (R180, R23). -/
def frameParity (fmt : BitVec 7) (b : Byte) : List Bool := if parityEnable fmt then [parityBit fmt b] else []

/-- The length of the stop in half bit times: one stop bit, or by FMT[2] two, or one and a half with 5-bit words (R23). -/
def stopHalfBits (fmt : BitVec 7) : Nat := if longStop fmt then (if dataBits fmt = 5 then 3 else 4) else 2

/-- The frame of a byte with the line free of break: start, data, parity, stop (R180). -/
def plainFrame (fmt : BitVec 7) (b : Byte) : List WireStretch :=
  oneBit spacing :: (frameData fmt b ++ frameParity fmt b).map oneBit ++ [{ level := marking, halfBits := stopHalfBits fmt }]

/-- What break control leaves of a level: the spacing level when FMT[6] is set, the level itself otherwise (R23, log 27). -/
def underBreak (fmt : BitVec 7) (level : Bool) : Bool := if breakControl fmt then spacing else level

/-- The frame on the wire of a byte sent under a format: the plain frame, with the line forced to spacing under break control (R180,
R23). -/
def wireFrame (fmt : BitVec 7) (b : Byte) : List WireStretch :=
  (plainFrame fmt b).map fun x => { x with level := underBreak fmt x.level }

/-- The frame of a LINE record; a byte sent before the format was written has no stated frame (R29, R180). -/
def LineRecord.wireFrame (r : LineRecord) : Option (List WireStretch) := r.fmt.map fun fmt => Machine.wireFrame fmt r.byte

/-- The frames a UART has put on its line, one per byte sent, in order (R29, R180). -/
def Uart.wireFrames (x : Uart) : List (Option (List WireStretch)) := x.line.map LineRecord.wireFrame

/-- The level of a UART's line between frames: marking, or spacing while the format in force has break control set (R180, R23). -/
def Uart.idleLevel (x : Uart) : Bool :=
  match x.fmt with
  | some fmt => underBreak fmt marking
  | none => marking

/-- The ten bit times of a byte at LINE_8N1: start, d0 to d7, stop; true is the marking level (R180). It is `wireFrame` at that
format (`wireFrame_8N1`). -/
def wireFrame8N1 (b : Byte) : List Bool :=
  [false, b.getLsbD 0, b.getLsbD 1, b.getLsbD 2, b.getLsbD 3, b.getLsbD 4, b.getLsbD 5, b.getLsbD 6, b.getLsbD 7, true]

/-- The U word of a port transaction at UART[u]: direction, current DLAB, offset and data (R92). With LCR `none` a word at offset 0
has no dlab value; at the other offsets the field is ignored and written 0. -/
def State.uWord (s : State) (u : UartId) (write : Bool) (off : BitVec 3) (data : Byte) : Option (BitVec 13) :=
  match (s.uart u).dlab with
  | some d => some (BitVec.ofBool write ++ BitVec.ofBool d ++ off ++ data)
  | none => if off = 0 then none else some (BitVec.ofBool write ++ 0#1 ++ off ++ data)

/-- The C word of a write to a cursor port: direction, port select, current CRTC_INDEX and data (R93). With CRTC_INDEX `none` a
data-port write has no idx value; at the command port the field is ignored and written 0. -/
def State.cWord (s : State) (dataPort : Bool) (v : Byte) : Option (BitVec 18) :=
  match dataPort, s.crtcIndex with
  | true, some idx => some (1#1 ++ 1#1 ++ idx ++ v)
  | true, none => none
  | false, _ => some (1#1 ++ 0#1 ++ 0#8 ++ v)

end Sys2Proof.Machine
end

