-- ==== Sys2Proof/Safety.lean ====
section
/-! DEFINITION. Runs, the block's invariants (spec/10_state.md R44, spec/42_console_sequencer.md R152) and what counts as a safe state, in
the terms the claims use. -/

namespace Sys2Proof.Machine

/-- `n` steps, ending at the first fault or refusal. -/
def steps : Nat → State → Host.Outcome State Fault Refusal
  | 0, s => .next s
  | n + 1, s =>
    match step s with
    | .next t => steps n t
    | .fault r => .fault r
    | .refused r => .refused r

/-- An instruction, and then `n` steps from the state it leaves. -/
def execThenSteps (i : Instr) (n : Nat) (s : State) : Host.Outcome State Fault Refusal :=
  match exec i s with
  | .next t => steps n t
  | .fault r => .fault r
  | .refused r => .refused r

/-- The instructions of a list, one after another. -/
def execList : List Instr → State → Host.Outcome State Fault Refusal
  | [], s => .next s
  | i :: rest, s =>
    match exec i s with
    | .next t => execList rest t
    | .fault r => .fault r
    | .refused r => .refused r

/-- The transaction of the next step: none when the schedule names a transmitter. -/
def State.stepIssues (s : State) : List Instr :=
  match s.sched with
  | .transmitter _ :: _ => []
  | _ => s.issues.toList

/-- The instruction the next step runs: a scheduled transmitter's step, the transaction of a running command, or the request an idle
unfaulted block accepts. None for an internal update, a reserved word or an empty input. -/
def State.stepRuns (s : State) : Option Instr :=
  match s.sched with
  | .transmitter u :: _ => some (.uartTxSend u)
  | _ =>
    if s.idle then
      match s.fault, s.inbox with
      | [], r :: _ => (decode r).toOption
      | _, _ => none
    else s.issues

/-- The byte an instruction writes to the cursor data port: a port transaction there, or one of its device words (R134, R135; log 9). -/
def cursorDataByte : Instr → Option Byte
  | .portWrite port v => if port = Config.crtcDataPort then some v else none
  | .writePort port v => if port = Config.crtcDataPort then some v else none
  | .crtcCursorHighWrite v => some v
  | .crtcCursorLowWrite v => some v
  | _ => none

/-- The transactions the sequencer issues in the next `n` steps, oldest first. -/
def issued : Nat → State → List Instr
  | 0, _ => []
  | n + 1, s =>
    match step s with
    | .next t => s.stepIssues ++ issued n t
    | .fault _ => s.stepIssues
    | .refused _ => s.stepIssues

/-- The transactions issued in the `n` steps after the instruction `i`. -/
def issuedAfter (i : Instr) (n : Nat) (s : State) : List Instr :=
  match exec i s with
  | .next t => issued n t
  | .fault _ => []
  | .refused _ => []

/-- The bytes the data-port writes of a list carry, in order. -/
def payloads : List Instr → List Byte
  | [] => []
  | .uartTxWrite _ v :: rest => v :: payloads rest
  | _ :: rest => payloads rest

/-- The commands a caller can issue (R104 without the internal and the reserved code). -/
def isCommand : Instr → Bool
  | .writePort _ _ => true
  | .readPort _ => true
  | .fbWriteCell _ _ _ _ => true
  | .fbMoveCursor _ => true
  | .fbWrite _ => true
  | .fbClear => true
  | .serialConfigureBaudRate _ _ => true
  | .serialConfigureLine _ => true
  | .serialConfigureBuffer _ => true
  | .serialConfigureModem _ => true
  | .serialIsTransmitFifoEmpty _ => true
  | .serialInit _ => true
  | .serialWrite _ _ => true
  | .print _ _ => true
  | _ => false

/-- A bound on the steps of a console command, by its text (R152): the scroll takes 7841 steps and a character three more. -/
def consoleBound : Instr → Nat
  | .fbWriteCell _ _ _ _ => 2
  | .fbMoveCursor _ => 5
  | .fbClear => 4006
  | .fbWrite text => 7844 * text.length + 5
  | _ => 0

/-! ### What the commands issue and leave (R145, R146, R205) -/

/-- The two stores of `fb.write_cell` (R145). -/
def cellStores (index : Half) (char attr : Byte) : List Instr := [.gridCharStore index char, .gridAttrStore index attr]

/-- The four port writes of `fb.move_cursor` (R146). -/
def cursorWrites (pos : Half) : List Instr :=
  [.portWrite Config.crtcCmdPort Config.cursorHighCmd, .portWrite Config.crtcDataPort (hiByte pos),
    .portWrite Config.crtcCmdPort Config.cursorLowCmd, .portWrite Config.crtcDataPort (loByte pos)]

/-- The state `fb.move_cursor pos` leaves when it returns to the caller (R146). -/
def State.cursorMoved (s : State) (pos : Half) : State :=
  { s with
    crtcIndex := some Config.cursorLowCmd
    curHi := some (hiByte pos)
    curLo := some (loByte pos)
    hwCursor := some pos
    cursor := some pos }

/-- The three port writes of `serial.configure_baud_rate` (R200). -/
def baudWrites (port : Port) (divisor : Half) : List Instr :=
  [.portWrite (registerPort port Config.offLine) Config.dlabEnableByte,
    .portWrite (registerPort port Config.offData) (hiByte divisor), .portWrite (registerPort port Config.offData) (loByte divisor)]

/-- The six port writes of `serial.init` (R205). -/
def initWrites (port : Port) : List Instr :=
  baudWrites port Config.initDivisor ++
    [.portWrite (registerPort port Config.offLine) Config.line8N1, .portWrite (registerPort port Config.offFifo) Config.fifoCfg,
      .portWrite (registerPort port Config.offModem) Config.modemCfg]

/-- A UART as `serial.init` leaves it, from any prior state (R205). -/
def Uart.initialised (x : Uart) : Uart where
  dlh := some (hiByte Config.initDivisor)
  dll := some (loByte Config.initDivisor)
  dlphase := false
  lcr := some 0x03
  fifoEn := some true
  rxTrig := some 0b11
  fcrMisc := some 0
  mcr := some 0x03
  dtr := some true
  rts := some true
  txfifo := []
  rxfifo := []
  line := x.line

/-- The LINE record of a byte sent as `serial.init` configures the port (R206). -/
def initialisedRecord (b : Byte) : LineRecord := { byte := b, div := some Config.initDivisor, fmt := some 0x03 }

/-- The schedule with a transmitter step of UART[u] after each of `n` data writes of `serial.write`, whose seven steps before them
are the driver side's (R181 (4)). -/
def promptSchedule (u : UartId) (n : Nat) : List Agent :=
  List.replicate 7 .sequencer ++ (List.replicate n [.sequencer, .transmitter u]).flatten

/-- The two ports are of one device (R122): the same UART, or both of the cursor hardware. -/
def sameDevice (p q : Port) : Bool :=
  match claim p, claim q with
  | .uart u _, .uart v _ => decide (u = v)
  | .crtcCmd, .crtcCmd => true
  | .crtcCmd, .crtcData => true
  | .crtcData, .crtcCmd => true
  | .crtcData, .crtcData => true
  | _, _ => false

/-- A step of the FIFO logic of UART[u]: a data-port write, a status read or the transmitter's step. -/
def fifoEvent (u : UartId) : Instr → Bool
  | .uartTxWrite w _ => decide (w = u)
  | .uartLsrRead w => decide (w = u)
  | .uartTxSend w => decide (w = u)
  | _ => false

/-! ### The invariants -/

/-- What every UART keeps: TXFIFO within its capacity (R26, R44), written only after LCR and FIFO_EN (R170), RXFIFO empty (R27, R182),
the pins as MCR's bits say and no loopback (R25, R175), the fields of the FIFO-control byte written together (R173). -/
structure Uart.Inv (x : Uart) : Prop where
  fifo_fits : x.txfifo.length ≤ x.txcap.getD 0
  fifo_lcr : x.txfifo ≠ [] → x.lcr.isSome = true
  rx_empty : x.rxfifo = []
  dtr_bit : x.dtr = x.mcr.map mcrDtr
  rts_bit : x.rts = x.mcr.map mcrRts
  no_loopback : x.mcr.map mcrLoopback ≠ some true
  trig_written : x.rxTrig.isSome = x.fifoEn.isSome
  misc_written : x.fcrMisc.isSome = x.fifoEn.isSome

/-- CURSOR lies below WIDTH x HEIGHT: a cell can be written there (R34, R44). -/
def cursorOnCell (cursor : Option Half) : Bool :=
  match cursor with
  | some c => decide (c.toNat < Config.cells)
  | none => false

/-- CURSOR is `none` or at most WIDTH x HEIGHT (R34, R44). -/
def cursorInRange (cursor : Option Half) : Bool :=
  match cursor with
  | some c => decide (c.toNat ≤ Config.cells)
  | none => true

/-- What a position promises about its operands and CURSOR; `top` says it is the running command, `called` that another command
called it. -/
def Frame.ok (cursor : Option Half) (top called : Bool) : Frame → Bool
  | .writeCell index _ _ _ .char => !called || decide (index.toNat < Config.cells)
  | .writeCell index _ _ _ .attr => decide (index.toNat < Config.cells)
  | .moveCursor pos .highCmd => !called || decide (pos.toNat ≤ Config.cells)
  | .moveCursor pos _ => decide (pos.toNat ≤ Config.cells)
  | .fbWrite text (.head i) => decide (i ≤ text.length)
  | .fbWrite text (.body i) => decide (i < text.length) && (!top || cursorOnCell cursor)
  | .fbWrite text (.advance i) => decide (i < text.length) && cursorOnCell cursor
  | .scroll (.load off) => decide (off < Config.scrollBytes)
  | .scroll (.store off _) => decide (off < Config.scrollBytes)
  | .scroll (.blank k) => decide (k ≤ Config.cells)
  | .clear (.blank k) => decide (k ≤ Config.cells)
  | _ => true

/-- A caller's position at which the callee can have been called (the `call`s of the pseudocode, section 7). -/
def calls : Frame → Frame → Bool
  | .print _ _ true, .fbWrite _ _ => true
  | .print _ _ true, .serialWrite _ _ _ => true
  | .fbWrite _ (.body _), .scroll _ => true
  | .fbWrite _ (.advance _), .writeCell _ _ _ _ _ => true
  | .fbWrite _ .final, .moveCursor _ _ => true
  | .scroll (.blank _), .writeCell _ _ _ _ _ => true
  | .clear (.blank _), .writeCell _ _ _ _ _ => true
  | .clear .final, .moveCursor _ _ => true
  | .serialWrite _ _ .spin, .isTxEmpty _ => true
  | .serialWrite _ _ (.payload 0), .init _ _ => true
  | .init _ .line, .configureBaud _ _ _ => true
  | .init _ .buffer, .configureLine _ => true
  | .init _ .modem, .configureBuffer _ => true
  | .init _ .final, .configureModem _ => true
  | _, _ => false

/-- Each command on the stack was called from the position of the one below it. -/
def chained : List Frame → Bool
  | [] => true
  | [_] => true
  | f :: g :: rest => calls g f && chained (g :: rest)

/-- Every position below the top keeps its promise. -/
def callersOk (cursor : Option Half) : List Frame → Bool
  | [] => true
  | f :: rest => f.ok cursor false (!rest.isEmpty) && callersOk cursor rest

/-- SEQ is a stack of positions that keep their promises. -/
def seqOk (cursor : Option Half) : List Frame → Bool
  | [] => true
  | f :: rest => f.ok cursor true (!rest.isEmpty) && callersOk cursor rest && chained (f :: rest)

/-- HWCURSOR, when not `none`, has CUR_LO as its low byte, and CUR_HI has been written (R33, R44: it was committed by the last
low-byte write). -/
def hwCursorOk (hwCursor : Option Half) (curHi curLo : Option Byte) : Bool :=
  match hwCursor with
  | some h => curHi.isSome && decide (curLo = some (loByte h))
  | none => true

/-- The invariant of the block, kept by every step (R44 and the promises above). -/
structure State.Inv (s : State) : Prop where
  uart0 : s.uart0.Inv
  uart1 : s.uart1.Inv
  grid_wf : Memory.wf s.grid = true
  grid_window : Memory.inWindow s.grid = true
  cursor_range : cursorInRange s.cursor = true
  hw_cursor : hwCursorOk s.hwCursor s.curHi s.curLo = true
  one_fault : s.fault.length ≤ 1
  fault_idle : s.fault ≠ [] → s.seq = []
  seq_ok : seqOk s.cursor s.seq = true

/-- A safe state: no fault recorded, not marked. -/
def State.Safe (s : State) : Prop := s.fault = [] ∧ s.refused = none

/-- The driver side is about to take the next step, and nothing stops it. -/
def State.DriverReady (s : State) : Prop := s.refused = none ∧ s.sched = []

/-- A command issued now is accepted, and only the driver side steps (R35). -/
def State.Ready (s : State) : Prop := s.seq = [] ∧ s.fault = [] ∧ s.refused = none ∧ s.sched = []

end Sys2Proof.Machine
end

