-- ==== Sys2Proof/Certificates/Slice0/Obligations.lean ====
section
/-! DEFINITION. The statements for the provers, from the numbered rules of spec/. "Decision D<n>" is spec/92_eei_decisions.md, the
spec's own choice; "log <n>" is notes/assumptions/<n>.md, the model's. -/

open Sys2Proof Sys2Proof.Machine

/-! ### Reset, invariants, configuration -/

/-- After reset every register is as R40's table says; the table is the spec's decision D30. -/
def Obligations.ResetHoldsTheTableValues : Prop :=
  (∀ u, (State.reset.uart u).dlh = none ∧ (State.reset.uart u).dll = none ∧ (State.reset.uart u).dlphase = false ∧
    (State.reset.uart u).lcr = none ∧ (State.reset.uart u).fifoEn = none ∧ (State.reset.uart u).rxTrig = none ∧
    (State.reset.uart u).fcrMisc = none ∧ (State.reset.uart u).mcr = none ∧ (State.reset.uart u).dtr = none ∧
    (State.reset.uart u).rts = none ∧ (State.reset.uart u).txfifo = [] ∧ (State.reset.uart u).rxfifo = [] ∧
    (State.reset.uart u).line = []) ∧
  (∀ off, State.reset.gridByte off = none) ∧ State.reset.crtcIndex = none ∧ State.reset.curHi = none ∧
  State.reset.curLo = none ∧ State.reset.hwCursor = none ∧ State.reset.cursor = none ∧ State.reset.seq = [] ∧
  State.reset.fault = [] ∧ State.reset.refused = none

/-- The reset state meets the invariant of R44 and of the sequencer's stack. -/
def Obligations.ResetMeetsTheInvariant : Prop := State.reset.Inv

/-- Every step keeps the invariant (R44, derived there): TXFIFO within its capacity, memory canonical and inside the grid window,
CURSOR at most WIDTH x HEIGHT, HWCURSOR as committed, at most one fault, a legal call stack. -/
def Obligations.EveryStepKeepsTheInvariant : Prop := ∀ s t : State, s.Inv → step s = .next t → t.Inv

/-- The configuration meets the constraints of R8 (decision D5), whatever the two open parameters are. -/
def Obligations.ConfigurationMeetsItsConstraints : Prop := Config.params.Valid

/-! ### Encoding -/

/-- Decoding the canonical word of a well-formed instruction gives it back, and every instruction but the transmitter's step has a
word. -/
def Obligations.DecodeOfEncodeIsTheInstruction : Prop :=
  ∀ i : Instr, i.wellFormed = true →
    (∀ r, encode i = some r → decode r = .ok i) ∧ ((∀ u, i ≠ .uartTxSend u) → (encode i).isSome = true)

/-- Words printed in the spec's examples decode to the instructions they stand for (R91, R101 to R103, R108). -/
def Obligations.SpecWordsDecodeToTheirInstructions : Prop :=
  decode (.p 0x103FB80) = .ok (.portWrite 0x3FB 0x80) ∧ decode (.p 0x003FD00) = .ok (.portRead 0x3FD) ∧
  decode (.u .com1 0x1075) = .ok (.uartTxWrite .com1 0x75) ∧ decode (.u .com1 0x1801) = .ok (.uartDivWrite .com1 0x01) ∧
  decode (.u .com1 0x12C7) = .ok (.uartFcrWrite .com1 0xC7) ∧ decode (.u .com1 0x1B03) = .ok (.uartLcrWrite .com1 0x03) ∧
  decode (.u .com1 0x1403) = .ok (.uartMcrWrite .com1 0x03) ∧ decode (.u .com1 0x0500) = .ok (.uartLsrRead .com1) ∧
  decode (.c 0x2000E) = .ok (.crtcIndexWrite 0x0E) ∧ decode (.c 0x30E00) = .ok (.crtcCursorHighWrite 0x00) ∧
  decode (.c 0x30FAF) = .ok (.crtcCursorLowWrite 0xAF) ∧ decode (.m 0x2000048) = .ok (.gridCharStore 0 0x48) ∧
  decode (.m 0x20F9F0F) = .ok (.gridAttrStore 1999 0x0F) ∧ decode (.m 0x0000100) = .ok (.gridLoad 1)

/-- Every format U word by its fields dir, dlab, off and data: the rows of R101, and the refusals of R105 (decision D17). R105 sends
all of them to R177; that a read at off 0 has R172's reason UartDataRead (R237) is the model's reading, log 13. -/
def Obligations.UartWordsDecodeByTheirFields : Prop :=
  ∀ (u : UartId) (dlab : BitVec 1) (off : BitVec 3) (v : Byte),
    decode (.u u (1#1 ++ dlab ++ off ++ v)) =
      (if off = 0 then .ok (if dlab = 0 then .uartTxWrite u v else .uartDivWrite u v)
       else if off = 2 then .ok (.uartFcrWrite u v)
       else if off = 3 then .ok (.uartLcrWrite u v)
       else if off = 4 then .ok (.uartMcrWrite u v)
       else .error (.reserved .uartAccessNotModelled)) ∧
    decode (.u u (0#1 ++ dlab ++ off ++ v)) =
      (if off = 5 then .ok (.uartLsrRead u)
       else if off = 0 then .error (.reserved .uartDataRead)
       else .error (.reserved .uartAccessNotModelled))

/-- Every format C word by its fields dir, sel, idx and data: the three rows of R102, and the refusals of R105 (decision D17). -/
def Obligations.CursorWordsDecodeByTheirFields : Prop :=
  ∀ (sel : BitVec 1) (idx v : Byte),
    decode (.c (1#1 ++ sel ++ idx ++ v)) =
      (if sel = 0 then .ok (.crtcIndexWrite v)
       else if idx = 0x0E then .ok (.crtcCursorHighWrite v)
       else if idx = 0x0F then .ok (.crtcCursorLowWrite v)
       else .error (.reserved .crtcIndexNotModelled)) ∧
    decode (.c (0#1 ++ sel ++ idx ++ v)) = .error (.reserved .crtcRead)

/-- Every format M word by its fields dir, off and data (R94, R103): an offset outside the window is no access. -/
def Obligations.GridWordsDecodeByTheirFields : Prop :=
  ∀ (off : BitVec 17) (v : Byte),
    (4000 ≤ off.toNat → ∀ dir : BitVec 1, decode (.m (dir ++ off ++ v)) = .error (.outsideWindow off.toNat)) ∧
    (off.toNat < 4000 →
      decode (.m (1#1 ++ off ++ v)) =
        .ok (if off.toNat % 2 = 0 then .gridCharStore (BitVec.ofNat 16 (off.toNat / 2)) v
             else .gridAttrStore (BitVec.ofNat 16 (off.toNat / 2)) v) ∧
      decode (.m (0#1 ++ off ++ v)) = .ok (.gridLoad off))

/-- Every format P word by its fields (R91), and every command code with its operands (R104). -/
def Obligations.PortWordsAndCommandCodesDecode : Prop :=
  (∀ (port : Port) (v : Byte), decode (.p (1#1 ++ port ++ v)) = .ok (.portWrite port v) ∧
    decode (.p (0#1 ++ port ++ v)) = .ok (.portRead port)) ∧
  ∀ o : CmdOperands,
    decode (.cmd 0x0 o) = .ok (.writePort o.port o.value) ∧ decode (.cmd 0x1 o) = .ok (.readPort o.port) ∧
    decode (.cmd 0x2 o) = .ok (.fbWriteCell o.index o.value o.fg o.bg) ∧ decode (.cmd 0x3 o) = .ok (.fbMoveCursor o.index) ∧
    decode (.cmd 0x4 o) = .ok (.fbWrite o.text) ∧ decode (.cmd 0x5 o) = .ok .fbClear ∧
    decode (.cmd 0x6 o) = .ok (.serialConfigureBaudRate o.port o.divisor) ∧
    decode (.cmd 0x7 o) = .ok (.serialConfigureLine o.port) ∧ decode (.cmd 0x8 o) = .ok (.serialConfigureBuffer o.port) ∧
    decode (.cmd 0x9 o) = .ok (.serialConfigureModem o.port) ∧
    decode (.cmd 0xA o) = .ok (.serialIsTransmitFifoEmpty o.port) ∧ decode (.cmd 0xB o) = .ok (.serialInit o.port) ∧
    decode (.cmd 0xC o) = .ok (.serialWrite o.port o.text) ∧ decode (.cmd 0xD o) = .ok (.print o.port o.text) ∧
    decode (.cmd 0xE o) = .ok .fbScroll ∧ decode (.cmd 0xF o) = .ok .reservedCmd

/-! ### The step -/

/-- One step: an idle unfaulted block runs the instruction its first request decodes to, refuses a reserved word and stops on a grid
word outside the window (log 12); a running command takes its next sequencer step; a scheduled transmitter takes its own; a word of
the opcode table placed by `withFetchWord` runs at the very next step (log 3). The model's choices here: the requests are a list (log
3), a P, U, C or M word among them is presented directly to its device (log 26), and whose step it is stands in the schedule list
(log 2). -/
def Obligations.StepRunsTheDecodedInstruction : Prop :=
  ∀ s : State, s.refused = none →
    (∀ (r : Request) (rest : List Request) (tail : List Agent), (s.sched = [] ∧ tail = [] ∨ s.sched = .sequencer :: tail) →
      s.seq = [] → s.fault = [] → s.inbox = r :: rest →
      (∀ i, decode r = .ok i → step s = exec i { s with inbox := rest, sched := tail }) ∧
      (∀ e, decode r = .error (.reserved e) →
        step s = .next { s with inbox := rest, sched := tail, refused := some e }) ∧
      (∀ off, decode r = .error (.outsideWindow off) → step s = .fault (.outsideGridWindow off))) ∧
    (∀ tail : List Agent, (s.sched = [] ∧ tail = [] ∨ s.sched = .sequencer :: tail) → s.seq ≠ [] →
      step s = sequencerStep { s with sched := tail }) ∧
    (∀ (u : UartId) (tail : List Agent), s.sched = .transmitter u :: tail →
      step s = exec (.uartTxSend u) { s with sched := tail }) ∧
    (∀ (nbits w : Nat) (i : Instr), decodeTableWord nbits w = some i →
      step (s.withFetchWord nbits w) = exec i { s with seq := [], fault := [], sched := [] })

/-- One step of a running command is one transaction, with exactly the effect of that instruction, or one internal update of the
sequencer's own registers (R35, decision D35; the counter and the result are the model's, log 4 and 6). -/
def Obligations.EachSequencerStepIsOneTransaction : Prop :=
  ∀ s : State, s.Inv → s.DriverReady → s.seq ≠ [] →
    (∀ i, s.issues = some i → ∃ v t, exec i s = .next v ∧ step s = .next t ∧
      t = { v with seq := t.seq, result := t.result }) ∧
    (s.issues = none → ∃ t, step s = .next t ∧
      t = { s with cursor := t.cursor, seq := t.seq, fault := t.fault, result := t.result })

/-! ### The port primitive -/

/-- A port address is decoded to at most one device, and to which (R122; the block of eight is decision D17). -/
def Obligations.EachPortIsDecodedToOneDevice : Prop :=
  ∀ port : Port,
    (∀ u off, claim port = .uart u off ↔ port = base u + off.setWidth 16) ∧
    (claim port = .crtcCmd ↔ port = 0x3D4) ∧ (claim port = .crtcData ↔ port = 0x3D5) ∧
    (claim port = .unclaimed ↔
      (∀ (u : UartId) (off : BitVec 3), port ≠ base u + off.setWidth 16) ∧ port ≠ 0x3D4 ∧ port ≠ 0x3D5)

/-- A port write has the effect of the register that claims its address, whole and at once, and a status read returns its byte (R120,
R121; the registers' effects are R133 to R135 and R170 to R176, the commit at the low byte decision D27). Nothing else changes, but
for the counter of draws and the result of the read, which are the model's (log 4 and 6). -/
def Obligations.PortTransactionsReachTheirRegister : Prop :=
  ∀ (u : UartId) (v : Byte) (s : State),
    exec (.portWrite (base u + 3) v) s = .next (s.setUart u ((s.uart u).configureLine v)) ∧
    (v.getLsbD 4 = false → exec (.portWrite (base u + 4) v) s = .next (s.setUart u ((s.uart u).configureModem v))) ∧
    ((s.uart u).fifoEn = some (v.getLsbD 0) ∨ v.getLsbD 1 = true ∧ v.getLsbD 2 = true →
      exec (.portWrite (base u + 2) v) s = .next (s.setUart u ((s.uart u).configureFifo v))) ∧
    ((s.uart u).dlab = some true →
      exec (.portWrite (base u) v) s = .next (s.setUart u ((s.uart u).loadDivisorByte v))) ∧
    (∀ cap, (s.uart u).dlab = some false → (s.uart u).txcap = some cap → (s.uart u).txfifo.length < cap →
      exec (.portWrite (base u) v) s = .next (s.setUart u { s.uart u with txfifo := (s.uart u).txfifo ++ [v] })) ∧
    exec (.portWrite 0x3D4 v) s = .next { s with crtcIndex := some v } ∧
    (s.crtcIndex = some 0x0E → exec (.portWrite 0x3D5 v) s = .next (s.loadCursorHigh v)) ∧
    (s.crtcIndex = some 0x0F → exec (.portWrite 0x3D5 v) s = .next (s.loadCursorLow v)) ∧
    exec (.portRead (base u + 5)) s =
      .next { s with draws := s.draws + 1, result := some (.byte ((s.uart u).lsr (Config.draw s.draws))) }

/-- A port transaction has the effect of the device's word it becomes after the address decode, with the device's own mode in the
dlab or idx field (R92, R93, R120, R121); a word of reserved space is refused, a data-port write with LCR `none` faults. The mode
field is not on the bus, so an instruction of the other mode goes where the device sends it (log 9). -/
def Obligations.PortTransactionIsTheDecodedDeviceWord : Prop :=
  ∀ s : State,
    (∀ (u : UartId) (off : BitVec 3) (v : Byte) (w : BitVec 13), s.uWord u true off v = some w →
      (∀ i, decode (.u u w) = .ok i → exec (.portWrite (base u + off.setWidth 16) v) s = exec i s) ∧
      (∀ r, decode (.u u w) = .error (.reserved r) →
        exec (.portWrite (base u + off.setWidth 16) v) s = .next (s.markRefused r))) ∧
    (∀ (u : UartId) (off : BitVec 3) (w : BitVec 13), s.uWord u false off 0 = some w →
      (∀ i, decode (.u u w) = .ok i → exec (.portRead (base u + off.setWidth 16)) s = exec i s) ∧
      (∀ r, decode (.u u w) = .error (.reserved r) →
        exec (.portRead (base u + off.setWidth 16)) s = .next (s.markRefused r))) ∧
    (∀ (u : UartId) (v : Byte), (s.uart u).lcr = none →
      exec (.portWrite (base u) v) s = .next (s.takeFault (.unwrittenState (.uartLcr u)))) ∧
    (∀ (dataPort : Bool) (v : Byte) (w : BitVec 18), s.cWord dataPort v = some w →
      (∀ i, decode (.c w) = .ok i →
        exec (.portWrite (if dataPort then Config.crtcDataPort else Config.crtcCmdPort) v) s = exec i s) ∧
      (∀ r, decode (.c w) = .error (.reserved r) →
        exec (.portWrite (if dataPort then Config.crtcDataPort else Config.crtcCmdPort) v) s = .next (s.markRefused r))) ∧
    (∀ (u : UartId) (v : Byte), exec (.uartTxWrite u v) s = exec (.uartDivWrite u v) s ∧
      exec (.crtcCursorHighWrite v) s = exec (.crtcCursorLowWrite v) s)

/-- A write to an unclaimed port changes nothing and a read returns a free byte, without fault or refusal (R123, decision D18; the
counter of draws is log 4). -/
def Obligations.UnclaimedPortIsInert : Prop :=
  ∀ (port : Port) (v : Byte) (s : State),
    (∀ (u : UartId) (off : BitVec 3), port ≠ base u + off.setWidth 16) → port ≠ 0x3D4 → port ≠ 0x3D5 →
    exec (.portWrite port v) s = .next s ∧
    exec (.portRead port) s = .next { s with draws := s.draws + 1, result := some (.byte (Config.draw s.draws)) }

/-- Two port writes to different devices, each of which completes, have the same effect in either order (R125, derived there). -/
def Obligations.WritesToDifferentDevicesCommute : Prop :=
  ∀ (p q : Port) (v w : Byte) (s t t' : State), sameDevice p q = false → s.Safe →
    exec (.portWrite p v) s = .next t → t.Safe → exec (.portWrite q w) s = .next t' → t'.Safe →
    ∃ z, exec (.portWrite q w) t = .next z ∧ exec (.portWrite p v) t' = .next z ∧ z.Safe

/-- A caller's `write_port` or `read_port` is the port transaction, taken when the block accepts a command (R120, R121, R124; that
it clears the last result is the model's, log 6). -/
def Obligations.DirectPortCommandsAreThePortTransaction : Prop :=
  ∀ (port : Port) (v : Byte) (s : State), s.seq = [] → s.fault = [] →
    (∃ t, exec (.portWrite port v) { s with result := none } = .next t ∧ exec (.writePort port v) s = .next t) ∧
    (∃ t, exec (.portRead port) { s with result := none } = .next t ∧ exec (.readPort port) s = .next t)

/-- A command is accepted only when SEQ is idle and FAULT is empty: otherwise it has none of its effect (R35, R240; that it waits
unchanged is log 8). -/
def Obligations.CommandsWaitWhileBusyOrFaulted : Prop :=
  ∀ (i : Instr) (s : State), isCommand i = true → (s.seq ≠ [] ∨ s.fault ≠ []) → exec i s = .next s

/-! ### The console's registers -/

/-- A character or attribute store, encoded in format M, writes exactly its byte of the grid; an attribute byte is background over
foreground (R130, R131). -/
def Obligations.GridStoresWriteOneByte : Prop :=
  ∀ (k : Half) (v : Byte) (s : State), k.toNat < 2000 →
    (decode (.m (1#1 ++ k ++ 0#1 ++ v)) = .ok (.gridCharStore k v) ∧
      ∃ t, exec (.gridCharStore k v) s = .next t ∧ t = { s with grid := t.grid } ∧
      Memory.read t.grid (gridAddr (charOffset k.toNat)) = some v ∧
      ∀ a, a ≠ gridAddr (charOffset k.toNat) → Memory.read t.grid a = Memory.read s.grid a) ∧
    (decode (.m (1#1 ++ k ++ 1#1 ++ v)) = .ok (.gridAttrStore k v) ∧
      attrByte (v.extractLsb' 0 4).toNat (v.extractLsb' 4 4).toNat = v ∧
      ∃ t, exec (.gridAttrStore k v) s = .next t ∧ t = { s with grid := t.grid } ∧
      Memory.read t.grid (gridAddr (attrOffset k.toNat)) = some v ∧
      ∀ a, a ≠ gridAddr (attrOffset k.toNat) → Memory.read t.grid a = Memory.read s.grid a)

/-- A load returns the last byte stored and changes nothing; a byte never stored raises UnwrittenState (R132, R235, decision D38);
an access outside the window is no access of this hardware (R62, R105; that the model stops there is log 12). -/
def Obligations.GridLoadReturnsTheStoredByte : Prop :=
  ∀ s : State,
    (∀ off : BitVec 17, off.toNat < 4000 →
      (∀ b, s.gridByte off.toNat = some b → exec (.gridLoad off) s = .next { s with result := some (.byte b) }) ∧
      (s.gridByte off.toNat = none → exec (.gridLoad off) s =
        .next { s with fault := s.fault ++ [.unwrittenState (.gridByte off.toNat)], seq := [], result := none })) ∧
    (∀ off : BitVec 17, 4000 ≤ off.toNat → exec (.gridLoad off) s = .fault (.outsideGridWindow off.toNat)) ∧
    (∀ (k : Half) (v : Byte), 2000 ≤ k.toNat →
      exec (.gridCharStore k v) s = .fault (.outsideGridWindow (2 * k.toNat)) ∧
      exec (.gridAttrStore k v) s = .fault (.outsideGridWindow (2 * k.toNat + 1)))

/-- A command-port write, encoded with sel = 0 and any idx, loads CRTC_INDEX and nothing else; a data-port write under
CURSOR_HIGH_CMD, encoded with sel = 1 and that idx, loads CUR_HI and nothing else (R133, R134). -/
def Obligations.IndexAndHighByteWritesLoadOneRegister : Prop :=
  ∀ (v : Byte) (s : State),
    (∀ idx : Byte, decode (.c (1#1 ++ 0#1 ++ idx ++ v)) = .ok (.crtcIndexWrite v)) ∧
    decode (.c (1#1 ++ 1#1 ++ Config.cursorHighCmd ++ v)) = .ok (.crtcCursorHighWrite v) ∧
    exec (.crtcIndexWrite v) s = .next { s with crtcIndex := some v } ∧
    exec (.portWrite Config.crtcCmdPort v) s = .next { s with crtcIndex := some v } ∧
    (s.crtcIndex = some Config.cursorHighCmd →
      exec (.crtcCursorHighWrite v) s = .next { s with curHi := some v } ∧
      exec (.portWrite Config.crtcDataPort v) s = .next { s with curHi := some v })

/-- The low-byte write loads CUR_LO and commits {CUR_HI, CUR_LO} to HWCURSOR, unless CUR_HI was never written (R135; the commit at
the low byte is decision D27). -/
def Obligations.CursorLowWriteCommitsThePosition : Prop :=
  ∀ (v : Byte) (s : State), s.crtcIndex = some Config.cursorLowCmd →
    (∀ h, s.curHi = some h →
      exec (.crtcCursorLowWrite v) s = .next { s with curLo := some v, hwCursor := some (h ++ v) } ∧
      exec (.portWrite Config.crtcDataPort v) s = .next { s with curLo := some v, hwCursor := some (h ++ v) }) ∧
    (s.curHi = none →
      exec (.crtcCursorLowWrite v) s = .next { s with curLo := some v } ∧
      exec (.portWrite Config.crtcDataPort v) s = .next { s with curLo := some v })

/-- A cursor data-port write under any other index is refused, and so is every read of a cursor port (R136, R137, decision D28). That
the two device words CRTC_CURSOR_HIGH_WRITE and CRTC_CURSOR_LOW_WRITE, presented under an index that is neither command, are refused
too is the model's reading, log 9. -/
def Obligations.CursorPortsRefuseEverythingElse : Prop :=
  ∀ s : State,
    (∀ v : Byte, s.crtcIndex ≠ some 0x0E → s.crtcIndex ≠ some 0x0F →
      exec (.portWrite 0x3D5 v) s = .next { s with refused := some .crtcIndexNotModelled } ∧
      exec (.crtcCursorHighWrite v) s = .next { s with refused := some .crtcIndexNotModelled } ∧
      exec (.crtcCursorLowWrite v) s = .next { s with refused := some .crtcIndexNotModelled }) ∧
    exec (.portRead 0x3D4) s = .next { s with refused := some .crtcRead } ∧
    exec (.portRead 0x3D5) s = .next { s with refused := some .crtcRead }

/-! ### The UART's registers -/

/-- With DLAB clear and room in the FIFO, a data-port write appends its byte to TXFIFO and changes nothing else (R170, R26; the
capacities are decision D14). -/
def Obligations.TxWriteQueuesTheByte : Prop :=
  ∀ (u : UartId) (v l : Byte) (en : Bool) (s : State), (s.uart u).lcr = some l → l.getLsbD 7 = false →
    (s.uart u).fifoEn = some en → (s.uart u).txfifo.length < (if en then 16 else 1) →
    exec (.uartTxWrite u v) s = .next (s.setUart u { s.uart u with txfifo := (s.uart u).txfifo ++ [v] })

/-- The faults of a data-port write, in R239's order: LCR unwritten, FIFO_EN unwritten, FIFO full. A fault is recorded, stops the
sequencer, and has no other effect (R170, R234, R235, R240; decisions D15, D31, D38). -/
def Obligations.DataWriteFaultsInOrder : Prop :=
  ∀ (u : UartId) (v : Byte) (s : State),
    ((s.uart u).lcr = none → exec (.uartTxWrite u v) s =
      .next { s with fault := s.fault ++ [.unwrittenState (.uartLcr u)], seq := [], result := none }) ∧
    (∀ l : Byte, (s.uart u).lcr = some l → l.getLsbD 7 = false →
      ((s.uart u).fifoEn = none → exec (.uartTxWrite u v) s =
        .next { s with fault := s.fault ++ [.unwrittenState (.uartFifoEn u)], seq := [], result := none }) ∧
      (∀ en, (s.uart u).fifoEn = some en → (if en then 16 else 1) ≤ (s.uart u).txfifo.length →
        exec (.uartTxWrite u v) s = .next { s with fault := s.fault ++ [.txOverrun u v], seq := [], result := none }))

/-- With DLAB set, data-port writes load the high and then the low divisor byte by DLPHASE, so two of them load {first, second}
(R171; the phase bit is decision D10). -/
def Obligations.DivisorWritesLoadHighThenLow : Prop :=
  ∀ (u : UartId) (v w l : Byte) (s : State), (s.uart u).lcr = some l → l.getLsbD 7 = true →
    ((s.uart u).dlphase = false →
      exec (.uartDivWrite u v) s = .next (s.setUart u { s.uart u with dlh := some v, dlphase := true }) ∧
      ∃ t, execList [.uartDivWrite u v, .uartDivWrite u w] s = .next t ∧
        t = s.setUart u { s.uart u with dlh := some v, dll := some w } ∧ (t.uart u).div = some (v ++ w)) ∧
    ((s.uart u).dlphase = true →
      exec (.uartDivWrite u v) s = .next (s.setUart u { s.uart u with dll := some v, dlphase := false }))

/-- A FIFO-control write sets FIFO_EN, FCR_MISC and RX_TRIG and clears the FIFOs its bits name; one that changes FIFO_EN without both
clear bits is refused (R173; the fields are decision D12). -/
def Obligations.FifoControlWriteSetsItsFields : Prop :=
  ∀ (u : UartId) (v : Byte) (s : State),
    ((s.uart u).fifoEn = some (v.getLsbD 0) ∨ v.getLsbD 1 = true ∧ v.getLsbD 2 = true →
      exec (.uartFcrWrite u v) s = .next (s.setUart u { s.uart u with
        fifoEn := some (v.getLsbD 0)
        rxfifo := if v.getLsbD 1 then [] else (s.uart u).rxfifo
        txfifo := if v.getLsbD 2 then [] else (s.uart u).txfifo
        fcrMisc := some (v.extractLsb' 3 3)
        rxTrig := some (v.extractLsb' 6 2) })) ∧
    ((s.uart u).fifoEn ≠ some (v.getLsbD 0) → ¬ (v.getLsbD 1 = true ∧ v.getLsbD 2 = true) →
      exec (.uartFcrWrite u v) s = .next { s with refused := some .fifoModeChangeWithoutClear })

/-- A line-control write, at BASE[u] + 3 and encoded with off = 3 and any dlab, loads LCR, so DLAB is its bit 7, and a write with bit
7 set resets DLPHASE; nothing else changes. DLAB_ENABLE_BYTE sets DLAB; LINE_8N1 clears it and is 8 data bits, no parity, 1 stop bit
(R174). -/
def Obligations.LineControlWriteSetsTheFormat : Prop :=
  (∀ (u : UartId) (dlab : BitVec 1) (v : Byte), decode (.u u (1#1 ++ dlab ++ 3#3 ++ v)) = .ok (.uartLcrWrite u v)) ∧
  (Config.dlabEnableByte.getLsbD 7 = true ∧ Config.line8N1 = 0x03 ∧ Config.line8N1.getLsbD 7 = false ∧ dataBits 0x03 = 8 ∧
    parityEnable 0x03 = false ∧ longStop 0x03 = false) ∧
  ∀ (u : UartId) (v : Byte) (s : State),
    ∃ t, exec (.uartLcrWrite u v) s = .next t ∧ exec (.portWrite (base u + 3) v) s = .next t ∧
      t = s.setUart u { s.uart u with lcr := some v, dlphase := if v.getLsbD 7 then false else (s.uart u).dlphase } ∧
      (t.uart u).dlab = some (v.getLsbD 7)

/-- A modem-control write loads MCR and drives DTR and RTS from its bits 0 and 1; loopback is refused (R175; the bit positions are
decision D13). -/
def Obligations.ModemControlWriteDrivesThePins : Prop :=
  ∀ (u : UartId) (v : Byte) (s : State),
    (v.getLsbD 4 = false → exec (.uartMcrWrite u v) s = .next (s.setUart u { s.uart u with
      mcr := some v, dtr := some (v.getLsbD 0), rts := some (v.getLsbD 1) })) ∧
    (v.getLsbD 4 = true → exec (.uartMcrWrite u v) s = .next { s with refused := some .loopbackNotModelled })

/-- A status read shows transmit-empty exactly when TXFIFO is empty, its other seven bits are free, and no register changes (R176,
decision D16; the counter of draws is log 4). It holds of every value of the draw. -/
def Obligations.LineStatusReadShowsTransmitEmpty : Prop :=
  ∀ (u : UartId) (s : State),
    ∃ b : Byte, exec (.uartLsrRead u) s = .next { s with draws := s.draws + 1, result := some (.byte b) } ∧
      (b &&& Config.txEmptyMask ≠ 0 ↔ (s.uart u).txfifo = []) ∧
      b &&& ~~~Config.txEmptyMask = Config.draw s.draws &&& ~~~Config.txEmptyMask

/-- Every other access at a UART's eight ports is refused (R172, R177, decision D17; which of the two reasons a data-port read has is
log 13). -/
def Obligations.OtherUartAccessesAreRefused : Prop :=
  ∀ (u : UartId) (v : Byte) (s : State),
    (∀ off : BitVec 3, off = 1 ∨ off = 5 ∨ off = 6 ∨ off = 7 →
      exec (.portWrite (base u + off.setWidth 16) v) s = .next { s with refused := some .uartAccessNotModelled }) ∧
    (∀ off : BitVec 3, off ≠ 0 → off ≠ 5 →
      exec (.portRead (base u + off.setWidth 16)) s = .next { s with refused := some .uartAccessNotModelled }) ∧
    exec (.portRead (base u)) s = .next { s with refused := some .uartDataRead }

/-- The transmitter's step moves the oldest byte of TXFIFO to LINE with the divisor and format in force, and changes nothing else
(R178, decision D19); with TXFIFO empty it is not enabled, and the model's step then does nothing (log 16). -/
def Obligations.TransmitterSendsTheOldestByte : Prop :=
  ∀ (u : UartId) (s : State),
    (∀ b rest, (s.uart u).txfifo = b :: rest → exec (.uartTxSend u) s = .next (s.setUart u { s.uart u with
      txfifo := rest
      line := (s.uart u).line ++ [{ byte := b, div := (s.uart u).div, fmt := (s.uart u).fmt }] })) ∧
    ((s.uart u).txfifo = [] → exec (.uartTxSend u) s = .next s)

/-- The two UARTs stand at their bases with their five register ports at the fixed offsets, each has its own copy of its registers, and
no transaction to one, and no step of its transmitter, changes the other or the console (R20). -/
def Obligations.UartsAreIndependent : Prop :=
  Config.nSerial = 2 ∧ base .com1 = Config.com1Base ∧ base .com2 = Config.com2Base ∧
  (∀ u : UartId, claim (base u) = .uart u 0 ∧ claim (base u + 2) = .uart u 2 ∧ claim (base u + 3) = .uart u 3 ∧
    claim (base u + 4) = .uart u 4 ∧ claim (base u + 5) = .uart u 5) ∧
  (∀ (u w : UartId) (x : Uart) (s : State), (s.setUart u x).uart u = x ∧ (w ≠ u → (s.setUart u x).uart w = s.uart w)) ∧
  ∀ (u w : UartId) (i : Instr) (s : State), u ≠ w →
    ((∃ off : BitVec 3, ∃ v, i = .portWrite (base u + off.setWidth 16) v) ∨
      (∃ off : BitVec 3, i = .portRead (base u + off.setWidth 16)) ∨ i = .uartTxSend u ∨ i = .uartLsrRead u ∨
      ∃ v, i = .uartTxWrite u v ∨ i = .uartDivWrite u v ∨ i = .uartFcrWrite u v ∨ i = .uartLcrWrite u v ∨
        i = .uartMcrWrite u v) →
    ∃ t, exec i s = .next t ∧ t.uart w = s.uart w ∧ t.grid = s.grid ∧ t.crtcIndex = s.crtcIndex ∧ t.curHi = s.curHi ∧
      t.curLo = s.curLo ∧ t.hwCursor = s.hwCursor ∧ t.cursor = s.cursor

/-- The bytes on LINE and in TXFIFO are, in order, those written, whatever the transmitter does between; and writes within the
depth never overrun (R181 (1) and (3), derived there). -/
def Obligations.FifoKeepsTheOrderWithinItsDepth : Prop :=
  ∀ (u : UartId) (is : List Instr) (l : Byte) (s : State), (∀ i ∈ is, fifoEvent u i = true) →
    (s.uart u).lcr = some l → l.getLsbD 7 = false →
    (∀ t, execList is s = .next t → t.fault = s.fault →
      (t.uart u).line.map (·.byte) ++ (t.uart u).txfifo =
        (s.uart u).line.map (·.byte) ++ (s.uart u).txfifo ++ payloads is) ∧
    ((s.uart u).fifoEn = some true → (s.uart u).txfifo.length + (payloads is).length ≤ 16 →
      ∃ t, execList is s = .next t ∧ t.fault = s.fault)

/-! ### The console commands -/

/-- `fb.write_cell` in range stores the character and then the attribute of its cell, and nothing else (R145, R99); out of range it
faults before any store (R232; the check is decision D25). -/
def Obligations.WriteCellStoresOneCellOrFaults : Prop :=
  ∀ (index : Half) (char : Byte) (fg bg : Nat) (s : State), s.Ready →
    (index.toNat < 2000 →
      ∃ u t, exec (.fbWriteCell index char fg bg) s = .next u ∧ steps 2 u = .next t ∧
        t = { s with grid := t.grid, result := none } ∧
        t.cell index.toNat = (some char, some (BitVec.ofNat 8 (bg % 16 * 16 + fg % 16))) ∧
        (∀ a, a ≠ gridAddr (charOffset index.toNat) → a ≠ gridAddr (attrOffset index.toNat) →
          Memory.read t.grid a = Memory.read s.grid a) ∧
        issued 2 u = cellStores index char (BitVec.ofNat 8 (bg % 16 * 16 + fg % 16))) ∧
    (2000 ≤ index.toNat →
      ∃ u, exec (.fbWriteCell index char fg bg) s = .next u ∧
        steps 1 u = .next { s with fault := [.gridIndexOutOfRange index], result := none } ∧ issued 1 u = [])

/-- `fb.move_cursor` in range issues its four port writes, high pair first, and records the position (R146); out of range it faults
before any write (R233; the range is decision D26). -/
def Obligations.MoveCursorSendsHighByteFirstOrFaults : Prop :=
  ∀ (pos : Half) (s : State), s.Ready →
    (pos.toNat ≤ 2000 →
      ∃ u, exec (.fbMoveCursor pos) s = .next u ∧
        steps 5 u = .next { s with
          crtcIndex := some Config.cursorLowCmd
          curHi := some (BitVec.ofNat 8 (pos.toNat / 256))
          curLo := some (BitVec.ofNat 8 pos.toNat)
          hwCursor := some pos
          cursor := some pos
          result := none } ∧
        issued 5 u = [.portWrite Config.crtcCmdPort Config.cursorHighCmd,
          .portWrite Config.crtcDataPort (BitVec.ofNat 8 (pos.toNat / 256)),
          .portWrite Config.crtcCmdPort Config.cursorLowCmd, .portWrite Config.crtcDataPort (BitVec.ofNat 8 pos.toNat)]) ∧
    (2000 < pos.toNat →
      ∃ u, exec (.fbMoveCursor pos) s = .next u ∧
        steps 1 u = .next { s with fault := [.cursorOutOfRange pos], result := none } ∧ issued 1 u = [])

/-- The newline step of `fb.write` writes no cell: it takes CURSOR to the last column of its row and then to the start of the next
row, whether the byte is met at the loop head or after a scroll (R148, R150; the second advance is decision D23, the scroll D24). -/
def Obligations.NewlineStepWritesNoCell : Prop :=
  ∀ (text : List Byte) (i : Nat) (loc : WriteAt) (c : Half) (rest : List Frame) (s : State), s.DriverReady →
    loc = .head i ∨ loc = .body i → s.seq = .fbWrite text loc :: rest → text[i]? = some Config.newline →
    s.cursor = some c → c.toNat < 2000 →
    steps 1 s = .next { s with
      cursor := some (BitVec.ofNat 16 (c.toNat + (80 - c.toNat % 80 - 1))), seq := .fbWrite text (.advance i) :: rest } ∧
    steps 2 s = .next { s with
      cursor := some (BitVec.ofNat 16 ((c.toNat / 80 + 1) * 80)), seq := .fbWrite text (.head (i + 1)) :: rest } ∧
    issued 2 s = []

/-- The character step of `fb.write`, whether the byte is met at the loop head or after a scroll: the cell at CURSOR receives the byte
and the attribute 0x0F, then CURSOR advances by one; no other byte and no other register changes (R149). -/
def Obligations.CharacterStepWritesTheCellAtTheCursor : Prop :=
  ∀ (text : List Byte) (i : Nat) (loc : WriteAt) (b : Byte) (c : Half) (rest : List Frame) (s : State), s.DriverReady →
    loc = .head i ∨ loc = .body i → s.seq = .fbWrite text loc :: rest → text[i]? = some b →
    b ≠ Config.newline → s.cursor = some c → c.toNat < 2000 →
    ∃ t, steps 3 s = .next t ∧
      t = { s with grid := t.grid, cursor := some (BitVec.ofNat 16 (c.toNat + 1)), seq := .fbWrite text (.head (i + 1)) :: rest } ∧
      t.cell c.toNat = (some b, some 0x0F) ∧
      (∀ a, a ≠ gridAddr (charOffset c.toNat) → a ≠ gridAddr (attrOffset c.toNat) →
        Memory.read t.grid a = Memory.read s.grid a) ∧
      issued 3 s = [.gridCharStore c b, .gridAttrStore c 0x0F]

/-- `fb.write` of a text without newline that fits the remaining cells: the characters stand at consecutive cells from the cursor,
each with attribute 0x0F, every other byte is unchanged, and the cursor ends after the last (R147, R153 (1)). -/
def Obligations.FbWriteReadsBack : Prop :=
  ∀ (text : List Byte) (p : Half) (s : State), s.Ready → s.cursor = some p → (∀ b ∈ text, b ≠ Config.newline) →
    p.toNat + text.length ≤ 2000 →
    ∃ u t, exec (.fbWrite text) s = .next u ∧ steps (3 * text.length + 5) u = .next t ∧
      t = { s.cursorMoved (BitVec.ofNat 16 (p.toNat + text.length)) with grid := t.grid, result := none } ∧
      (∀ j < text.length, t.cell (p.toNat + j) = (text[j]?, some 0x0F)) ∧
      (∀ a, (∀ j < text.length, a ≠ gridAddr (charOffset (p.toNat + j)) ∧ a ≠ gridAddr (attrOffset (p.toNat + j))) →
        Memory.read t.grid a = Memory.read s.grid a) ∧
      issued (3 * text.length + 5) u =
        ((List.range text.length).flatMap fun j =>
          cellStores (BitVec.ofNat 16 (p.toNat + j)) (text.getD j 0) 0x0F) ++
        cursorWrites (BitVec.ofNat 16 (p.toNat + text.length))

/-- `fb.write` of any text, the empty one too, faults at once when CURSOR was never written (R147, R235, decision D38). -/
def Obligations.FbWriteWithoutCursorFaults : Prop :=
  ∀ (text : List Byte) (s : State), s.Ready → s.cursor = none →
    ∃ u, exec (.fbWrite text) s = .next u ∧
      steps 1 u = .next { s with fault := [.unwrittenState .cursor], result := none } ∧ issued 1 u = []

/-- When a byte is to be processed with CURSOR = WIDTH x HEIGHT, `fb.scroll` runs first: every row moves up by one, the last row is
blank, CURSOR goes up one row, nothing else changes, and the byte is then processed (R150; the whole rule is decision D24). That exec
of `fb.scroll` in a running command calls the scroll from it is the model's reading, log 15. -/
def Obligations.ScrollMovesTheGridUpFirst : Prop :=
  ∀ (text : List Byte) (i : Nat) (c : Half) (rest : List Frame) (s : State), s.DriverReady →
    s.seq = .fbWrite text (.head i) :: rest → i < text.length → s.cursor = some c → c.toNat = 2000 →
    (∀ off, 160 ≤ off → off < 4000 → (s.gridByte off).isSome = true) →
    ∃ u t, exec .fbScroll { s with seq := .fbWrite text (.body i) :: rest } = .next u ∧ step s = step u ∧
      steps 7841 s = .next t ∧
      t = { s with grid := t.grid, cursor := some 1920, seq := .fbWrite text (.body i) :: rest } ∧
      (∀ off < 3840, t.gridByte off = s.gridByte (off + 160)) ∧
      (∀ k, 1920 ≤ k → k < 2000 → t.cell k = (some 0x00, some 0x0F)) ∧
      (∀ a, (a < gridAddr 0 ∨ gridAddr 4000 ≤ a) → Memory.read t.grid a = Memory.read s.grid a)

/-- `fb.clear`, command code 0x5, from any state that accepts it: every cell is (0x00, 0x0F) and reads so, the cursor is home, nothing
else changes, and the transactions are the 4000 stores in increasing order and the four port writes (R151). -/
def Obligations.ClearBlanksTheGrid : Prop :=
  (∀ o : CmdOperands, decode (.cmd 0x5 o) = .ok .fbClear) ∧
  ∀ s : State, s.Ready →
    ∃ u t, exec .fbClear s = .next u ∧ steps 4006 u = .next t ∧
      t = { s.cursorMoved 0 with grid := t.grid, result := none } ∧
      (∀ k < 2000, t.cell k = (some 0x00, some 0x0F)) ∧
      (∀ off : BitVec 17, off.toNat < 4000 →
        exec (.gridLoad off) t = .next { t with result := some (.byte (if off.toNat % 2 = 0 then 0x00 else 0x0F)) }) ∧
      (∀ a, (a < gridAddr 0 ∨ gridAddr 4000 ≤ a) → Memory.read t.grid a = Memory.read s.grid a) ∧
      issued 4006 u =
        ((List.range 2000).flatMap fun k => cellStores (BitVec.ofNat 16 k) 0x00 0x0F) ++ cursorWrites 0

/-- Every console command starts, and ends within a bound on its text and the grid, with SEQ idle again and nothing refused (R139,
R152, derived there). -/
def Obligations.ConsoleCommandsTerminate : Prop :=
  ∀ (i : Instr) (s : State), consoleBound i ≠ 0 → s.Inv → s.Ready →
    ∃ u n t, exec i s = .next u ∧ u.seq ≠ [] ∧ n ≤ consoleBound i ∧ steps n u = .next t ∧ t.seq = [] ∧ t.refused = none

/-- From a state that meets the invariant, `fb.write` never raises GridIndexOutOfRange or CursorOutOfRange, and `fb.clear` raises
nothing (R152, derived there; R151). -/
def Obligations.FbWriteIsNeverOutOfRange : Prop :=
  ∀ (text : List Byte) (s : State), s.Inv → s.Ready → s.inbox = [] →
    (∃ u, exec (.fbWrite text) s = .next u ∧
      ∀ n, ∃ t, steps n u = .next t ∧ ∀ r ∈ t.fault, ∃ e, r = .unwrittenState e) ∧
    (∃ u, exec .fbClear s = .next u ∧ ∀ n, ∃ t, steps n u = .next t ∧ t.fault = [])

/-- While a command runs, every transaction it issues is well formed, so no store is made outside the grid window; the block always
has a next state; and calls are at most four deep (R153 (5), R35, 00_scope.md section 7). -/
def Obligations.RunningCommandsStayInTheWindow : Prop :=
  ∀ s : State, s.Inv → s.refused = none → s.seq ≠ [] →
    (∀ i ∈ s.stepIssues, i.wellFormed = true) ∧ (∃ t, step s = .next t) ∧ s.seq.length ≤ 4

/-! ### The serial commands and print -/

/-- `serial.configure_baud_rate` sends the DLAB-enable byte, the divisor's high byte and its low byte; at a UART, DIV is the divisor
and DLAB stays set; at a base no device claims, nothing changes (R200, R96; decision D10 for the phase bit). -/
def Obligations.ConfigureBaudRateLatchesTheDivisor : Prop :=
  ∀ (d : Half) (s : State), s.Ready →
    (∀ w : UartId, ∃ u t, exec (.serialConfigureBaudRate (base w) d) s = .next u ∧ steps 3 u = .next t ∧
      t = { s.setUart w { s.uart w with
          lcr := some 0x80
          dlh := some (BitVec.ofNat 8 (d.toNat / 256))
          dll := some (BitVec.ofNat 8 d.toNat)
          dlphase := false } with result := none } ∧
      (t.uart w).div = some d ∧
      issued 3 u = [.portWrite (base w + 3) 0x80, .portWrite (base w) (BitVec.ofNat 8 (d.toNat / 256)),
        .portWrite (base w) (BitVec.ofNat 8 d.toNat)]) ∧
    (∀ port : Port, claim (port + 3) = .unclaimed → claim port = .unclaimed →
      ∃ u, exec (.serialConfigureBaudRate port d) s = .next u ∧ steps 3 u = .next { s with result := none })

/-- `serial.configure_line`, `serial.configure_buffer` and `serial.configure_modem`, command codes 0x7, 0x8 and 0x9, each issue one
port write, of 0x03, 0xC7 and 0x03, with the register's effect at a UART (R201, R202, R203). -/
def Obligations.ConfigureLineBufferModemSendOneByte : Prop :=
  (∀ o : CmdOperands, decode (.cmd 0x7 o) = .ok (.serialConfigureLine o.port) ∧
    decode (.cmd 0x8 o) = .ok (.serialConfigureBuffer o.port) ∧ decode (.cmd 0x9 o) = .ok (.serialConfigureModem o.port)) ∧
  ∀ s : State, s.Ready →
    (∀ port : Port, ∃ u v w, exec (.serialConfigureLine port) s = .next u ∧ issued 1 u = [.portWrite (port + 3) 0x03] ∧
      exec (.serialConfigureBuffer port) s = .next v ∧ issued 1 v = [.portWrite (port + 2) 0xC7] ∧
      exec (.serialConfigureModem port) s = .next w ∧ issued 1 w = [.portWrite (port + 4) 0x03]) ∧
    (∀ x : UartId,
      (∃ u, exec (.serialConfigureLine (base x)) s = .next u ∧
        steps 1 u = .next { s.setUart x { s.uart x with lcr := some 0x03 } with result := none }) ∧
      (∃ u, exec (.serialConfigureBuffer (base x)) s = .next u ∧
        steps 1 u = .next { s.setUart x { s.uart x with
          fifoEn := some true, txfifo := [], rxfifo := [], rxTrig := some 0b11, fcrMisc := some 0 } with result := none }) ∧
      (∃ u, exec (.serialConfigureModem (base x)) s = .next u ∧
        steps 1 u = .next { s.setUart x { s.uart x with
          mcr := some 0x03, dtr := some true, rts := some true } with result := none }))

/-- `serial.is_transmit_fifo_empty` reads the status port once and answers whether TXFIFO is empty; at an unclaimed status port the
answer is the draw's (R204, R123; decisions D16, D18; the counter of draws is log 4). It holds of every value of the draw. -/
def Obligations.StatusPollAnswersTransmitEmpty : Prop :=
  ∀ (port : Port) (s : State), s.Ready →
    ∃ u, exec (.serialIsTransmitFifoEmpty port) s = .next u ∧ issued 1 u = [.portRead (port + 5)] ∧
      (∀ w : UartId, port = base w → steps 1 u =
        .next { s with draws := s.draws + 1, result := some (.bit (s.uart w).txfifo.isEmpty) }) ∧
      (claim (port + 5) = .unclaimed → steps 1 u =
        .next { s with draws := s.draws + 1, result := some (.bit (Config.draw s.draws &&& Config.txEmptyMask != 0)) })

/-- `serial.init` issues its six port writes in order and leaves the UART configured, from any prior state; at a base no device
claims, nothing changes (R205, decision D8: whatever INIT_DIVISOR is). -/
def Obligations.InitConfiguresThePort : Prop :=
  ∀ s : State, s.Ready →
    (∀ w : UartId, ∃ u, exec (.serialInit (base w)) s = .next u ∧
      steps 6 u = .next { s.setUart w (s.uart w).initialised with result := none } ∧ issued 6 u = initWrites (base w)) ∧
    (∀ port : Port, claim port = .unclaimed → claim (port + 2) = .unclaimed → claim (port + 3) = .unclaimed →
      claim (port + 4) = .unclaimed →
      ∃ u, exec (.serialInit port) s = .next u ∧ steps 6 u = .next { s with result := none } ∧
        issued 6 u = initWrites port)

/-- `serial.write` at a UART whose FIFO is empty, of a text within the depth, with no transmitter step: one status read, the six
writes of `serial.init`, one data write per byte; the whole text is queued and nothing faults (R206, R181 (3)). The counter of draws
in its conclusion is log 4, the empty schedule of its hypothesis log 2. -/
def Obligations.SerialWriteQueuesAShortText : Prop :=
  ∀ (w : UartId) (text : List Byte) (s : State), s.Ready → (s.uart w).txfifo = [] → text.length ≤ 16 →
    ∃ u, exec (.serialWrite (base w) text) s = .next u ∧
      steps (7 + text.length) u = .next
        { s.setUart w { (s.uart w).initialised with txfifo := text } with draws := s.draws + 1, result := none } ∧
      issued (7 + text.length) u =
        .portRead (base w + 5) :: initWrites (base w) ++ text.map fun b => .portWrite (base w) b

/-- With a transmitter step after every data write, a text of any length reaches LINE whole and in order, at INIT_DIVISOR and 8N1,
and nothing faults (R206, R181 (4), R262). The schedule as a list is log 2, the counter of draws log 4. -/
def Obligations.SerialWriteDeliversWithAPromptTransmitter : Prop :=
  ∀ (w : UartId) (text : List Byte) (s : State), s.seq = [] → s.fault = [] → s.refused = none →
    s.sched = promptSchedule w text.length → (s.uart w).txfifo = [] →
    ∃ u, exec (.serialWrite (base w) text) s = .next u ∧
      steps (7 + 2 * text.length) u = .next
        { s.setUart w { (s.uart w).initialised with line := (s.uart w).line ++ text.map initialisedRecord } with
          draws := s.draws + 1, sched := [], result := none }

/-- With no transmitter step, a text longer than the depth overruns at byte 17: the fault is recorded, the command is abandoned, and
the sixteen bytes already queued stay (R206, R181 (4), R234, R262; decisions D14, D15). The counter of draws is log 4, the empty
schedule of its hypothesis log 2. -/
def Obligations.SerialWriteOverrunsWithoutTheTransmitter : Prop :=
  ∀ (w : UartId) (text : List Byte) (s : State), s.Ready → (s.uart w).txfifo = [] → 16 < text.length →
    ∃ u, exec (.serialWrite (base w) text) s = .next u ∧
      steps 24 u = .next { s.setUart w { (s.uart w).initialised with txfifo := text.take 16 } with
        draws := s.draws + 1, fault := [.txOverrun w (text.getD 16 0)], result := none }

/-- The spin reads the status port once a turn and ends when it shows transmit-empty (R206, decision D37); at a UART whose FIFO holds
a byte and whose transmitter never steps it never ends, and changes nothing but the counter of draws, which is the model's (R206,
R236; log 4). -/
def Obligations.SpinEndsOnlyWhenTheStatusShowsEmpty : Prop :=
  (∀ (port : Port) (text : List Byte) (rest : List Frame) (s : State), s.DriverReady →
    s.seq = .serialWrite port text .spin :: rest →
    s.issues = some (.portRead (port + 5)) ∧
    (∀ w : UartId, port = base w → step s = .next { s with
      draws := s.draws + 1
      seq := .serialWrite port text (if (s.uart w).txfifo = [] then .init else .spin) :: rest }) ∧
    (claim (port + 5) = .unclaimed → step s = .next { s with
      draws := s.draws + 1
      seq := .serialWrite port text
        (if Config.draw s.draws &&& Config.txEmptyMask = 0 then .spin else .init) :: rest })) ∧
  (∀ (w : UartId) (text : List Byte) (s : State), s.Ready → (s.uart w).txfifo ≠ [] →
    ∃ u, exec (.serialWrite (base w) text) s = .next u ∧
      ∀ n, ∃ t, steps n u = .next t ∧ t.seq = [.serialWrite (base w) text .spin] ∧
        t = { s with seq := t.seq, draws := s.draws + n, result := none })

/-- `print` runs exactly as the command it forwards to: `fb.write` on the console channel and `serial.write` on any other, step for
step and transaction for transaction, with one more frame at the bottom of the stack (R220; the sentinel is decision D9). A run whose
transaction is refused agrees too, in the mark, in every register but the position SEQ keeps under the mark, and in the stop that
follows (V55; log 7). -/
def Obligations.PrintRunsAsTheForwardedCommand : Prop :=
  ∀ (channel : Port) (text : List Byte) (s : State), s.Ready → s.inbox = [] →
    ∃ p u, exec (.print channel text) s = .next p ∧
      exec (if channel = Config.consoleChannel then .fbWrite text else .serialWrite channel text) s = .next u ∧
      ∀ n, issued (n + 1) p = issued (n + 1) u ∧
        (∀ t, steps (n + 1) u = .next t → ∃ v, steps (n + 1) p = .next v ∧ v = { t with seq := v.seq } ∧
          (t.refused = none → v.seq = if t.seq = [] then [] else t.seq ++ [.print channel text true])) ∧
        (∀ r, steps (n + 1) u = .refused r → steps (n + 1) p = .refused r)

/-- `print` on a serial base queues a short text as `serial.write` does, and on the console channel writes a text that fits as
`fb.write` does (R220; the sentinel is decision D9; the counter of draws is log 4, the empty schedule of the hypothesis log 2). -/
def Obligations.PrintCompletesOnEitherDevice : Prop :=
  ∀ (text : List Byte) (s : State), s.Ready →
    (∀ w : UartId, (s.uart w).txfifo = [] → text.length ≤ 16 →
      ∃ u, exec (.print (base w) text) s = .next u ∧
        steps (7 + text.length) u = .next
          { s.setUart w { (s.uart w).initialised with txfifo := text } with draws := s.draws + 1, result := none }) ∧
    (∀ p : Half, s.cursor = some p → (∀ b ∈ text, b ≠ Config.newline) → p.toNat + text.length ≤ 2000 →
      ∃ u t, exec (.print Config.consoleChannel text) s = .next u ∧ steps (3 * text.length + 5) u = .next t ∧
        t = { s.cursorMoved (BitVec.ofNat 16 (p.toNat + text.length)) with grid := t.grid, result := none } ∧
        (∀ j < text.length, t.cell (p.toNat + j) = (text[j]?, some 0x0F)) ∧
        (∀ a, (∀ j < text.length, a ≠ gridAddr (charOffset (p.toNat + j)) ∧ a ≠ gridAddr (attrOffset (p.toNat + j))) →
          Memory.read t.grid a = Memory.read s.grid a))

/-! ### Faults, refusals, and the whole machine -/

/-- Once a fault is recorded nothing happens but the transmitters' steps, for ever: no command is accepted, no register changes but
TXFIFO and LINE, and the bytes queued stay or go out in order (R240 (5) and (6), R241; decision D31). -/
def Obligations.FaultIsTerminal : Prop :=
  ∀ s : State, s.fault ≠ [] → s.seq = [] → s.refused = none →
    ∀ n, ∃ t, steps n s = .next t ∧
      t = { s with uart0 := t.uart0, uart1 := t.uart1, sched := t.sched } ∧
      ∀ u, t.uart u = { s.uart u with txfifo := (t.uart u).txfifo, line := (t.uart u).line } ∧
        (t.uart u).line.map (·.byte) ++ (t.uart u).txfifo = (s.uart u).line.map (·.byte) ++ (s.uart u).txfifo

/-- Command code 0xF, and `fb.scroll` presented by a caller, are refused, and a marked state has no step (R105, R150, R237; decision
D17; the reasons' names are log 14, the stop after the mark is log 7). -/
def Obligations.ReservedCommandsAreRefused : Prop :=
  ∀ s : State,
    exec .reservedCmd s = .next { s with refused := some .reservedCommand } ∧
    (s.seq = [] → exec .fbScroll s = .next { s with refused := some .scrollNotIssuable }) ∧
    (∀ r, s.refused = some r → step s = .refused (.markedRefused r))

/-- LINE only grows, and only by one byte in a step of its own transmitter (R29, R44 (4); decision D19). -/
def Obligations.LineGrowsOnlyByItsTransmitter : Prop :=
  ∀ (u : UartId) (s t : State), step s = .next t → (t.uart u).line ≠ (s.uart u).line →
    ∃ tail b rest, s.sched = .transmitter u :: tail ∧ (s.uart u).txfifo = b :: rest ∧ (t.uart u).txfifo = rest ∧
      (t.uart u).line = (s.uart u).line ++ [{ byte := b, div := (s.uart u).div, fmt := (s.uart u).fmt }]

/-- HWCURSOR changes only when the step's transaction or request is a write to the cursor data port, under CURSOR_LOW_CMD and with
CUR_HI written, and then takes {CUR_HI, CUR_LO} with the byte written; the grid, CRTC_INDEX, CUR_HI, CURSOR and the UARTs keep their
values at that step (R33, R135; decision D27; that a device word of the other cursor mode goes where CRTC_INDEX sends it is log 9). -/
def Obligations.HwCursorLoadsOnlyWithTheLowByte : Prop :=
  ∀ s t : State, step s = .next t → t.hwCursor ≠ s.hwCursor →
    s.crtcIndex = some Config.cursorLowCmd ∧ t.grid = s.grid ∧ t.crtcIndex = s.crtcIndex ∧ t.curHi = s.curHi ∧
      t.cursor = s.cursor ∧ t.uart0 = s.uart0 ∧ t.uart1 = s.uart1 ∧
      ∃ i h l, s.stepRuns = some i ∧ cursorDataByte i = some l ∧ s.curHi = some h ∧ t.curLo = some l ∧
        t.hwCursor = some (h ++ l)
end

