-- ==== Sys2Proof/Laws/State.lean ====
section
/-! SUPPORT. One lemma per field per update of the state and of a UART, so that no later proof unfolds a record update. -/

namespace Sys2Proof.Machine

/-! ### Updates of State -/

@[simp] theorem State.takeFault_uart0 (s : State) (r : FaultRecord) : (s.takeFault r).uart0 = s.uart0 := rfl
@[simp] theorem State.takeFault_uart1 (s : State) (r : FaultRecord) : (s.takeFault r).uart1 = s.uart1 := rfl
@[simp] theorem State.takeFault_grid (s : State) (r : FaultRecord) : (s.takeFault r).grid = s.grid := rfl
@[simp] theorem State.takeFault_crtcIndex (s : State) (r : FaultRecord) : (s.takeFault r).crtcIndex = s.crtcIndex := rfl
@[simp] theorem State.takeFault_curHi (s : State) (r : FaultRecord) : (s.takeFault r).curHi = s.curHi := rfl
@[simp] theorem State.takeFault_curLo (s : State) (r : FaultRecord) : (s.takeFault r).curLo = s.curLo := rfl
@[simp] theorem State.takeFault_hwCursor (s : State) (r : FaultRecord) : (s.takeFault r).hwCursor = s.hwCursor := rfl
@[simp] theorem State.takeFault_cursor (s : State) (r : FaultRecord) : (s.takeFault r).cursor = s.cursor := rfl
@[simp] theorem State.takeFault_seq (s : State) (r : FaultRecord) : (s.takeFault r).seq = [] := rfl
@[simp] theorem State.takeFault_fault (s : State) (r : FaultRecord) : (s.takeFault r).fault = s.fault ++ [r] := rfl
@[simp] theorem State.takeFault_refused (s : State) (r : FaultRecord) : (s.takeFault r).refused = s.refused := rfl
@[simp] theorem State.takeFault_result (s : State) (r : FaultRecord) : (s.takeFault r).result = none := rfl
@[simp] theorem State.takeFault_draws (s : State) (r : FaultRecord) : (s.takeFault r).draws = s.draws := rfl
@[simp] theorem State.takeFault_sched (s : State) (r : FaultRecord) : (s.takeFault r).sched = s.sched := rfl
@[simp] theorem State.takeFault_inbox (s : State) (r : FaultRecord) : (s.takeFault r).inbox = s.inbox := rfl

@[simp] theorem State.markRefused_uart0 (s : State) (r : RefuseReason) : (s.markRefused r).uart0 = s.uart0 := rfl
@[simp] theorem State.markRefused_uart1 (s : State) (r : RefuseReason) : (s.markRefused r).uart1 = s.uart1 := rfl
@[simp] theorem State.markRefused_grid (s : State) (r : RefuseReason) : (s.markRefused r).grid = s.grid := rfl
@[simp] theorem State.markRefused_crtcIndex (s : State) (r : RefuseReason) : (s.markRefused r).crtcIndex = s.crtcIndex := rfl
@[simp] theorem State.markRefused_curHi (s : State) (r : RefuseReason) : (s.markRefused r).curHi = s.curHi := rfl
@[simp] theorem State.markRefused_curLo (s : State) (r : RefuseReason) : (s.markRefused r).curLo = s.curLo := rfl
@[simp] theorem State.markRefused_hwCursor (s : State) (r : RefuseReason) : (s.markRefused r).hwCursor = s.hwCursor := rfl
@[simp] theorem State.markRefused_cursor (s : State) (r : RefuseReason) : (s.markRefused r).cursor = s.cursor := rfl
@[simp] theorem State.markRefused_seq (s : State) (r : RefuseReason) : (s.markRefused r).seq = s.seq := rfl
@[simp] theorem State.markRefused_fault (s : State) (r : RefuseReason) : (s.markRefused r).fault = s.fault := rfl
@[simp] theorem State.markRefused_refused (s : State) (r : RefuseReason) : (s.markRefused r).refused = some r := rfl
@[simp] theorem State.markRefused_result (s : State) (r : RefuseReason) : (s.markRefused r).result = s.result := rfl
@[simp] theorem State.markRefused_draws (s : State) (r : RefuseReason) : (s.markRefused r).draws = s.draws := rfl
@[simp] theorem State.markRefused_sched (s : State) (r : RefuseReason) : (s.markRefused r).sched = s.sched := rfl
@[simp] theorem State.markRefused_inbox (s : State) (r : RefuseReason) : (s.markRefused r).inbox = s.inbox := rfl

@[simp] theorem State.afterDraw_uart0 (s : State) : (s.afterDraw).uart0 = s.uart0 := rfl
@[simp] theorem State.afterDraw_uart1 (s : State) : (s.afterDraw).uart1 = s.uart1 := rfl
@[simp] theorem State.afterDraw_grid (s : State) : (s.afterDraw).grid = s.grid := rfl
@[simp] theorem State.afterDraw_crtcIndex (s : State) : (s.afterDraw).crtcIndex = s.crtcIndex := rfl
@[simp] theorem State.afterDraw_curHi (s : State) : (s.afterDraw).curHi = s.curHi := rfl
@[simp] theorem State.afterDraw_curLo (s : State) : (s.afterDraw).curLo = s.curLo := rfl
@[simp] theorem State.afterDraw_hwCursor (s : State) : (s.afterDraw).hwCursor = s.hwCursor := rfl
@[simp] theorem State.afterDraw_cursor (s : State) : (s.afterDraw).cursor = s.cursor := rfl
@[simp] theorem State.afterDraw_seq (s : State) : (s.afterDraw).seq = s.seq := rfl
@[simp] theorem State.afterDraw_fault (s : State) : (s.afterDraw).fault = s.fault := rfl
@[simp] theorem State.afterDraw_refused (s : State) : (s.afterDraw).refused = s.refused := rfl
@[simp] theorem State.afterDraw_result (s : State) : (s.afterDraw).result = s.result := rfl
@[simp] theorem State.afterDraw_draws (s : State) : (s.afterDraw).draws = s.draws + 1 := rfl
@[simp] theorem State.afterDraw_sched (s : State) : (s.afterDraw).sched = s.sched := rfl
@[simp] theorem State.afterDraw_inbox (s : State) : (s.afterDraw).inbox = s.inbox := rfl

@[simp] theorem State.call_uart0 (s : State) (f : Frame) : (s.call f).uart0 = s.uart0 := rfl
@[simp] theorem State.call_uart1 (s : State) (f : Frame) : (s.call f).uart1 = s.uart1 := rfl
@[simp] theorem State.call_grid (s : State) (f : Frame) : (s.call f).grid = s.grid := rfl
@[simp] theorem State.call_crtcIndex (s : State) (f : Frame) : (s.call f).crtcIndex = s.crtcIndex := rfl
@[simp] theorem State.call_curHi (s : State) (f : Frame) : (s.call f).curHi = s.curHi := rfl
@[simp] theorem State.call_curLo (s : State) (f : Frame) : (s.call f).curLo = s.curLo := rfl
@[simp] theorem State.call_hwCursor (s : State) (f : Frame) : (s.call f).hwCursor = s.hwCursor := rfl
@[simp] theorem State.call_cursor (s : State) (f : Frame) : (s.call f).cursor = s.cursor := rfl
@[simp] theorem State.call_seq (s : State) (f : Frame) : (s.call f).seq = f :: s.seq := rfl
@[simp] theorem State.call_fault (s : State) (f : Frame) : (s.call f).fault = s.fault := rfl
@[simp] theorem State.call_refused (s : State) (f : Frame) : (s.call f).refused = s.refused := rfl
@[simp] theorem State.call_result (s : State) (f : Frame) : (s.call f).result = s.result := rfl
@[simp] theorem State.call_draws (s : State) (f : Frame) : (s.call f).draws = s.draws := rfl
@[simp] theorem State.call_sched (s : State) (f : Frame) : (s.call f).sched = s.sched := rfl
@[simp] theorem State.call_inbox (s : State) (f : Frame) : (s.call f).inbox = s.inbox := rfl

@[simp] theorem State.loadCursorHigh_uart0 (s : State) (v : Byte) : (s.loadCursorHigh v).uart0 = s.uart0 := rfl
@[simp] theorem State.loadCursorHigh_uart1 (s : State) (v : Byte) : (s.loadCursorHigh v).uart1 = s.uart1 := rfl
@[simp] theorem State.loadCursorHigh_grid (s : State) (v : Byte) : (s.loadCursorHigh v).grid = s.grid := rfl
@[simp] theorem State.loadCursorHigh_crtcIndex (s : State) (v : Byte) : (s.loadCursorHigh v).crtcIndex = s.crtcIndex := rfl
@[simp] theorem State.loadCursorHigh_curHi (s : State) (v : Byte) : (s.loadCursorHigh v).curHi = some v := rfl
@[simp] theorem State.loadCursorHigh_curLo (s : State) (v : Byte) : (s.loadCursorHigh v).curLo = s.curLo := rfl
@[simp] theorem State.loadCursorHigh_hwCursor (s : State) (v : Byte) : (s.loadCursorHigh v).hwCursor = s.hwCursor := rfl
@[simp] theorem State.loadCursorHigh_cursor (s : State) (v : Byte) : (s.loadCursorHigh v).cursor = s.cursor := rfl
@[simp] theorem State.loadCursorHigh_seq (s : State) (v : Byte) : (s.loadCursorHigh v).seq = s.seq := rfl
@[simp] theorem State.loadCursorHigh_fault (s : State) (v : Byte) : (s.loadCursorHigh v).fault = s.fault := rfl
@[simp] theorem State.loadCursorHigh_refused (s : State) (v : Byte) : (s.loadCursorHigh v).refused = s.refused := rfl
@[simp] theorem State.loadCursorHigh_result (s : State) (v : Byte) : (s.loadCursorHigh v).result = s.result := rfl
@[simp] theorem State.loadCursorHigh_draws (s : State) (v : Byte) : (s.loadCursorHigh v).draws = s.draws := rfl
@[simp] theorem State.loadCursorHigh_sched (s : State) (v : Byte) : (s.loadCursorHigh v).sched = s.sched := rfl
@[simp] theorem State.loadCursorHigh_inbox (s : State) (v : Byte) : (s.loadCursorHigh v).inbox = s.inbox := rfl

@[simp] theorem State.loadCursorLow_uart0 (s : State) (v : Byte) : (s.loadCursorLow v).uart0 = s.uart0 := by
  unfold State.loadCursorLow; split <;> rfl
@[simp] theorem State.loadCursorLow_uart1 (s : State) (v : Byte) : (s.loadCursorLow v).uart1 = s.uart1 := by
  unfold State.loadCursorLow; split <;> rfl
@[simp] theorem State.loadCursorLow_grid (s : State) (v : Byte) : (s.loadCursorLow v).grid = s.grid := by
  unfold State.loadCursorLow; split <;> rfl
@[simp] theorem State.loadCursorLow_crtcIndex (s : State) (v : Byte) : (s.loadCursorLow v).crtcIndex = s.crtcIndex := by
  unfold State.loadCursorLow; split <;> rfl
@[simp] theorem State.loadCursorLow_curHi (s : State) (v : Byte) : (s.loadCursorLow v).curHi = s.curHi := by
  unfold State.loadCursorLow; split <;> rfl
@[simp] theorem State.loadCursorLow_curLo (s : State) (v : Byte) : (s.loadCursorLow v).curLo = some v := by
  unfold State.loadCursorLow; split <;> rfl
@[simp] theorem State.loadCursorLow_cursor (s : State) (v : Byte) : (s.loadCursorLow v).cursor = s.cursor := by
  unfold State.loadCursorLow; split <;> rfl
@[simp] theorem State.loadCursorLow_seq (s : State) (v : Byte) : (s.loadCursorLow v).seq = s.seq := by
  unfold State.loadCursorLow; split <;> rfl
@[simp] theorem State.loadCursorLow_fault (s : State) (v : Byte) : (s.loadCursorLow v).fault = s.fault := by
  unfold State.loadCursorLow; split <;> rfl
@[simp] theorem State.loadCursorLow_refused (s : State) (v : Byte) : (s.loadCursorLow v).refused = s.refused := by
  unfold State.loadCursorLow; split <;> rfl
@[simp] theorem State.loadCursorLow_result (s : State) (v : Byte) : (s.loadCursorLow v).result = s.result := by
  unfold State.loadCursorLow; split <;> rfl
@[simp] theorem State.loadCursorLow_draws (s : State) (v : Byte) : (s.loadCursorLow v).draws = s.draws := by
  unfold State.loadCursorLow; split <;> rfl
@[simp] theorem State.loadCursorLow_sched (s : State) (v : Byte) : (s.loadCursorLow v).sched = s.sched := by
  unfold State.loadCursorLow; split <;> rfl
@[simp] theorem State.loadCursorLow_inbox (s : State) (v : Byte) : (s.loadCursorLow v).inbox = s.inbox := by
  unfold State.loadCursorLow; split <;> rfl

@[simp] theorem State.returnByte_uart0 (s : State) (b : Byte) : (returnByte b s).uart0 = s.uart0 := rfl
@[simp] theorem State.returnByte_uart1 (s : State) (b : Byte) : (returnByte b s).uart1 = s.uart1 := rfl
@[simp] theorem State.returnByte_grid (s : State) (b : Byte) : (returnByte b s).grid = s.grid := rfl
@[simp] theorem State.returnByte_crtcIndex (s : State) (b : Byte) : (returnByte b s).crtcIndex = s.crtcIndex := rfl
@[simp] theorem State.returnByte_curHi (s : State) (b : Byte) : (returnByte b s).curHi = s.curHi := rfl
@[simp] theorem State.returnByte_curLo (s : State) (b : Byte) : (returnByte b s).curLo = s.curLo := rfl
@[simp] theorem State.returnByte_hwCursor (s : State) (b : Byte) : (returnByte b s).hwCursor = s.hwCursor := rfl
@[simp] theorem State.returnByte_cursor (s : State) (b : Byte) : (returnByte b s).cursor = s.cursor := rfl
@[simp] theorem State.returnByte_seq (s : State) (b : Byte) : (returnByte b s).seq = s.seq := rfl
@[simp] theorem State.returnByte_fault (s : State) (b : Byte) : (returnByte b s).fault = s.fault := rfl
@[simp] theorem State.returnByte_refused (s : State) (b : Byte) : (returnByte b s).refused = s.refused := rfl
@[simp] theorem State.returnByte_result (s : State) (b : Byte) : (returnByte b s).result = some (.byte b) := rfl
@[simp] theorem State.returnByte_draws (s : State) (b : Byte) : (returnByte b s).draws = s.draws := rfl
@[simp] theorem State.returnByte_sched (s : State) (b : Byte) : (returnByte b s).sched = s.sched := rfl
@[simp] theorem State.returnByte_inbox (s : State) (b : Byte) : (returnByte b s).inbox = s.inbox := rfl

@[simp] theorem State.setUart_grid (s : State) (u : UartId) (x : Uart) : (s.setUart u x).grid = s.grid := by cases u <;> rfl
@[simp] theorem State.setUart_crtcIndex (s : State) (u : UartId) (x : Uart) : (s.setUart u x).crtcIndex = s.crtcIndex := by cases u <;> rfl
@[simp] theorem State.setUart_curHi (s : State) (u : UartId) (x : Uart) : (s.setUart u x).curHi = s.curHi := by cases u <;> rfl
@[simp] theorem State.setUart_curLo (s : State) (u : UartId) (x : Uart) : (s.setUart u x).curLo = s.curLo := by cases u <;> rfl
@[simp] theorem State.setUart_hwCursor (s : State) (u : UartId) (x : Uart) : (s.setUart u x).hwCursor = s.hwCursor := by cases u <;> rfl
@[simp] theorem State.setUart_cursor (s : State) (u : UartId) (x : Uart) : (s.setUart u x).cursor = s.cursor := by cases u <;> rfl
@[simp] theorem State.setUart_seq (s : State) (u : UartId) (x : Uart) : (s.setUart u x).seq = s.seq := by cases u <;> rfl
@[simp] theorem State.setUart_fault (s : State) (u : UartId) (x : Uart) : (s.setUart u x).fault = s.fault := by cases u <;> rfl
@[simp] theorem State.setUart_refused (s : State) (u : UartId) (x : Uart) : (s.setUart u x).refused = s.refused := by cases u <;> rfl
@[simp] theorem State.setUart_result (s : State) (u : UartId) (x : Uart) : (s.setUart u x).result = s.result := by cases u <;> rfl
@[simp] theorem State.setUart_draws (s : State) (u : UartId) (x : Uart) : (s.setUart u x).draws = s.draws := by cases u <;> rfl
@[simp] theorem State.setUart_sched (s : State) (u : UartId) (x : Uart) : (s.setUart u x).sched = s.sched := by cases u <;> rfl
@[simp] theorem State.setUart_inbox (s : State) (u : UartId) (x : Uart) : (s.setUart u x).inbox = s.inbox := by cases u <;> rfl

@[simp] theorem State.placeRequest_uart0 (s : State) (r : Request) : (s.placeRequest r).uart0 = s.uart0 := rfl
@[simp] theorem State.placeRequest_uart1 (s : State) (r : Request) : (s.placeRequest r).uart1 = s.uart1 := rfl
@[simp] theorem State.placeRequest_grid (s : State) (r : Request) : (s.placeRequest r).grid = s.grid := rfl
@[simp] theorem State.placeRequest_crtcIndex (s : State) (r : Request) : (s.placeRequest r).crtcIndex = s.crtcIndex := rfl
@[simp] theorem State.placeRequest_curHi (s : State) (r : Request) : (s.placeRequest r).curHi = s.curHi := rfl
@[simp] theorem State.placeRequest_curLo (s : State) (r : Request) : (s.placeRequest r).curLo = s.curLo := rfl
@[simp] theorem State.placeRequest_hwCursor (s : State) (r : Request) : (s.placeRequest r).hwCursor = s.hwCursor := rfl
@[simp] theorem State.placeRequest_cursor (s : State) (r : Request) : (s.placeRequest r).cursor = s.cursor := rfl
@[simp] theorem State.placeRequest_seq (s : State) (r : Request) : (s.placeRequest r).seq = [] := rfl
@[simp] theorem State.placeRequest_fault (s : State) (r : Request) : (s.placeRequest r).fault = [] := rfl
@[simp] theorem State.placeRequest_refused (s : State) (r : Request) : (s.placeRequest r).refused = none := rfl
@[simp] theorem State.placeRequest_result (s : State) (r : Request) : (s.placeRequest r).result = s.result := rfl
@[simp] theorem State.placeRequest_draws (s : State) (r : Request) : (s.placeRequest r).draws = s.draws := rfl
@[simp] theorem State.placeRequest_sched (s : State) (r : Request) : (s.placeRequest r).sched = [] := rfl
@[simp] theorem State.placeRequest_inbox (s : State) (r : Request) : (s.placeRequest r).inbox = r :: s.inbox := rfl

/-! ### Updates of Uart -/

@[simp] theorem Uart.loadDivisorByte_dlh (x : Uart) (v : Byte) : (x.loadDivisorByte v).dlh = if x.dlphase then x.dlh else some v := by
  unfold Uart.loadDivisorByte; cases x.dlphase <;> rfl
@[simp] theorem Uart.loadDivisorByte_dll (x : Uart) (v : Byte) : (x.loadDivisorByte v).dll = if x.dlphase then some v else x.dll := by
  unfold Uart.loadDivisorByte; cases x.dlphase <;> rfl
@[simp] theorem Uart.loadDivisorByte_dlphase (x : Uart) (v : Byte) : (x.loadDivisorByte v).dlphase = !x.dlphase := by
  unfold Uart.loadDivisorByte; cases x.dlphase <;> rfl
@[simp] theorem Uart.loadDivisorByte_lcr (x : Uart) (v : Byte) : (x.loadDivisorByte v).lcr = x.lcr := by
  unfold Uart.loadDivisorByte; cases x.dlphase <;> rfl
@[simp] theorem Uart.loadDivisorByte_fifoEn (x : Uart) (v : Byte) : (x.loadDivisorByte v).fifoEn = x.fifoEn := by
  unfold Uart.loadDivisorByte; cases x.dlphase <;> rfl
@[simp] theorem Uart.loadDivisorByte_rxTrig (x : Uart) (v : Byte) : (x.loadDivisorByte v).rxTrig = x.rxTrig := by
  unfold Uart.loadDivisorByte; cases x.dlphase <;> rfl
@[simp] theorem Uart.loadDivisorByte_fcrMisc (x : Uart) (v : Byte) : (x.loadDivisorByte v).fcrMisc = x.fcrMisc := by
  unfold Uart.loadDivisorByte; cases x.dlphase <;> rfl
@[simp] theorem Uart.loadDivisorByte_mcr (x : Uart) (v : Byte) : (x.loadDivisorByte v).mcr = x.mcr := by
  unfold Uart.loadDivisorByte; cases x.dlphase <;> rfl
@[simp] theorem Uart.loadDivisorByte_dtr (x : Uart) (v : Byte) : (x.loadDivisorByte v).dtr = x.dtr := by
  unfold Uart.loadDivisorByte; cases x.dlphase <;> rfl
@[simp] theorem Uart.loadDivisorByte_rts (x : Uart) (v : Byte) : (x.loadDivisorByte v).rts = x.rts := by
  unfold Uart.loadDivisorByte; cases x.dlphase <;> rfl
@[simp] theorem Uart.loadDivisorByte_txfifo (x : Uart) (v : Byte) : (x.loadDivisorByte v).txfifo = x.txfifo := by
  unfold Uart.loadDivisorByte; cases x.dlphase <;> rfl
@[simp] theorem Uart.loadDivisorByte_rxfifo (x : Uart) (v : Byte) : (x.loadDivisorByte v).rxfifo = x.rxfifo := by
  unfold Uart.loadDivisorByte; cases x.dlphase <;> rfl
@[simp] theorem Uart.loadDivisorByte_line (x : Uart) (v : Byte) : (x.loadDivisorByte v).line = x.line := by
  unfold Uart.loadDivisorByte; cases x.dlphase <;> rfl

@[simp] theorem Uart.configureFifo_dlh (x : Uart) (v : Byte) : (x.configureFifo v).dlh = x.dlh := rfl
@[simp] theorem Uart.configureFifo_dll (x : Uart) (v : Byte) : (x.configureFifo v).dll = x.dll := rfl
@[simp] theorem Uart.configureFifo_dlphase (x : Uart) (v : Byte) : (x.configureFifo v).dlphase = x.dlphase := rfl
@[simp] theorem Uart.configureFifo_lcr (x : Uart) (v : Byte) : (x.configureFifo v).lcr = x.lcr := rfl
@[simp] theorem Uart.configureFifo_fifoEn (x : Uart) (v : Byte) : (x.configureFifo v).fifoEn = some (fcrEnable v) := rfl
@[simp] theorem Uart.configureFifo_rxTrig (x : Uart) (v : Byte) : (x.configureFifo v).rxTrig = some (fcrTrigger v) := rfl
@[simp] theorem Uart.configureFifo_fcrMisc (x : Uart) (v : Byte) : (x.configureFifo v).fcrMisc = some (fcrMiscBits v) := rfl
@[simp] theorem Uart.configureFifo_mcr (x : Uart) (v : Byte) : (x.configureFifo v).mcr = x.mcr := rfl
@[simp] theorem Uart.configureFifo_dtr (x : Uart) (v : Byte) : (x.configureFifo v).dtr = x.dtr := rfl
@[simp] theorem Uart.configureFifo_rts (x : Uart) (v : Byte) : (x.configureFifo v).rts = x.rts := rfl
@[simp] theorem Uart.configureFifo_txfifo (x : Uart) (v : Byte) : (x.configureFifo v).txfifo = if fcrClearTx v then [] else x.txfifo := rfl
@[simp] theorem Uart.configureFifo_rxfifo (x : Uart) (v : Byte) : (x.configureFifo v).rxfifo = if fcrClearRx v then [] else x.rxfifo := rfl
@[simp] theorem Uart.configureFifo_line (x : Uart) (v : Byte) : (x.configureFifo v).line = x.line := rfl

@[simp] theorem Uart.configureLine_dlh (x : Uart) (v : Byte) : (x.configureLine v).dlh = x.dlh := rfl
@[simp] theorem Uart.configureLine_dll (x : Uart) (v : Byte) : (x.configureLine v).dll = x.dll := rfl
@[simp] theorem Uart.configureLine_dlphase (x : Uart) (v : Byte) : (x.configureLine v).dlphase = if v.getLsbD 7 then false else x.dlphase := rfl
@[simp] theorem Uart.configureLine_lcr (x : Uart) (v : Byte) : (x.configureLine v).lcr = some v := rfl
@[simp] theorem Uart.configureLine_fifoEn (x : Uart) (v : Byte) : (x.configureLine v).fifoEn = x.fifoEn := rfl
@[simp] theorem Uart.configureLine_rxTrig (x : Uart) (v : Byte) : (x.configureLine v).rxTrig = x.rxTrig := rfl
@[simp] theorem Uart.configureLine_fcrMisc (x : Uart) (v : Byte) : (x.configureLine v).fcrMisc = x.fcrMisc := rfl
@[simp] theorem Uart.configureLine_mcr (x : Uart) (v : Byte) : (x.configureLine v).mcr = x.mcr := rfl
@[simp] theorem Uart.configureLine_dtr (x : Uart) (v : Byte) : (x.configureLine v).dtr = x.dtr := rfl
@[simp] theorem Uart.configureLine_rts (x : Uart) (v : Byte) : (x.configureLine v).rts = x.rts := rfl
@[simp] theorem Uart.configureLine_txfifo (x : Uart) (v : Byte) : (x.configureLine v).txfifo = x.txfifo := rfl
@[simp] theorem Uart.configureLine_rxfifo (x : Uart) (v : Byte) : (x.configureLine v).rxfifo = x.rxfifo := rfl
@[simp] theorem Uart.configureLine_line (x : Uart) (v : Byte) : (x.configureLine v).line = x.line := rfl

@[simp] theorem Uart.configureModem_dlh (x : Uart) (v : Byte) : (x.configureModem v).dlh = x.dlh := rfl
@[simp] theorem Uart.configureModem_dll (x : Uart) (v : Byte) : (x.configureModem v).dll = x.dll := rfl
@[simp] theorem Uart.configureModem_dlphase (x : Uart) (v : Byte) : (x.configureModem v).dlphase = x.dlphase := rfl
@[simp] theorem Uart.configureModem_lcr (x : Uart) (v : Byte) : (x.configureModem v).lcr = x.lcr := rfl
@[simp] theorem Uart.configureModem_fifoEn (x : Uart) (v : Byte) : (x.configureModem v).fifoEn = x.fifoEn := rfl
@[simp] theorem Uart.configureModem_rxTrig (x : Uart) (v : Byte) : (x.configureModem v).rxTrig = x.rxTrig := rfl
@[simp] theorem Uart.configureModem_fcrMisc (x : Uart) (v : Byte) : (x.configureModem v).fcrMisc = x.fcrMisc := rfl
@[simp] theorem Uart.configureModem_mcr (x : Uart) (v : Byte) : (x.configureModem v).mcr = some v := rfl
@[simp] theorem Uart.configureModem_dtr (x : Uart) (v : Byte) : (x.configureModem v).dtr = some (mcrDtr v) := rfl
@[simp] theorem Uart.configureModem_rts (x : Uart) (v : Byte) : (x.configureModem v).rts = some (mcrRts v) := rfl
@[simp] theorem Uart.configureModem_txfifo (x : Uart) (v : Byte) : (x.configureModem v).txfifo = x.txfifo := rfl
@[simp] theorem Uart.configureModem_rxfifo (x : Uart) (v : Byte) : (x.configureModem v).rxfifo = x.rxfifo := rfl
@[simp] theorem Uart.configureModem_line (x : Uart) (v : Byte) : (x.configureModem v).line = x.line := rfl

@[simp] theorem Uart.transmit_dlh (x : Uart) : (x.transmit).dlh = x.dlh := by
  unfold Uart.transmit; split <;> simp_all
@[simp] theorem Uart.transmit_dll (x : Uart) : (x.transmit).dll = x.dll := by
  unfold Uart.transmit; split <;> simp_all
@[simp] theorem Uart.transmit_dlphase (x : Uart) : (x.transmit).dlphase = x.dlphase := by
  unfold Uart.transmit; split <;> simp_all
@[simp] theorem Uart.transmit_lcr (x : Uart) : (x.transmit).lcr = x.lcr := by
  unfold Uart.transmit; split <;> simp_all
@[simp] theorem Uart.transmit_fifoEn (x : Uart) : (x.transmit).fifoEn = x.fifoEn := by
  unfold Uart.transmit; split <;> simp_all
@[simp] theorem Uart.transmit_rxTrig (x : Uart) : (x.transmit).rxTrig = x.rxTrig := by
  unfold Uart.transmit; split <;> simp_all
@[simp] theorem Uart.transmit_fcrMisc (x : Uart) : (x.transmit).fcrMisc = x.fcrMisc := by
  unfold Uart.transmit; split <;> simp_all
@[simp] theorem Uart.transmit_mcr (x : Uart) : (x.transmit).mcr = x.mcr := by
  unfold Uart.transmit; split <;> simp_all
@[simp] theorem Uart.transmit_dtr (x : Uart) : (x.transmit).dtr = x.dtr := by
  unfold Uart.transmit; split <;> simp_all
@[simp] theorem Uart.transmit_rts (x : Uart) : (x.transmit).rts = x.rts := by
  unfold Uart.transmit; split <;> simp_all
@[simp] theorem Uart.transmit_txfifo (x : Uart) : (x.transmit).txfifo = x.txfifo.tail := by
  unfold Uart.transmit; split <;> simp_all
@[simp] theorem Uart.transmit_rxfifo (x : Uart) : (x.transmit).rxfifo = x.rxfifo := by
  unfold Uart.transmit; split <;> simp_all
/-! ### UART[u] of an update -/

@[simp] theorem State.uart_com1 (s : State) : s.uart .com1 = s.uart0 := rfl
@[simp] theorem State.uart_com2 (s : State) : s.uart .com2 = s.uart1 := rfl

/-- The UART just replaced. -/
@[simp] theorem State.uart_setUart_same (s : State) (u : UartId) (x : Uart) : (s.setUart u x).uart u = x := by cases u <;> rfl

/-- The other UART is left alone (R20). -/
theorem State.uart_setUart_other (s : State) {u w : UartId} (x : Uart) (h : w ≠ u) : (s.setUart u x).uart w = s.uart w := by
  cases u <;> cases w <;> first | rfl | exact absurd rfl h

@[simp] theorem State.setUart_setUart (s : State) (u : UartId) (x y : Uart) : (s.setUart u x).setUart u y = s.setUart u y := by
  cases u <;> rfl

/-- Putting a UART's own registers back changes nothing. -/
@[simp] theorem State.setUart_uart (s : State) (u : UartId) : s.setUart u (s.uart u) = s := by cases u <;> rfl

/-- An update of another field leaves the UARTs alone. -/
theorem State.uart_eq_of_fields {s t : State} (h0 : t.uart0 = s.uart0) (h1 : t.uart1 = s.uart1) (u : UartId) : t.uart u = s.uart u := by
  cases u <;> assumption

@[simp] theorem keep_eq (a : Unit) (s : State) : keep a s = s := rfl
@[simp] theorem Txn.settle_done {α : Type} (a : α) (s : State) (k : α → State → State) : (Txn.done a s).settle k = .next (k a s) := rfl
@[simp] theorem Txn.settle_stopped {α : Type} (o : Host.Outcome State Fault Refusal) (k : α → State → State) :
    (Txn.stopped o : Txn α).settle k = o := rfl

end Sys2Proof.Machine
end

