-- ==== Sys2Proof/Laws/Devices.lean ====
section
/-! SUPPORT. For each shared operation of the devices, everything it can do: the address decode, the grid, the cursor hardware, the
UART and the port primitive. -/

namespace Sys2Proof.Machine

theorem cells_eq : Config.cells = 2000 := rfl
theorem windowBytes_eq : Config.windowBytes = 4000 := rfl
theorem scrollBytes_eq : Config.scrollBytes = 3840 := rfl

/-! ### The address decode (R122) -/

/-- The eight ports of a UART are claimed by it. -/
theorem claim_uart (u : UartId) (off : BitVec 3) : claim (base u + off.setWidth 16) = .uart u off := by
  cases u <;> revert off <;> decide

@[simp] theorem claim_crtcCmd : claim Config.crtcCmdPort = .crtcCmd := by decide
@[simp] theorem claim_crtcData : claim Config.crtcDataPort = .crtcData := by decide

theorem claim_data (u : UartId) : claim (registerPort (base u) Config.offData) = .uart u 0 := claim_uart u 0
theorem claim_fifo (u : UartId) : claim (registerPort (base u) Config.offFifo) = .uart u 2 := claim_uart u 2
theorem claim_line (u : UartId) : claim (registerPort (base u) Config.offLine) = .uart u 3 := claim_uart u 3
theorem claim_modem (u : UartId) : claim (registerPort (base u) Config.offModem) = .uart u 4 := claim_uart u 4
theorem claim_status (u : UartId) : claim (registerPort (base u) Config.offStatus) = .uart u 5 := claim_uart u 5

/-- Which device claims a port, read backwards. -/
theorem claim_eq_uart {port : Port} {u : UartId} {off : BitVec 3} (h : claim port = .uart u off) :
    port = base u + off.setWidth 16 := by
  have key : ∀ w : UartId, uartOffset w port = some off → port = base w + off.setWidth 16 := by
    intro w hw
    unfold uartOffset at hw
    split at hw
    · rename_i hle
      have hoff := Option.some.inj hw
      subst hoff
      have : (BitVec.ofNat 3 (port - base w).toNat).setWidth 16 = port - base w := by
        apply BitVec.eq_of_toNat_eq
        rw [BitVec.toNat_setWidth, BitVec.toNat_ofNat]
        omega
      rw [this]
      rw [BitVec.add_comm, BitVec.sub_add_cancel]
    · cases hw
  unfold claim at h
  split at h
  · rename_i o ho
    injection h with hu hof
    subst hu; subst hof
    exact key _ ho
  · split at h
    · rename_i o ho
      injection h with hu hof
      subst hu; subst hof
      exact key _ ho
    · split at h
      · cases h
      · split at h <;> cases h

/-- The cursor data port is the only port claimed so (R122). -/
theorem claim_eq_crtcData {port : Port} (h : claim port = .crtcData) : port = Config.crtcDataPort := by
  unfold claim at h
  split at h
  · cases h
  · split at h
    · cases h
    · split at h
      · cases h
      · split at h
        · assumption
        · cases h

/-! ### The port primitive at each register (R120, R121) -/

@[simp] theorem portWrite_crtcCmd (v : Byte) (s : State) : portWrite Config.crtcCmdPort v s = crtcCmdWrite v s := by
  simp [portWrite]
@[simp] theorem portWrite_crtcData (v : Byte) (s : State) : portWrite Config.crtcDataPort v s = crtcDataWrite v s := by
  simp [portWrite]
@[simp] theorem portWrite_data (u : UartId) (v : Byte) (s : State) :
    portWrite (registerPort (base u) Config.offData) v s = uartDataWrite u v s := by
  simp [portWrite, claim_data, uartWrite]
@[simp] theorem portWrite_fifo (u : UartId) (v : Byte) (s : State) :
    portWrite (registerPort (base u) Config.offFifo) v s = uartFifoWrite u v s := by
  simp [portWrite, claim_fifo, uartWrite]
@[simp] theorem portWrite_line (u : UartId) (v : Byte) (s : State) :
    portWrite (registerPort (base u) Config.offLine) v s = uartLineWrite u v s := by
  simp [portWrite, claim_line, uartWrite]
@[simp] theorem portWrite_modem (u : UartId) (v : Byte) (s : State) :
    portWrite (registerPort (base u) Config.offModem) v s = uartModemWrite u v s := by
  simp [portWrite, claim_modem, uartWrite]
@[simp] theorem portRead_status (u : UartId) (s : State) :
    portRead (registerPort (base u) Config.offStatus) s = uartStatusRead u s := by
  simp [portRead, claim_status, uartRead]

/-! ### What a transaction can do -/

/-- How a transaction that does not complete ends: with a fault taken, with the mark set, or outside the grid window. -/
inductive Stops (s : State) : Host.Outcome State Fault Refusal → Prop
  | raised (r : FaultRecord) : Stops s (.next (s.takeFault r))
  | marked (r : RefuseReason) : Stops s (.next (s.markRefused r))
  | outside (off : Nat) : Stops s (.fault (.outsideGridWindow off))

theorem gridStore_done {off : Nat} {v : Byte} {s t : State} {a : Unit} (h : gridStore off v s = .done a t) :
    off < Config.windowBytes ∧ t = { s with grid := Memory.write s.grid (gridAddr off) v } := by
  unfold gridStore at h
  split at h
  · injection h with _ ht
    exact ⟨‹_›, ht.symm⟩
  · cases h

theorem gridStore_in {off : Nat} (v : Byte) (s : State) (h : off < Config.windowBytes) :
    gridStore off v s = .done () { s with grid := Memory.write s.grid (gridAddr off) v } := by
  simp only [gridStore, if_pos h]

theorem gridStore_stopped {off : Nat} {v : Byte} {s : State} {o : Host.Outcome State Fault Refusal}
    (h : gridStore off v s = .stopped o) : Stops s o := by
  unfold gridStore at h
  split at h
  · cases h
  · injection h with h
    subst h
    exact .outside off

theorem gridRead_done {off : Nat} {s t : State} {b : Byte} (h : gridRead off s = .done b t) :
    off < Config.windowBytes ∧ Memory.read s.grid (gridAddr off) = some b ∧ t = s := by
  unfold gridRead at h
  split at h
  · split at h
    · rename_i c hc
      injection h with hb ht
      exact ⟨‹_›, by rw [hc, hb], ht.symm⟩
    · cases h
  · cases h

theorem gridRead_written {off : Nat} {s : State} {b : Byte} (h : off < Config.windowBytes)
    (hb : Memory.read s.grid (gridAddr off) = some b) : gridRead off s = .done b s := by
  simp only [gridRead, if_pos h, hb]

theorem gridRead_stopped {off : Nat} {s : State} {o : Host.Outcome State Fault Refusal}
    (h : gridRead off s = .stopped o) : Stops s o := by
  unfold gridRead at h
  split at h
  · split at h
    · cases h
    · injection h with h
      subst h
      exact .raised _
  · injection h with h
    subst h
    exact .outside off

/-- What a data-port write of the cursor hardware can do (R134 to R136). -/
theorem crtcDataWrite_cases (v : Byte) (s : State) :
    (s.crtcIndex = some Config.cursorHighCmd ∧ crtcDataWrite v s = .done () (s.loadCursorHigh v)) ∨
    (s.crtcIndex = some Config.cursorLowCmd ∧ crtcDataWrite v s = .done () (s.loadCursorLow v)) ∨
    (s.crtcIndex ≠ some Config.cursorHighCmd ∧ s.crtcIndex ≠ some Config.cursorLowCmd ∧
      crtcDataWrite v s = .stopped (.next (s.markRefused .crtcIndexNotModelled))) := by
  unfold crtcDataWrite
  split
  · exact .inl ⟨‹_›, rfl⟩
  · split
    · exact .inr (.inl ⟨‹_›, rfl⟩)
    · exact .inr (.inr ⟨‹_›, ‹_›, rfl⟩)

/-- How a write can change UART[u] (R170, R171, R173 to R175). -/
inductive UartWrites (x : Uart) : Uart → Prop
  | queue (v : Byte) (cap : Nat) (hd : x.dlab = some false) (hc : x.txcap = some cap) (hl : x.txfifo.length < cap) :
      UartWrites x { x with txfifo := x.txfifo ++ [v] }
  | divisor (v : Byte) (hd : x.dlab = some true) : UartWrites x (x.loadDivisorByte v)
  | fifo (v : Byte) (h : x.fifoEn = some (fcrEnable v) ∨ (fcrClearRx v = true ∧ fcrClearTx v = true)) :
      UartWrites x (x.configureFifo v)
  | line (v : Byte) : UartWrites x (x.configureLine v)
  | modem (v : Byte) (h : mcrLoopback v = false) : UartWrites x (x.configureModem v)

/-- Everything a UART write can do. -/
theorem uartWrite_cases (u : UartId) (off : BitVec 3) (v : Byte) (s : State) :
    (∃ x, UartWrites (s.uart u) x ∧ uartWrite u off v s = .done () (s.setUart u x)) ∨
    (∃ o, Stops s o ∧ uartWrite u off v s = .stopped o) := by
  unfold uartWrite
  split
  · unfold uartDataWrite
    split
    · exact .inr ⟨_, .raised _, rfl⟩
    · exact .inl ⟨_, .divisor v ‹_›, rfl⟩
    · split
      · exact .inr ⟨_, .raised _, rfl⟩
      · split
        · exact .inl ⟨_, .queue v _ ‹_› ‹_› ‹_›, rfl⟩
        · exact .inr ⟨_, .raised _, rfl⟩
  · unfold uartFifoWrite
    split
    · exact .inr ⟨_, .marked _, rfl⟩
    · rename_i h
      exact .inl ⟨_, .fifo v (by tauto), rfl⟩
  · exact .inl ⟨_, .line v, rfl⟩
  · unfold uartModemWrite
    split
    · exact .inr ⟨_, .marked _, rfl⟩
    · exact .inl ⟨_, .modem v (Bool.eq_false_iff.mpr ‹_›), rfl⟩
  · exact .inr ⟨_, .marked _, rfl⟩

/-- How a completed port write can change the state: one device, or nothing. -/
inductive PortWrites (s : State) : State → Prop
  | uart (u : UartId) (x : Uart) (h : UartWrites (s.uart u) x) : PortWrites s (s.setUart u x)
  | index (v : Byte) : PortWrites s { s with crtcIndex := some v }
  | high (v : Byte) (h : s.crtcIndex = some Config.cursorHighCmd) : PortWrites s (s.loadCursorHigh v)
  | low (v : Byte) (h : s.crtcIndex = some Config.cursorLowCmd) : PortWrites s (s.loadCursorLow v)
  | unclaimed : PortWrites s s

/-- Everything a port write can do (R120). -/
theorem portWrite_cases (port : Port) (v : Byte) (s : State) :
    (∃ t, PortWrites s t ∧ portWrite port v s = .done () t) ∨ (∃ o, Stops s o ∧ portWrite port v s = .stopped o) := by
  unfold portWrite
  split
  · rename_i u off _
    rcases uartWrite_cases u off v s with ⟨x, hx, h⟩ | ⟨o, ho, h⟩
    · exact .inl ⟨_, .uart u x hx, h⟩
    · exact .inr ⟨o, ho, h⟩
  · exact .inl ⟨_, .index v, rfl⟩
  · rcases crtcDataWrite_cases v s with ⟨hi, h⟩ | ⟨hi, h⟩ | ⟨_, _, h⟩
    · exact .inl ⟨_, .high v hi, h⟩
    · exact .inl ⟨_, .low v hi, h⟩
    · exact .inr ⟨_, .marked _, h⟩
  · exact .inl ⟨_, .unclaimed, rfl⟩

/-- A data-port write of the cursor hardware that completes and changes HWCURSOR is the commit of R135. -/
theorem crtcDataWrite_hwCursor {v : Byte} {s t : State} (h : crtcDataWrite v s = .done () t) (hne : t.hwCursor ≠ s.hwCursor) :
    s.crtcIndex = some Config.cursorLowCmd ∧
      ∃ hi, s.curHi = some hi ∧ t = { s with curLo := some v, hwCursor := some (hi ++ v) } := by
  rcases crtcDataWrite_cases v s with ⟨_, h'⟩ | ⟨hi, h'⟩ | ⟨_, _, h'⟩ <;> rw [h'] at h
  · cases h
    exact absurd rfl hne
  · cases h
    cases hh : s.curHi with
    | none =>
      refine absurd ?_ hne
      simp only [State.loadCursorLow, hh]
    | some b => exact ⟨hi, b, rfl, by simp only [State.loadCursorLow, hh, pair]⟩
  · cases h

/-- A port write that completes and changes HWCURSOR is the commit of R135 at the cursor data port. -/
theorem portWrite_hwCursor {port : Port} {v : Byte} {s t : State} (h : portWrite port v s = .done () t)
    (hne : t.hwCursor ≠ s.hwCursor) :
    port = Config.crtcDataPort ∧ s.crtcIndex = some Config.cursorLowCmd ∧
      ∃ hi, s.curHi = some hi ∧ t = { s with curLo := some v, hwCursor := some (hi ++ v) } := by
  cases hc : claim port with
  | uart u off =>
    simp only [portWrite, hc] at h
    rcases uartWrite_cases u off v s with ⟨x, _, h'⟩ | ⟨o, _, h'⟩ <;> rw [h'] at h
    · cases h
      exact absurd (by cases u <;> rfl) hne
    · cases h
  | crtcCmd =>
    simp only [portWrite, hc] at h
    cases h
    exact absurd rfl hne
  | crtcData =>
    simp only [portWrite, hc] at h
    exact ⟨claim_eq_crtcData hc, crtcDataWrite_hwCursor h hne⟩
  | unclaimed =>
    simp only [portWrite, hc] at h
    cases h
    exact absurd rfl hne

/-- Everything a port read can do (R121): at most a draw. -/
theorem portRead_cases (port : Port) (s : State) :
    (∃ b, portRead port s = .done b s.afterDraw) ∨ (∃ o, Stops s o ∧ portRead port s = .stopped o) := by
  unfold portRead
  split
  · unfold uartRead
    split
    · exact .inr ⟨_, .marked _, rfl⟩
    · exact .inl ⟨_, rfl⟩
    · exact .inr ⟨_, .marked _, rfl⟩
  · exact .inr ⟨_, .marked _, rfl⟩
  · exact .inr ⟨_, .marked _, rfl⟩
  · exact .inl ⟨_, rfl⟩

/-- A port write that does not complete still answers a next state: the fault taken or the mark set (R237, R240). -/
theorem portWrite_stopped {port : Port} {v : Byte} {s : State} {o : Host.Outcome State Fault Refusal}
    (h : portWrite port v s = .stopped o) : (∃ r, o = .next (s.takeFault r)) ∨ (∃ r, o = .next (s.markRefused r)) := by
  simp only [portWrite, uartWrite, uartDataWrite, uartFifoWrite, uartLineWrite, uartModemWrite, crtcCmdWrite, crtcDataWrite,
    Txn.raise, Txn.refuse] at h
  split at h <;> (try split at h) <;> (try split at h) <;> (try split at h) <;> (try split at h) <;>
    first
    | cases h; done
    | (injection h with h; exact .inl ⟨_, h.symm⟩)
    | (injection h with h; exact .inr ⟨_, h.symm⟩)

/-- A port read that does not complete sets the mark (R137, R172, R177). -/
theorem portRead_stopped {port : Port} {s : State} {o : Host.Outcome State Fault Refusal}
    (h : portRead port s = .stopped o) : ∃ r, o = .next (s.markRefused r) := by
  simp only [portRead, uartRead, uartStatusRead, Txn.refuse] at h
  split at h <;> (try split at h) <;> first
    | cases h; done
    | (injection h with h; exact ⟨_, h.symm⟩)

/-- The two UARTs' blocks of eight ports are disjoint (R8). -/
theorem uartPorts_disjoint : ∀ q ∈ Config.uartPorts Config.com1Base, q ∉ Config.uartPorts Config.com2Base := by
  simp [Config.uartPorts, Config.com1Base, Config.com2Base]

/-! ### UART writes at known registers -/

theorem uartDataWrite_queue {u : UartId} {s : State} {cap : Nat} (v : Byte) (hd : (s.uart u).dlab = some false)
    (hc : (s.uart u).txcap = some cap) (hl : (s.uart u).txfifo.length < cap) :
    uartDataWrite u v s = .done () (s.setUart u { s.uart u with txfifo := (s.uart u).txfifo ++ [v] }) := by
  simp only [uartDataWrite, hd, hc, if_pos hl]

theorem uartDataWrite_full {u : UartId} {s : State} {cap : Nat} (v : Byte) (hd : (s.uart u).dlab = some false)
    (hc : (s.uart u).txcap = some cap) (hl : ¬ (s.uart u).txfifo.length < cap) :
    uartDataWrite u v s = .stopped (.next (s.takeFault (.txOverrun u v))) := by
  simp only [uartDataWrite, hd, hc, if_neg hl, Txn.raise]

theorem uartDataWrite_divisor {u : UartId} {s : State} (v : Byte) (hd : (s.uart u).dlab = some true) :
    uartDataWrite u v s = .done () (s.setUart u ((s.uart u).loadDivisorByte v)) := by
  simp only [uartDataWrite, hd]

/-- FIFO_CFG clears both FIFOs, so it is never refused (R173). -/
@[simp] theorem uartFifoWrite_cfg (u : UartId) (s : State) :
    uartFifoWrite u Config.fifoCfg s = .done () (s.setUart u ((s.uart u).configureFifo Config.fifoCfg)) := by
  have h : fcrClearRx Config.fifoCfg = true ∧ fcrClearTx Config.fifoCfg = true := by decide
  simp [uartFifoWrite, h]

/-- MODEM_CFG has the loopback bit clear, so it is never refused (R175). -/
@[simp] theorem uartModemWrite_cfg (u : UartId) (s : State) :
    uartModemWrite u Config.modemCfg s = .done () (s.setUart u ((s.uart u).configureModem Config.modemCfg)) := by
  have h : mcrLoopback Config.modemCfg = false := by decide
  simp [uartModemWrite, h]

/-- The test of the status byte answers transmit-empty, whatever the other bits are (R176, R204). -/
@[simp] theorem statusShowsEmpty_lsr (x : Uart) (r : Byte) : statusShowsEmpty (x.lsr r) = x.transmitEmpty := by
  unfold Uart.lsr
  cases x.transmitEmpty <;> revert r <;> decide

/-! ### Bytes of a 16-bit quantity (R96, R97) -/

@[simp] theorem pair_hiByte_loByte (v : Half) : pair (hiByte v) (loByte v) = v := by
  apply BitVec.eq_of_toNat_eq
  simp only [pair, hiByte, loByte, BitVec.toNat_append, BitVec.toNat_ofNat]
  rw [← Nat.shiftLeft_add_eq_or_of_lt (by omega), Nat.shiftLeft_eq]
  have := v.isLt
  omega

@[simp] theorem loByte_pair (h l : Byte) : loByte (pair h l) = l := by
  apply BitVec.eq_of_toNat_eq
  simp only [pair, loByte, BitVec.toNat_append, BitVec.toNat_ofNat]
  rw [← Nat.shiftLeft_add_eq_or_of_lt (by omega), Nat.shiftLeft_eq]
  have := l.isLt
  omega

@[simp] theorem hiByte_pair (h l : Byte) : hiByte (pair h l) = h := by
  apply BitVec.eq_of_toNat_eq
  simp only [pair, hiByte, BitVec.toNat_append, BitVec.toNat_ofNat]
  rw [← Nat.shiftLeft_add_eq_or_of_lt (by omega), Nat.shiftLeft_eq]
  have := l.isLt
  have := h.isLt
  omega

/-- White on black is ATTR_DEFAULT (R149). -/
@[simp] theorem attrByte_default : attrByte Config.white Config.black = Config.attrDefault := by decide

end Sys2Proof.Machine
end

