-- ==== Sys2Proof/Laws/Sequencer.lean ====
section
/-! SUPPORT. What one step does: the choice of the agent, and the sequencer at each position of the commands. Every run of a command
is a chain of these lemmas. -/

namespace Sys2Proof.Machine

/-! ### Whose step it is -/

/-- A marked state has no step (R237). -/
theorem step_marked {s : State} {r : RefuseReason} (h : s.refused = some r) : step s = .refused (.markedRefused r) := by
  simp [step, markedStep, h]

/-- With no schedule left the driver side steps. -/
theorem step_driver {s : State} (hr : s.refused = none) (hs : s.sched = []) : step s = driverStep s := by
  simp [step, markedStep, agentStep, hr, hs]

/-- A scheduled step of the driver side. -/
theorem step_scheduled {s : State} {rest : List Agent} (hr : s.refused = none) (hs : s.sched = .sequencer :: rest) :
    step s = driverStep { s with sched := rest } := by
  simp [step, markedStep, agentStep, hr, hs]

/-- A scheduled step of a transmitter (R73, R178). -/
theorem step_transmitter {s : State} {u : UartId} {rest : List Agent} (hr : s.refused = none)
    (hs : s.sched = .transmitter u :: rest) :
    step s = .next (State.setUart { s with sched := rest } u (s.uart u).transmit) := by
  cases u <;> simp [step, markedStep, agentStep, hr, hs, exec, execUartTxSend, State.uart]

theorem driverStep_running {s : State} (h : s.seq ≠ []) : driverStep s = sequencerStep s := by
  simp [driverStep, State.idle, h]

theorem driverStep_idle {s : State} (h : s.seq = []) : driverStep s = callerStep s := by
  simp [driverStep, State.idle, h]

/-- While a command runs and no schedule is left, the sequencer steps (R35). -/
theorem step_running {s : State} {f : Frame} {rest : List Frame} (hr : s.refused = none) (hs : s.sched = [])
    (hq : s.seq = f :: rest) : step s = sequencerStep s := by
  rw [step_driver hr hs, driverStep_running (by simp [hq])]

/-- While a command runs, a scheduled step of the driver side is the sequencer's. -/
theorem step_scheduled_running {s : State} {f : Frame} {rest : List Frame} {tail : List Agent} (hr : s.refused = none)
    (hs : s.sched = .sequencer :: tail) (hq : s.seq = f :: rest) : step s = sequencerStep { s with sched := tail } := by
  rw [step_scheduled hr hs, driverStep_running (by simp [hq])]

/-- An idle unfaulted block accepts the caller's first request (R35). -/
theorem callerStep_accepts {s : State} {r : Request} {rest : List Request} (hf : s.fault = []) (hi : s.inbox = r :: rest) :
    callerStep s = acceptRequest r { s with inbox := rest } := by
  simp [callerStep, hf, hi]

/-- A command issued to a ready block starts running (R35). -/
theorem issue_ready {s : State} (f : Frame) (hq : s.seq = []) (hf : s.fault = []) :
    s.issue f = .next { s with seq := [f], result := none } := by
  simp [State.issue, State.accepts, hq, hf]

/-! ### Runs -/

@[simp] theorem steps_zero (s : State) : steps 0 s = .next s := rfl

theorem steps_succ {s t : State} (n : Nat) (h : step s = .next t) : steps (n + 1) s = steps n t := by
  simp [steps, h]

/-- A run of `m` steps and then of `n`. -/
theorem steps_add {s t : State} {m : Nat} (n : Nat) (h : steps m s = .next t) : steps (m + n) s = steps n t := by
  induction m generalizing s with
  | zero =>
    simp only [steps, Host.Outcome.next.injEq] at h
    simp [h]
  | succ m ih =>
    rw [Nat.add_right_comm]
    simp only [steps] at h ⊢
    split at h
    · exact ih h
    · cases h
    · cases h

theorem execThenSteps_next {i : Instr} {s t : State} (n : Nat) (h : exec i s = .next t) : execThenSteps i n s = steps n t := by
  simp [execThenSteps, h]

/-! ### The transactions a run issues -/

@[simp] theorem issued_zero (s : State) : issued 0 s = [] := rfl

/-- The transactions of one more step come first. -/
theorem issued_succ {s t : State} (n : Nat) (h : step s = .next t) : issued (n + 1) s = s.stepIssues ++ issued n t := by
  simp [issued, h]

/-- A run of `m` steps and then of `n` issues the transactions of the first and then those of the second. -/
theorem issued_add {s t : State} {m : Nat} (n : Nat) (h : steps m s = .next t) :
    issued (m + n) s = issued m s ++ issued n t := by
  induction m generalizing s with
  | zero =>
    simp only [steps, Host.Outcome.next.injEq] at h
    simp [h]
  | succ m ih =>
    rw [Nat.add_right_comm]
    simp only [steps] at h
    split at h
    · rename_i v hv
      rw [issued_succ _ hv, issued_succ _ hv, ih h, List.append_assoc]
    · cases h
    · cases h

/-- With no schedule left the step issues what the sequencer does. -/
theorem stepIssues_driver {s : State} (hs : s.sched = []) : s.stepIssues = s.issues.toList := by
  simp [State.stepIssues, hs]

/-- A scheduled step of the driver side issues what the sequencer does. -/
theorem stepIssues_scheduled {s : State} {rest : List Agent} (hs : s.sched = .sequencer :: rest) :
    s.stepIssues = s.issues.toList := by
  simp [State.stepIssues, hs]

/-- What the sequencer issues, from the stack it enters. -/
theorem issues_of_enterAll {s : State} {f : Frame} {rest : List Frame} (h : enterAll s.cursor s.seq = f :: rest) :
    s.issues = (f.micro s.cursor).transaction := by
  simp [State.issues, State.nextMicro, h]

/-- A running command's step runs its transaction. -/
theorem stepRuns_running {s : State} {f : Frame} {rest : List Frame} (hs : ∀ u tail, s.sched ≠ .transmitter u :: tail)
    (hq : s.seq = f :: rest) : s.stepRuns = s.issues := by
  unfold State.stepRuns
  split
  · exact absurd ‹_› (hs _ _)
  · simp [State.idle, hq]

/-- An idle unfaulted block's step runs the instruction its first request decodes to. -/
theorem stepRuns_idle {s : State} {r : Request} {rest : List Request} {i : Instr} (hs : ∀ u tail, s.sched ≠ .transmitter u :: tail)
    (hq : s.seq = []) (hf : s.fault = []) (hi : s.inbox = r :: rest) (hd : decode r = .ok i) : s.stepRuns = some i := by
  unfold State.stepRuns
  split
  · exact absurd ‹_› (hs _ _)
  · simp [State.idle, hq, hf, hi, hd, Except.toOption]

/-! ### The sequencer's step -/

/-- The sequencer's step from the stack it enters. -/
theorem sequencerStep_of_enterAll {s : State} {f : Frame} {rest : List Frame} (h : enterAll s.cursor s.seq = f :: rest) :
    sequencerStep s =
      match (f.micro s.cursor).run s with
      | .done b t => .next (t.moveOn f rest b)
      | .stopped o => o := by
  simp only [sequencerStep, h] <;> rfl

/-- A position at which no call stands stays where it is. -/
theorem enterAll_of_no_call {cursor : Option Half} {f : Frame} {rest : List Frame} (h : f.callee cursor = none) :
    enterAll cursor (f :: rest) = f :: rest := by
  simp [enterAll, enter, h]

/-- A call whose callee starts with an action. -/
theorem enterAll_of_call {cursor : Option Half} {f g c : Frame} {rest : List Frame} (h : f.callee cursor = some (g, c))
    (hc : c.callee cursor = none) : enterAll cursor (f :: rest) = c :: g :: rest := by
  simp [enterAll, enter, h, hc]

/-- A call whose callee starts with a call. -/
theorem enterAll_of_call_call {cursor : Option Half} {f g c g' c' : Frame} {rest : List Frame}
    (h : f.callee cursor = some (g, c)) (hc : c.callee cursor = some (g', c')) (hc' : c'.callee cursor = none) :
    enterAll cursor (f :: rest) = c' :: g' :: g :: rest := by
  simp [enterAll, enter, h, hc, hc']

@[simp] theorem returnFrom_nil (s : State) (v : Option Bool) : s.returnFrom v [] = { s with seq := [], result := v.map .bit } := rfl

/-- A caller that has more to do goes on. -/
theorem returnFrom_cons {s : State} {v : Option Bool} {f : Frame} {rest : List Frame} (h : (f.resume v).finished = false) :
    s.returnFrom v (f :: rest) = { s with seq := f.resume v :: rest } := by
  simp [State.returnFrom, h]

/-- A caller that has nothing left to do ends too. -/
theorem returnFrom_finished {s : State} {v : Option Bool} {f : Frame} {rest : List Frame} (h : (f.resume v).finished = true) :
    s.returnFrom v (f :: rest) = s.returnFrom none rest := by
  simp [State.returnFrom, h]

/-- The step at a position where no call stands. -/
theorem sequencerStep_here {s : State} {f : Frame} {rest : List Frame} (h : s.seq = f :: rest) (hc : f.callee s.cursor = none) :
    sequencerStep s =
      match (f.micro s.cursor).run s with
      | .done b t => .next (t.moveOn f rest b)
      | .stopped o => o :=
  sequencerStep_of_enterAll (by rw [h]; exact enterAll_of_no_call hc)

/-- The step at a call: it is the callee's first. -/
theorem sequencerStep_call {s : State} {f g c : Frame} {rest : List Frame} (h : s.seq = f :: rest)
    (hf : f.callee s.cursor = some (g, c)) (hc : c.callee s.cursor = none) :
    sequencerStep s =
      match (c.micro s.cursor).run s with
      | .done b t => .next (t.moveOn c (g :: rest) b)
      | .stopped o => o :=
  sequencerStep_of_enterAll (by rw [h]; exact enterAll_of_call hf hc)

/-- The step at a call whose callee begins with a call. -/
theorem sequencerStep_call_call {s : State} {f g c g' c' : Frame} {rest : List Frame} (h : s.seq = f :: rest)
    (hf : f.callee s.cursor = some (g, c)) (hc : c.callee s.cursor = some (g', c')) (hc' : c'.callee s.cursor = none) :
    sequencerStep s =
      match (c'.micro s.cursor).run s with
      | .done b t => .next (t.moveOn c' (g' :: g :: rest) b)
      | .stopped o => o :=
  sequencerStep_of_enterAll (by rw [h]; exact enterAll_of_call_call hf hc hc')

theorem charOffset_lt {k : Nat} (h : k < Config.cells) : charOffset k < Config.windowBytes := by
  simp only [charOffset, Config.windowBytes, Config.cellBytes]; omega

theorem attrOffset_lt {k : Nat} (h : k < Config.cells) : attrOffset k < Config.windowBytes := by
  simp only [attrOffset, Config.windowBytes, Config.cellBytes]; omega

section
variable {s : State} {rest : List Frame}

/-- Returning overwrites SEQ. -/
@[simp] theorem returnFrom_seq (t : State) (q : List Frame) (v : Option Bool) (fs : List Frame) :
    State.returnFrom { t with seq := q } v fs = t.returnFrom v fs := by
  induction fs generalizing v with
  | nil => rfl
  | cons f fs ih => simp only [State.returnFrom, ih]

/-- One step of a running command in a run of the driver side. -/
theorem steps_running {t : State} {f : Frame} (n : Nat) (hr : s.refused = none) (hs : s.sched = []) (hq : s.seq = f :: rest)
    (h : sequencerStep s = .next t) : steps (n + 1) s = steps n t :=
  steps_succ n ((step_running hr hs hq).trans h)

/-- The transaction of a position where no call stands. -/
theorem issues_here {f : Frame} (h : s.seq = f :: rest) (hc : f.callee s.cursor = none) :
    s.issues = (f.micro s.cursor).transaction :=
  issues_of_enterAll (by rw [h]; exact enterAll_of_no_call hc)

/-- The transaction of a call is the callee's first. -/
theorem issues_call {f g c : Frame} (h : s.seq = f :: rest) (hf : f.callee s.cursor = some (g, c))
    (hc : c.callee s.cursor = none) : s.issues = (c.micro s.cursor).transaction :=
  issues_of_enterAll (by rw [h]; exact enterAll_of_call hf hc)

/-- The transaction of a call whose callee begins with a call. -/
theorem issues_call_call {f g c g' c' : Frame} (h : s.seq = f :: rest) (hf : f.callee s.cursor = some (g, c))
    (hc : c.callee s.cursor = some (g', c')) (hc' : c'.callee s.cursor = none) :
    s.issues = (c'.micro s.cursor).transaction :=
  issues_of_enterAll (by rw [h]; exact enterAll_of_call_call hf hc hc')

/-- One step of a running command in a run of the driver side, with what it issues. -/
theorem issued_running {t : State} {f : Frame} {o : Option Instr} (n : Nat) (hr : s.refused = none) (hs : s.sched = [])
    (hq : s.seq = f :: rest) (h : sequencerStep s = .next t) (ho : s.issues = o) :
    issued (n + 1) s = o.toList ++ issued n t := by
  rw [issued_succ n ((step_running hr hs hq).trans h), stepIssues_driver hs, ho]

/-- A store at an even offset is the character store of its cell. -/
theorem transaction_charStore (k : Half) (v : Byte) :
    (Micro.store (charOffset k.toNat) v).transaction = some (.gridCharStore k v) := by
  have h0 : charOffset k.toNat % 2 = 0 := by simp only [charOffset, Config.cellBytes]; omega
  have h1 : charOffset k.toNat / 2 = k.toNat := by simp only [charOffset, Config.cellBytes]; omega
  simp only [Micro.transaction, h0, h1, if_true, BitVec.ofNat_toNat, BitVec.setWidth_eq]

/-- A store at an odd offset is the attribute store of its cell. -/
theorem transaction_attrStore (k : Half) (v : Byte) :
    (Micro.store (attrOffset k.toNat) v).transaction = some (.gridAttrStore k v) := by
  have h0 : ¬ attrOffset k.toNat % 2 = 0 := by simp only [attrOffset, Config.cellBytes]; omega
  have h1 : attrOffset k.toNat / 2 = k.toNat := by simp only [attrOffset, Config.cellBytes]; omega
  simp only [Micro.transaction, h0, h1, if_false, BitVec.ofNat_toNat, BitVec.setWidth_eq]

/-! ### `fb.write_cell` (R145) -/

theorem seq_writeCell_char {index : Half} {char : Byte} {fg bg : Nat} (h : s.seq = .writeCell index char fg bg .char :: rest)
    (hi : index.toNat < Config.cells) :
    sequencerStep s = .next { s with
      grid := Memory.write s.grid (gridAddr (charOffset index.toNat)) char
      seq := .writeCell index char fg bg .attr :: rest } := by
  rw [sequencerStep_here h rfl]
  simp [Frame.micro, Nat.not_le.mpr hi, Micro.run, gridStore_in _ _ (charOffset_lt hi), State.moveOn, Frame.after]

theorem seq_writeCell_outOfRange {index : Half} {char : Byte} {fg bg : Nat}
    (h : s.seq = .writeCell index char fg bg .char :: rest) (hi : Config.cells ≤ index.toNat) :
    sequencerStep s = .next (s.takeFault (.gridIndexOutOfRange index)) := by
  rw [sequencerStep_here h rfl]
  simp [Frame.micro, hi, Micro.run, Txn.raise]

theorem seq_writeCell_attr {index : Half} {char : Byte} {fg bg : Nat} (h : s.seq = .writeCell index char fg bg .attr :: rest)
    (hi : index.toNat < Config.cells) :
    sequencerStep s = .next (State.returnFrom
      { s with grid := Memory.write s.grid (gridAddr (attrOffset index.toNat)) (attrByte fg bg) } none rest) := by
  rw [sequencerStep_here h rfl]
  simp [Frame.micro, Micro.run, gridStore_in _ _ (attrOffset_lt hi), State.moveOn, Frame.after]

/-! ### `fb.move_cursor` (R146) -/

theorem seq_moveCursor_highCmd {pos : Half} (h : s.seq = .moveCursor pos .highCmd :: rest) (hp : pos.toNat ≤ Config.cells) :
    sequencerStep s = .next { s with
      crtcIndex := some Config.cursorHighCmd
      seq := .moveCursor pos .highData :: rest } := by
  rw [sequencerStep_here h rfl]
  simp [Frame.micro, Nat.not_lt.mpr hp, Micro.run, crtcCmdWrite, State.moveOn, Frame.after]

theorem seq_moveCursor_outOfRange {pos : Half} (h : s.seq = .moveCursor pos .highCmd :: rest) (hp : Config.cells < pos.toNat) :
    sequencerStep s = .next (s.takeFault (.cursorOutOfRange pos)) := by
  rw [sequencerStep_here h rfl]
  simp [Frame.micro, hp, Micro.run, Txn.raise]

theorem seq_moveCursor_highData {pos : Half} (h : s.seq = .moveCursor pos .highData :: rest)
    (hi : s.crtcIndex = some Config.cursorHighCmd) :
    sequencerStep s = .next { s with curHi := some (hiByte pos), seq := .moveCursor pos .lowCmd :: rest } := by
  rw [sequencerStep_here h rfl]
  simp [Frame.micro, Micro.run, crtcDataWrite, hi, State.loadCursorHigh, State.moveOn, Frame.after]

theorem seq_moveCursor_lowCmd {pos : Half} (h : s.seq = .moveCursor pos .lowCmd :: rest) :
    sequencerStep s = .next { s with
      crtcIndex := some Config.cursorLowCmd
      seq := .moveCursor pos .lowData :: rest } := by
  rw [sequencerStep_here h rfl]
  simp [Frame.micro, Micro.run, crtcCmdWrite, State.moveOn, Frame.after]

theorem seq_moveCursor_lowData {pos : Half} {hi : Byte} (h : s.seq = .moveCursor pos .lowData :: rest)
    (hi' : s.crtcIndex = some Config.cursorLowCmd) (hh : s.curHi = some hi) :
    sequencerStep s = .next { s with
      curLo := some (loByte pos)
      hwCursor := some (pair hi (loByte pos))
      seq := .moveCursor pos .record :: rest } := by
  have hne : Config.cursorLowCmd ≠ Config.cursorHighCmd := by decide
  rw [sequencerStep_here h rfl]
  simp [Frame.micro, Micro.run, crtcDataWrite, hi', hne, State.loadCursorLow, hh, State.moveOn, Frame.after]

theorem seq_moveCursor_record {pos : Half} (h : s.seq = .moveCursor pos .record :: rest) :
    sequencerStep s = .next (State.returnFrom { s with cursor := some pos } none rest) := by
  rw [sequencerStep_here h rfl]
  simp [Frame.micro, Micro.run, State.moveOn, Frame.after]

/-- The five steps of `fb.move_cursor` from its first position, with no schedule left. -/
theorem steps_moveCursor {pos : Half} (hr : s.refused = none) (hs : s.sched = [])
    (h : s.seq = .moveCursor pos .highCmd :: rest) (hp : pos.toNat ≤ Config.cells) :
    steps 5 s = .next (State.returnFrom { s with
      crtcIndex := some Config.cursorLowCmd
      curHi := some (hiByte pos)
      curLo := some (loByte pos)
      hwCursor := some pos
      cursor := some pos } none rest) := by
  refine (steps_running 4 hr hs h (seq_moveCursor_highCmd h hp)).trans ?_
  refine (steps_running 3 (by exact hr) (by exact hs) rfl (seq_moveCursor_highData rfl rfl)).trans ?_
  refine (steps_running 2 (by exact hr) (by exact hs) rfl (seq_moveCursor_lowCmd rfl)).trans ?_
  refine (steps_running 1 (by exact hr) (by exact hs) rfl (seq_moveCursor_lowData rfl rfl rfl)).trans ?_
  refine (steps_running 0 (by exact hr) (by exact hs) rfl (seq_moveCursor_record rfl)).trans ?_
  rw [steps_zero, pair_hiByte_loByte, ← returnFrom_seq (q := s.seq)]

/-! ### `fb.write` (R147 to R149) -/

theorem seq_fbWrite_cursorUnwritten {text : List Byte} {i : Nat} (h : s.seq = .fbWrite text (.head i) :: rest)
    (hc : s.cursor = none) : sequencerStep s = .next (s.takeFault (.unwrittenState .cursor)) := by
  rw [sequencerStep_here h (by simp [Frame.callee, hc])]
  simp [Frame.micro, hc, Micro.run, Txn.raise]

theorem seq_fbWrite_newline {text : List Byte} {i : Nat} {c : Half} (h : s.seq = .fbWrite text (.head i) :: rest)
    (hc : s.cursor = some c) (hi : i < text.length) (hlt : c.toNat < Config.cells) (hn : text.getD i 0 = Config.newline) :
    sequencerStep s = .next { s with cursor := some (cursorNewline c), seq := .fbWrite text (.advance i) :: rest } := by
  rw [sequencerStep_here h (by simp only [Frame.callee, hc, hi, Nat.not_le.mpr hlt, writeBody, hn, if_true, if_false])]
  simp [Frame.micro, hc, Micro.run, State.moveOn, Frame.after]

theorem seq_fbWrite_char {text : List Byte} {i : Nat} {c : Half} (h : s.seq = .fbWrite text (.head i) :: rest)
    (hc : s.cursor = some c) (hi : i < text.length) (hlt : c.toNat < Config.cells) (hn : text.getD i 0 ≠ Config.newline) :
    sequencerStep s = .next { s with
      grid := Memory.write s.grid (gridAddr (charOffset c.toNat)) (text.getD i 0)
      seq := .writeCell c (text.getD i 0) Config.white Config.black .attr :: .fbWrite text (.advance i) :: rest } := by
  rw [sequencerStep_call h (g := .fbWrite text (.advance i)) (c := .writeCell c (text.getD i 0) Config.white Config.black .char)
    (by simp only [Frame.callee, hc, hi, Nat.not_le.mpr hlt, writeBody, hn, if_true, if_false]) rfl]
  simp [Frame.micro, Nat.not_le.mpr hlt, Micro.run, gridStore_in _ _ (charOffset_lt hlt), State.moveOn, Frame.after]

theorem seq_fbWrite_bodyNewline {text : List Byte} {i : Nat} {c : Half} (h : s.seq = .fbWrite text (.body i) :: rest)
    (hc : s.cursor = some c) (hn : text.getD i 0 = Config.newline) :
    sequencerStep s = .next { s with cursor := some (cursorNewline c), seq := .fbWrite text (.advance i) :: rest } := by
  rw [sequencerStep_here h (by simp only [Frame.callee, hc, writeBody, hn, if_true])]
  simp [Frame.micro, hc, Micro.run, State.moveOn, Frame.after]

theorem seq_fbWrite_bodyChar {text : List Byte} {i : Nat} {c : Half} (h : s.seq = .fbWrite text (.body i) :: rest)
    (hc : s.cursor = some c) (hlt : c.toNat < Config.cells) (hn : text.getD i 0 ≠ Config.newline) :
    sequencerStep s = .next { s with
      grid := Memory.write s.grid (gridAddr (charOffset c.toNat)) (text.getD i 0)
      seq := .writeCell c (text.getD i 0) Config.white Config.black .attr :: .fbWrite text (.advance i) :: rest } := by
  rw [sequencerStep_call h (g := .fbWrite text (.advance i)) (c := .writeCell c (text.getD i 0) Config.white Config.black .char)
    (by simp only [Frame.callee, hc, writeBody, hn, if_false]) rfl]
  simp [Frame.micro, Nat.not_le.mpr hlt, Micro.run, gridStore_in _ _ (charOffset_lt hlt), State.moveOn, Frame.after]

theorem seq_fbWrite_advance {text : List Byte} {i : Nat} {c : Half} (h : s.seq = .fbWrite text (.advance i) :: rest)
    (hc : s.cursor = some c) :
    sequencerStep s = .next { s with cursor := some (cursorAdvance c), seq := .fbWrite text (.head (i + 1)) :: rest } := by
  rw [sequencerStep_here h rfl]
  simp [Frame.micro, hc, Micro.run, State.moveOn, Frame.after]

theorem seq_fbWrite_end {text : List Byte} {i : Nat} {c : Half} (h : s.seq = .fbWrite text (.head i) :: rest)
    (hc : s.cursor = some c) (hi : text.length ≤ i) (hle : c.toNat ≤ Config.cells) :
    sequencerStep s = .next { s with
      crtcIndex := some Config.cursorHighCmd
      seq := .moveCursor c .highData :: .fbWrite text .final :: rest } := by
  rw [sequencerStep_call h (g := .fbWrite text .final) (c := .moveCursor c .highCmd)
    (by simp only [Frame.callee, hc, Nat.not_lt.mpr hi, if_false]) rfl]
  simp [Frame.micro, Nat.not_lt.mpr hle, Micro.run, crtcCmdWrite, State.moveOn, Frame.after]

/-- The scroll comes first: its first load is the step (R150). -/
theorem seq_fbWrite_scroll {text : List Byte} {i : Nat} {c : Half} {b : Byte} (h : s.seq = .fbWrite text (.head i) :: rest)
    (hc : s.cursor = some c) (hi : i < text.length) (hge : Config.cells ≤ c.toNat)
    (hb : Memory.read s.grid (gridAddr (Config.cellBytes * Config.width)) = some b) :
    sequencerStep s = .next { s with seq := .scroll (.store 0 b) :: .fbWrite text (.body i) :: rest } := by
  have hw : Config.cellBytes * Config.width < Config.windowBytes := by decide
  have hs : scrollStart = .load 0 := by decide
  rw [sequencerStep_call h (g := .fbWrite text (.body i)) (c := .scroll (.load 0))
    (by simp only [Frame.callee, hc, hi, hge, if_true, hs]) rfl]
  simp [Frame.micro, Micro.run, gridRead_written hw hb, State.moveOn, Frame.after]

theorem seq_fbWrite_scrollUnwritten {text : List Byte} {i : Nat} {c : Half} (h : s.seq = .fbWrite text (.head i) :: rest)
    (hc : s.cursor = some c) (hi : i < text.length) (hge : Config.cells ≤ c.toNat)
    (hb : Memory.read s.grid (gridAddr (Config.cellBytes * Config.width)) = none) :
    sequencerStep s = .next (s.takeFault (.unwrittenState (.gridByte (Config.cellBytes * Config.width)))) := by
  have hw : Config.cellBytes * Config.width < Config.windowBytes := by decide
  have hs : scrollStart = .load 0 := by decide
  rw [sequencerStep_call h (g := .fbWrite text (.body i)) (c := .scroll (.load 0))
    (by simp only [Frame.callee, hc, hi, hge, if_true, hs]) rfl]
  simp [Frame.micro, Micro.run, gridRead, hw, hb, Txn.raise]

/-! ### `fb.scroll` (R150) -/

theorem seq_scroll_load {off : Nat} {b : Byte} (h : s.seq = .scroll (.load off) :: rest) (ho : off < Config.scrollBytes)
    (hb : Memory.read s.grid (gridAddr (off + Config.cellBytes * Config.width)) = some b) :
    sequencerStep s = .next { s with seq := .scroll (.store off b) :: rest } := by
  have hw : off + Config.cellBytes * Config.width < Config.windowBytes := by
    rw [scrollBytes_eq] at ho
    rw [windowBytes_eq, show Config.cellBytes * Config.width = 160 from rfl]
    omega
  rw [sequencerStep_here h rfl]
  simp [Frame.micro, Micro.run, gridRead_written hw hb, State.moveOn, Frame.after]

theorem seq_scroll_store {off : Nat} {b : Byte} (h : s.seq = .scroll (.store off b) :: rest) (ho : off < Config.scrollBytes) :
    sequencerStep s = .next { s with
      grid := Memory.write s.grid (gridAddr off) b
      seq := .scroll (scrollNext off) :: rest } := by
  have hw : off < Config.windowBytes := by
    rw [scrollBytes_eq] at ho
    rw [windowBytes_eq]
    omega
  rw [sequencerStep_here h rfl]
  simp [Frame.micro, Micro.run, gridStore_in _ _ hw, State.moveOn, Frame.after]

theorem seq_scroll_blank {k : Nat} (h : s.seq = .scroll (.blank k) :: rest) (hk : k < Config.cells) :
    sequencerStep s = .next { s with
      grid := Memory.write s.grid (gridAddr (charOffset k)) Config.blankChar
      seq := .writeCell (BitVec.ofNat 16 k) Config.blankChar Config.white Config.black .attr :: .scroll (.blank (k + 1)) :: rest } := by
  have hm : (BitVec.ofNat 16 k).toNat = k := by rw [cells_eq] at hk; rw [BitVec.toNat_ofNat]; omega
  rw [sequencerStep_call h (g := .scroll (.blank (k + 1)))
    (c := .writeCell (BitVec.ofNat 16 k) Config.blankChar Config.white Config.black .char)
    (by simp only [Frame.callee, hk, if_true]) rfl]
  simp [Frame.micro, -BitVec.toNat_ofNat, hm, Nat.not_le.mpr hk, Micro.run, gridStore_in _ _ (charOffset_lt hk), State.moveOn, Frame.after]

theorem seq_scroll_adjust {k : Nat} {c : Half} (h : s.seq = .scroll (.blank k) :: rest) (hk : Config.cells ≤ k)
    (hc : s.cursor = some c) :
    sequencerStep s = .next (State.returnFrom { s with cursor := some (cursorUp c) } none rest) := by
  rw [sequencerStep_here h (by simp only [Frame.callee, Nat.not_lt.mpr hk, if_false])]
  simp [Frame.micro, hc, Micro.run, State.moveOn, Frame.after]

/-! ### `fb.clear` (R151) -/

theorem seq_clear_blank {k : Nat} (h : s.seq = .clear (.blank k) :: rest) (hk : k < Config.cells) :
    sequencerStep s = .next { s with
      grid := Memory.write s.grid (gridAddr (charOffset k)) Config.blankChar
      seq := .writeCell (BitVec.ofNat 16 k) Config.blankChar Config.white Config.black .attr :: .clear (.blank (k + 1)) :: rest } := by
  have hm : (BitVec.ofNat 16 k).toNat = k := by rw [cells_eq] at hk; rw [BitVec.toNat_ofNat]; omega
  rw [sequencerStep_call h (g := .clear (.blank (k + 1)))
    (c := .writeCell (BitVec.ofNat 16 k) Config.blankChar Config.white Config.black .char)
    (by simp only [Frame.callee, hk, if_true]) rfl]
  simp [Frame.micro, -BitVec.toNat_ofNat, hm, Nat.not_le.mpr hk, Micro.run, gridStore_in _ _ (charOffset_lt hk), State.moveOn, Frame.after]

theorem seq_clear_home {k : Nat} (h : s.seq = .clear (.blank k) :: rest) (hk : Config.cells ≤ k) :
    sequencerStep s = .next { s with cursor := some 0, seq := .clear .move :: rest } := by
  rw [sequencerStep_here h (by simp only [Frame.callee, Nat.not_lt.mpr hk, if_false])]
  simp [Frame.micro, Micro.run, State.moveOn, Frame.after]

theorem seq_clear_move (h : s.seq = .clear .move :: rest) :
    sequencerStep s = .next { s with
      crtcIndex := some Config.cursorHighCmd
      seq := .moveCursor 0 .highData :: .clear .final :: rest } := by
  rw [sequencerStep_call h (g := .clear .final) (c := .moveCursor 0 .highCmd) rfl rfl]
  simp [Frame.micro, Micro.run, crtcCmdWrite, State.moveOn, Frame.after, cells_eq]

/-! ### The serial commands (R200 to R206) -/

theorem seq_configureBaud_enable {port : Port} {d : Half} {t : State} (h : s.seq = .configureBaud port d .enable :: rest)
    (hw : portWrite (registerPort port Config.offLine) Config.dlabEnableByte s = .done () t) :
    sequencerStep s = .next { t with seq := .configureBaud port d .high :: rest } := by
  rw [sequencerStep_here h rfl]
  simp [Frame.micro, Micro.run, hw, State.moveOn, Frame.after]

theorem seq_configureBaud_high {port : Port} {d : Half} {t : State} (h : s.seq = .configureBaud port d .high :: rest)
    (hw : portWrite (registerPort port Config.offData) (hiByte d) s = .done () t) :
    sequencerStep s = .next { t with seq := .configureBaud port d .low :: rest } := by
  rw [sequencerStep_here h rfl]
  simp [Frame.micro, Micro.run, hw, State.moveOn, Frame.after]

theorem seq_configureBaud_low {port : Port} {d : Half} {t : State} (h : s.seq = .configureBaud port d .low :: rest)
    (hw : portWrite (registerPort port Config.offData) (loByte d) s = .done () t) :
    sequencerStep s = .next (t.returnFrom none rest) := by
  rw [sequencerStep_here h rfl]
  simp [Frame.micro, Micro.run, hw, State.moveOn, Frame.after]

theorem seq_configureLine {port : Port} {t : State} (h : s.seq = .configureLine port :: rest)
    (hw : portWrite (registerPort port Config.offLine) Config.line8N1 s = .done () t) :
    sequencerStep s = .next (t.returnFrom none rest) := by
  rw [sequencerStep_here h rfl]
  simp [Frame.micro, Micro.run, hw, State.moveOn, Frame.after]

theorem seq_configureBuffer {port : Port} {t : State} (h : s.seq = .configureBuffer port :: rest)
    (hw : portWrite (registerPort port Config.offFifo) Config.fifoCfg s = .done () t) :
    sequencerStep s = .next (t.returnFrom none rest) := by
  rw [sequencerStep_here h rfl]
  simp [Frame.micro, Micro.run, hw, State.moveOn, Frame.after]

theorem seq_configureModem {port : Port} {t : State} (h : s.seq = .configureModem port :: rest)
    (hw : portWrite (registerPort port Config.offModem) Config.modemCfg s = .done () t) :
    sequencerStep s = .next (t.returnFrom none rest) := by
  rw [sequencerStep_here h rfl]
  simp [Frame.micro, Micro.run, hw, State.moveOn, Frame.after]

theorem seq_isTxEmpty {port : Port} {b : Byte} {t : State} (h : s.seq = .isTxEmpty port :: rest)
    (hr : portRead (registerPort port Config.offStatus) s = .done b t) :
    sequencerStep s = .next (t.returnFrom (some (statusShowsEmpty b)) rest) := by
  rw [sequencerStep_here h rfl]
  simp [Frame.micro, Micro.run, hr, State.moveOn, Frame.after]

theorem seq_init_baud {port : Port} {t : State} (h : s.seq = .init port .baud :: rest)
    (hw : portWrite (registerPort port Config.offLine) Config.dlabEnableByte s = .done () t) :
    sequencerStep s = .next { t with seq := .configureBaud port Config.initDivisor .high :: .init port .line :: rest } := by
  rw [sequencerStep_call h (g := .init port .line) (c := .configureBaud port Config.initDivisor .enable) rfl rfl]
  simp [Frame.micro, Micro.run, hw, State.moveOn, Frame.after]

theorem seq_init_line {port : Port} {t : State} (h : s.seq = .init port .line :: rest)
    (hw : portWrite (registerPort port Config.offLine) Config.line8N1 s = .done () t) :
    sequencerStep s = .next { t with seq := .init port .buffer :: rest } := by
  rw [sequencerStep_call h (g := .init port .buffer) (c := .configureLine port) rfl rfl]
  simp [Frame.micro, Micro.run, hw, State.moveOn, Frame.after, State.returnFrom, Frame.resume, Frame.finished]

theorem seq_init_buffer {port : Port} {t : State} (h : s.seq = .init port .buffer :: rest)
    (hw : portWrite (registerPort port Config.offFifo) Config.fifoCfg s = .done () t) :
    sequencerStep s = .next { t with seq := .init port .modem :: rest } := by
  rw [sequencerStep_call h (g := .init port .modem) (c := .configureBuffer port) rfl rfl]
  simp [Frame.micro, Micro.run, hw, State.moveOn, Frame.after, State.returnFrom, Frame.resume, Frame.finished]

theorem seq_init_modem {port : Port} {t : State} (h : s.seq = .init port .modem :: rest)
    (hw : portWrite (registerPort port Config.offModem) Config.modemCfg s = .done () t) :
    sequencerStep s = .next (t.returnFrom none rest) := by
  rw [sequencerStep_call h (g := .init port .final) (c := .configureModem port) rfl rfl]
  simp [Frame.micro, Micro.run, hw, State.moveOn, Frame.after, State.returnFrom, Frame.resume, Frame.finished]

/-- One turn of the spin is one status read (R206). -/
theorem seq_serialWrite_spin {port : Port} {text : List Byte} {b : Byte} {t : State}
    (h : s.seq = .serialWrite port text .spin :: rest)
    (hr : portRead (registerPort port Config.offStatus) s = .done b t) :
    sequencerStep s =
      .next { t with seq := .serialWrite port text (if statusShowsEmpty b then .init else .spin) :: rest } := by
  rw [sequencerStep_call h (g := .serialWrite port text .spin) (c := .isTxEmpty port) rfl rfl]
  cases hb : statusShowsEmpty b <;>
    simp [Frame.micro, Micro.run, hr, hb, State.moveOn, Frame.after, State.returnFrom, Frame.resume, Frame.finished]

theorem seq_serialWrite_init {port : Port} {text : List Byte} {t : State} (h : s.seq = .serialWrite port text .init :: rest)
    (hw : portWrite (registerPort port Config.offLine) Config.dlabEnableByte s = .done () t) :
    sequencerStep s = .next { t with
      seq := .configureBaud port Config.initDivisor .high :: .init port .line :: .serialWrite port text (.payload 0) :: rest } := by
  rw [sequencerStep_call_call h (g := .serialWrite port text (.payload 0)) (c := .init port .baud) (g' := .init port .line)
    (c' := .configureBaud port Config.initDivisor .enable) rfl rfl rfl]
  simp [Frame.micro, Micro.run, hw, State.moveOn, Frame.after]

theorem seq_serialWrite_payload {port : Port} {text : List Byte} {i : Nat} {t : State}
    (h : s.seq = .serialWrite port text (.payload i) :: rest) (hi : i + 1 < text.length)
    (hw : portWrite (registerPort port Config.offData) (text.getD i 0) s = .done () t) :
    sequencerStep s = .next { t with seq := .serialWrite port text (.payload (i + 1)) :: rest } := by
  rw [sequencerStep_here h rfl]
  simp only [Frame.micro, Micro.run, hw, State.moveOn, Frame.after, hi, if_true]

theorem seq_serialWrite_lastPayload {port : Port} {text : List Byte} {i : Nat} {t : State}
    (h : s.seq = .serialWrite port text (.payload i) :: rest) (hi : text.length ≤ i + 1)
    (hw : portWrite (registerPort port Config.offData) (text.getD i 0) s = .done () t) :
    sequencerStep s = .next (t.returnFrom none rest) := by
  rw [sequencerStep_here h rfl]
  simp only [Frame.micro, Micro.run, hw, State.moveOn, Frame.after, Nat.not_lt.mpr hi, if_false]

/-! ### What each position issues -/

theorem issues_writeCell_char {index : Half} {char : Byte} {fg bg : Nat} (h : s.seq = .writeCell index char fg bg .char :: rest)
    (hi : index.toNat < Config.cells) : s.issues = some (.gridCharStore index char) :=
  (issues_here h rfl).trans (by
    simp only [Frame.micro, if_neg (Nat.not_le.mpr hi)]
    exact transaction_charStore index char)

theorem issues_writeCell_outOfRange {index : Half} {char : Byte} {fg bg : Nat}
    (h : s.seq = .writeCell index char fg bg .char :: rest) (hi : Config.cells ≤ index.toNat) : s.issues = none :=
  (issues_here h rfl).trans (by simp only [Frame.micro, if_pos hi, Micro.transaction])

theorem issues_writeCell_attr {index : Half} {char : Byte} {fg bg : Nat} (h : s.seq = .writeCell index char fg bg .attr :: rest) :
    s.issues = some (.gridAttrStore index (attrByte fg bg)) :=
  (issues_here h rfl).trans (transaction_attrStore index (attrByte fg bg))

theorem issues_moveCursor_highCmd {pos : Half} (h : s.seq = .moveCursor pos .highCmd :: rest) (hp : pos.toNat ≤ Config.cells) :
    s.issues = some (.portWrite Config.crtcCmdPort Config.cursorHighCmd) :=
  (issues_here h rfl).trans (by simp only [Frame.micro, if_neg (Nat.not_lt.mpr hp), Micro.transaction])

theorem issues_moveCursor_outOfRange {pos : Half} (h : s.seq = .moveCursor pos .highCmd :: rest)
    (hp : Config.cells < pos.toNat) : s.issues = none :=
  (issues_here h rfl).trans (by simp only [Frame.micro, if_pos hp, Micro.transaction])

theorem issues_moveCursor_highData {pos : Half} (h : s.seq = .moveCursor pos .highData :: rest) :
    s.issues = some (.portWrite Config.crtcDataPort (hiByte pos)) := issues_here h rfl

theorem issues_moveCursor_lowCmd {pos : Half} (h : s.seq = .moveCursor pos .lowCmd :: rest) :
    s.issues = some (.portWrite Config.crtcCmdPort Config.cursorLowCmd) := issues_here h rfl

theorem issues_moveCursor_lowData {pos : Half} (h : s.seq = .moveCursor pos .lowData :: rest) :
    s.issues = some (.portWrite Config.crtcDataPort (loByte pos)) := issues_here h rfl

theorem issues_moveCursor_record {pos : Half} (h : s.seq = .moveCursor pos .record :: rest) : s.issues = none := issues_here h rfl

/-- The four writes of `fb.move_cursor` from its first position. -/
theorem issued_moveCursor {pos : Half} (hr : s.refused = none) (hs : s.sched = []) (h : s.seq = .moveCursor pos .highCmd :: rest)
    (hp : pos.toNat ≤ Config.cells) : issued 5 s = cursorWrites pos := by
  rw [issued_running 4 hr hs h (seq_moveCursor_highCmd h hp) (issues_moveCursor_highCmd h hp),
    issued_running 3 (by exact hr) (by exact hs) rfl (seq_moveCursor_highData rfl rfl) (issues_moveCursor_highData rfl),
    issued_running 2 (by exact hr) (by exact hs) rfl (seq_moveCursor_lowCmd rfl) (issues_moveCursor_lowCmd rfl),
    issued_running 1 (by exact hr) (by exact hs) rfl (seq_moveCursor_lowData rfl rfl rfl) (issues_moveCursor_lowData rfl),
    issued_running 0 (by exact hr) (by exact hs) rfl (seq_moveCursor_record rfl) (issues_moveCursor_record rfl)]
  rfl

theorem issues_fbWrite_cursorUnwritten {text : List Byte} {i : Nat} (h : s.seq = .fbWrite text (.head i) :: rest)
    (hc : s.cursor = none) : s.issues = none :=
  (issues_here h (by simp [Frame.callee, hc])).trans (by simp only [Frame.micro, hc, Micro.transaction])

theorem issues_fbWrite_newline {text : List Byte} {i : Nat} {c : Half} (h : s.seq = .fbWrite text (.head i) :: rest)
    (hc : s.cursor = some c) (hi : i < text.length) (hlt : c.toNat < Config.cells) (hn : text.getD i 0 = Config.newline) :
    s.issues = none :=
  (issues_here h (by simp only [Frame.callee, hc, hi, Nat.not_le.mpr hlt, writeBody, hn, if_true, if_false])).trans
    (by simp only [Frame.micro, hc, Micro.transaction])

theorem issues_fbWrite_char {text : List Byte} {i : Nat} {c : Half} (h : s.seq = .fbWrite text (.head i) :: rest)
    (hc : s.cursor = some c) (hi : i < text.length) (hlt : c.toNat < Config.cells) (hn : text.getD i 0 ≠ Config.newline) :
    s.issues = some (.gridCharStore c (text.getD i 0)) :=
  (issues_call h (g := .fbWrite text (.advance i)) (c := .writeCell c (text.getD i 0) Config.white Config.black .char)
    (by simp only [Frame.callee, hc, hi, Nat.not_le.mpr hlt, writeBody, hn, if_true, if_false]) rfl).trans (by
      simp only [Frame.micro, if_neg (Nat.not_le.mpr hlt)]
      exact transaction_charStore c _)

theorem issues_fbWrite_bodyNewline {text : List Byte} {i : Nat} {c : Half} (h : s.seq = .fbWrite text (.body i) :: rest)
    (hc : s.cursor = some c) (hn : text.getD i 0 = Config.newline) : s.issues = none :=
  (issues_here h (by simp only [Frame.callee, hc, writeBody, hn, if_true])).trans
    (by simp only [Frame.micro, hc, Micro.transaction])

theorem issues_fbWrite_bodyChar {text : List Byte} {i : Nat} {c : Half} (h : s.seq = .fbWrite text (.body i) :: rest)
    (hc : s.cursor = some c) (hlt : c.toNat < Config.cells) (hn : text.getD i 0 ≠ Config.newline) :
    s.issues = some (.gridCharStore c (text.getD i 0)) :=
  (issues_call h (g := .fbWrite text (.advance i)) (c := .writeCell c (text.getD i 0) Config.white Config.black .char)
    (by simp only [Frame.callee, hc, writeBody, hn, if_false]) rfl).trans (by
      simp only [Frame.micro, if_neg (Nat.not_le.mpr hlt)]
      exact transaction_charStore c _)

/-- A newline is processed alike at the loop head, with no scroll due, and after a scroll (R148, R150). -/
theorem seq_fbWrite_newlineAt {text : List Byte} {i : Nat} {loc : WriteAt} {c : Half} (hl : loc = .head i ∨ loc = .body i)
    (h : s.seq = .fbWrite text loc :: rest) (hc : s.cursor = some c) (hi : i < text.length) (hlt : c.toNat < Config.cells)
    (hn : text.getD i 0 = Config.newline) :
    sequencerStep s = .next { s with cursor := some (cursorNewline c), seq := .fbWrite text (.advance i) :: rest } ∧
      s.issues = none := by
  rcases hl with rfl | rfl
  · exact ⟨seq_fbWrite_newline h hc hi hlt hn, issues_fbWrite_newline h hc hi hlt hn⟩
  · exact ⟨seq_fbWrite_bodyNewline h hc hn, issues_fbWrite_bodyNewline h hc hn⟩

/-- A character is processed alike at the loop head, with no scroll due, and after a scroll (R149, R150). -/
theorem seq_fbWrite_charAt {text : List Byte} {i : Nat} {loc : WriteAt} {c : Half} (hl : loc = .head i ∨ loc = .body i)
    (h : s.seq = .fbWrite text loc :: rest) (hc : s.cursor = some c) (hi : i < text.length) (hlt : c.toNat < Config.cells)
    (hn : text.getD i 0 ≠ Config.newline) :
    sequencerStep s = .next { s with
      grid := Memory.write s.grid (gridAddr (charOffset c.toNat)) (text.getD i 0)
      seq := .writeCell c (text.getD i 0) Config.white Config.black .attr :: .fbWrite text (.advance i) :: rest } ∧
      s.issues = some (.gridCharStore c (text.getD i 0)) := by
  rcases hl with rfl | rfl
  · exact ⟨seq_fbWrite_char h hc hi hlt hn, issues_fbWrite_char h hc hi hlt hn⟩
  · exact ⟨seq_fbWrite_bodyChar h hc hlt hn, issues_fbWrite_bodyChar h hc hlt hn⟩

theorem issues_fbWrite_advance {text : List Byte} {i : Nat} {c : Half} (h : s.seq = .fbWrite text (.advance i) :: rest)
    (hc : s.cursor = some c) : s.issues = none :=
  (issues_here h rfl).trans (by simp only [Frame.micro, hc, Micro.transaction])

theorem issues_fbWrite_end {text : List Byte} {i : Nat} {c : Half} (h : s.seq = .fbWrite text (.head i) :: rest)
    (hc : s.cursor = some c) (hi : text.length ≤ i) (hle : c.toNat ≤ Config.cells) :
    s.issues = some (.portWrite Config.crtcCmdPort Config.cursorHighCmd) :=
  (issues_call h (g := .fbWrite text .final) (c := .moveCursor c .highCmd)
    (by simp only [Frame.callee, hc, Nat.not_lt.mpr hi, if_false]) rfl).trans
    (by simp only [Frame.micro, if_neg (Nat.not_lt.mpr hle), Micro.transaction])

theorem issues_clear_blank {k : Nat} (h : s.seq = .clear (.blank k) :: rest) (hk : k < Config.cells) :
    s.issues = some (.gridCharStore (BitVec.ofNat 16 k) Config.blankChar) := by
  have hm : (BitVec.ofNat 16 k).toNat = k := by rw [cells_eq] at hk; rw [BitVec.toNat_ofNat]; omega
  refine (issues_call h (g := .clear (.blank (k + 1)))
    (c := .writeCell (BitVec.ofNat 16 k) Config.blankChar Config.white Config.black .char)
    (by simp only [Frame.callee, hk, if_true]) rfl).trans ?_
  rw [Frame.micro, if_neg (by rw [hm]; exact Nat.not_le.mpr hk)]
  exact transaction_charStore _ _

theorem issues_clear_home {k : Nat} (h : s.seq = .clear (.blank k) :: rest) (hk : Config.cells ≤ k) : s.issues = none :=
  (issues_here h (by simp only [Frame.callee, Nat.not_lt.mpr hk, if_false])).trans rfl

theorem issues_clear_move (h : s.seq = .clear .move :: rest) :
    s.issues = some (.portWrite Config.crtcCmdPort Config.cursorHighCmd) :=
  (issues_call h (g := .clear .final) (c := .moveCursor 0 .highCmd) rfl rfl).trans
    (by simp [Frame.micro, Micro.transaction, cells_eq])

theorem issues_configureBaud_enable {port : Port} {d : Half} (h : s.seq = .configureBaud port d .enable :: rest) :
    s.issues = some (.portWrite (registerPort port Config.offLine) Config.dlabEnableByte) := issues_here h rfl

theorem issues_configureBaud_high {port : Port} {d : Half} (h : s.seq = .configureBaud port d .high :: rest) :
    s.issues = some (.portWrite (registerPort port Config.offData) (hiByte d)) := issues_here h rfl

theorem issues_configureBaud_low {port : Port} {d : Half} (h : s.seq = .configureBaud port d .low :: rest) :
    s.issues = some (.portWrite (registerPort port Config.offData) (loByte d)) := issues_here h rfl

theorem issues_configureLine {port : Port} (h : s.seq = .configureLine port :: rest) :
    s.issues = some (.portWrite (registerPort port Config.offLine) Config.line8N1) := issues_here h rfl

theorem issues_configureBuffer {port : Port} (h : s.seq = .configureBuffer port :: rest) :
    s.issues = some (.portWrite (registerPort port Config.offFifo) Config.fifoCfg) := issues_here h rfl

theorem issues_configureModem {port : Port} (h : s.seq = .configureModem port :: rest) :
    s.issues = some (.portWrite (registerPort port Config.offModem) Config.modemCfg) := issues_here h rfl

theorem issues_isTxEmpty {port : Port} (h : s.seq = .isTxEmpty port :: rest) :
    s.issues = some (.portRead (registerPort port Config.offStatus)) := issues_here h rfl

theorem issues_init_baud {port : Port} (h : s.seq = .init port .baud :: rest) :
    s.issues = some (.portWrite (registerPort port Config.offLine) Config.dlabEnableByte) :=
  issues_call h (g := .init port .line) (c := .configureBaud port Config.initDivisor .enable) rfl rfl

theorem issues_init_line {port : Port} (h : s.seq = .init port .line :: rest) :
    s.issues = some (.portWrite (registerPort port Config.offLine) Config.line8N1) :=
  issues_call h (g := .init port .buffer) (c := .configureLine port) rfl rfl

theorem issues_init_buffer {port : Port} (h : s.seq = .init port .buffer :: rest) :
    s.issues = some (.portWrite (registerPort port Config.offFifo) Config.fifoCfg) :=
  issues_call h (g := .init port .modem) (c := .configureBuffer port) rfl rfl

theorem issues_init_modem {port : Port} (h : s.seq = .init port .modem :: rest) :
    s.issues = some (.portWrite (registerPort port Config.offModem) Config.modemCfg) :=
  issues_call h (g := .init port .final) (c := .configureModem port) rfl rfl

theorem issues_serialWrite_spin {port : Port} {text : List Byte} (h : s.seq = .serialWrite port text .spin :: rest) :
    s.issues = some (.portRead (registerPort port Config.offStatus)) :=
  issues_call h (g := .serialWrite port text .spin) (c := .isTxEmpty port) rfl rfl

theorem issues_serialWrite_init {port : Port} {text : List Byte} (h : s.seq = .serialWrite port text .init :: rest) :
    s.issues = some (.portWrite (registerPort port Config.offLine) Config.dlabEnableByte) :=
  issues_call_call h (g := .serialWrite port text (.payload 0)) (c := .init port .baud) (g' := .init port .line)
    (c' := .configureBaud port Config.initDivisor .enable) rfl rfl rfl

theorem issues_serialWrite_payload {port : Port} {text : List Byte} {i : Nat}
    (h : s.seq = .serialWrite port text (.payload i) :: rest) :
    s.issues = some (.portWrite (registerPort port Config.offData) (text.getD i 0)) := issues_here h rfl

end

/-! ### Cells -/

/-- A cell's two bytes have different addresses. -/
theorem charAddr_ne_attrAddr (j k : Nat) : gridAddr (charOffset j) ≠ gridAddr (attrOffset k) := by
  simp only [gridAddr, charOffset, attrOffset, Config.cellBytes]; omega

theorem charAddr_inj {j k : Nat} (h : gridAddr (charOffset j) = gridAddr (charOffset k)) : j = k := by
  simp only [gridAddr, charOffset, Config.cellBytes] at h; omega

theorem attrAddr_inj {j k : Nat} (h : gridAddr (attrOffset j) = gridAddr (attrOffset k)) : j = k := by
  simp only [gridAddr, attrOffset, Config.cellBytes] at h; omega

/-- The attribute byte in arithmetic: the background nibble above the foreground nibble (R99). -/
theorem attrByte_eq (fg bg : Nat) : attrByte fg bg = BitVec.ofNat 8 (bg % 16 * 16 + fg % 16) := by
  apply BitVec.eq_of_toNat_eq
  rw [attrByte, BitVec.toNat_append, BitVec.toNat_ofNat, BitVec.toNat_ofNat, ← Nat.shiftLeft_add_eq_or_of_lt (by omega),
    Nat.shiftLeft_eq, BitVec.toNat_ofNat]
  omega

end Sys2Proof.Machine
end

