-- ==== Sys2Proof/Laws/Invariant.lean ====
section
/-! SUPPORT. What keeps the parts of the invariant: a UART's registers, the device registers, a fault, a mark, and the stack of the
sequencer's positions under a call, a return and a move. -/

namespace Sys2Proof.Machine

/-- Every write keeps a UART's invariant (R170, R171, R173 to R175). -/
theorem Uart.write_inv {x y : Uart} (h : UartWrites x y) (hx : x.Inv) : y.Inv := by
  cases h with
  | queue v cap hd hc hl =>
    refine ⟨?_, ?_, hx.rx_empty, hx.dtr_bit, hx.rts_bit, hx.no_loopback, hx.trig_written, hx.misc_written⟩
    · have : x.fifoEn.map txCapacity = some cap := hc
      show (x.txfifo ++ [v]).length ≤ (x.fifoEn.map txCapacity).getD 0
      rw [this]; simp; omega
    · intro _
      show x.lcr.isSome = true
      unfold Uart.dlab at hd
      cases h : x.lcr <;> simp_all
  | divisor v hd =>
    unfold Uart.loadDivisorByte
    split <;> exact ⟨hx.1, hx.2, hx.3, hx.4, hx.5, hx.6, hx.7, hx.8⟩
  | fifo v h =>
    have h1 := hx.fifo_fits
    refine ⟨?_, ?_, ?_, hx.4, hx.5, hx.6, rfl, rfl⟩
    · show (if fcrClearTx v = true then [] else x.txfifo).length ≤ _
      rcases h with h | h
      · split
        · simp
        · show _ ≤ ((some (fcrEnable v)).map txCapacity).getD 0
          rw [← h]; exact h1
      · simp [h.2]
    · intro h2
      apply hx.2
      intro h3; apply h2
      show (if fcrClearTx v = true then [] else x.txfifo) = []
      split <;> simp [h3]
    · show (if fcrClearRx v = true then [] else x.rxfifo) = []
      split <;> simp [hx.3]
  | line v => exact ⟨hx.1, fun _ => rfl, hx.3, hx.4, hx.5, hx.6, hx.7, hx.8⟩
  | modem v h => exact ⟨hx.1, hx.2, hx.3, rfl, rfl, by show some (mcrLoopback v) ≠ _; simp [h], hx.7, hx.8⟩

/-- The transmitter's step keeps a UART's invariant (R178). -/
theorem Uart.transmit_inv {x : Uart} (hx : x.Inv) : x.transmit.Inv := by
  unfold Uart.transmit
  split
  · exact hx
  · rename_i b rest h
    have h1 := hx.1; have h2 := hx.2
    rw [h] at h1 h2
    refine ⟨?_, fun _ => h2 (by simp), hx.3, hx.4, hx.5, hx.6, hx.7, hx.8⟩
    simp only [List.length_cons] at h1
    exact Nat.le_of_succ_le h1

/-- Replacing a UART by one that keeps its invariant. -/
theorem State.setUart_inv {s : State} (hs : s.Inv) (u : UartId) {x : Uart} (hx : x.Inv) : (s.setUart u x).Inv := by
  cases u
  · exact ⟨hx, hs.2, hs.3, hs.4, hs.5, hs.6, hs.7, hs.8, hs.9⟩
  · exact ⟨hs.1, hx, hs.3, hs.4, hs.5, hs.6, hs.7, hs.8, hs.9⟩

/-- The invariant of either UART. -/
theorem State.uart_inv {s : State} (hs : s.Inv) (u : UartId) : (s.uart u).Inv := by cases u; exact hs.1; exact hs.2

/-- A completed port write keeps the invariant and the sequencer's registers (R120). -/
theorem State.port_inv {s t : State} (h : PortWrites s t) (hs : s.Inv) :
    t.Inv ∧ t.cursor = s.cursor ∧ t.seq = s.seq ∧ t.fault = s.fault := by
  cases h with
  | uart u x h => exact ⟨State.setUart_inv hs u (Uart.write_inv h (State.uart_inv hs u)), by simp⟩
  | index v => exact ⟨⟨hs.1, hs.2, hs.3, hs.4, hs.5, hs.6, hs.7, hs.8, hs.9⟩, rfl, rfl, rfl⟩
  | high v h =>
    refine ⟨⟨hs.1, hs.2, hs.3, hs.4, hs.5, ?_, hs.7, hs.8, hs.9⟩, rfl, rfl, rfl⟩
    have := hs.6
    simp only [State.loadCursorHigh]
    unfold hwCursorOk at *
    split <;> simp_all
  | low v h =>
    unfold State.loadCursorLow
    split
    · refine ⟨⟨hs.1, hs.2, hs.3, hs.4, hs.5, ?_, hs.7, hs.8, hs.9⟩, rfl, rfl, rfl⟩
      simp_all [hwCursorOk]
    · refine ⟨⟨hs.1, hs.2, hs.3, hs.4, hs.5, ?_, hs.7, hs.8, hs.9⟩, rfl, rfl, rfl⟩
      have := hs.6
      unfold hwCursorOk at *
      split <;> simp_all
  | unclaimed => exact ⟨hs, rfl, rfl, rfl⟩

/-- Taking a first fault keeps the invariant (R240). -/
theorem State.takeFault_inv {s : State} (hs : s.Inv) (h : s.fault = []) (r) : (s.takeFault r).Inv :=
  ⟨hs.1, hs.2, hs.3, hs.4, hs.5, hs.6, by simp [h], fun _ => rfl, rfl⟩

/-- The mark keeps the invariant (R237). -/
theorem State.markRefused_inv {s : State} (hs : s.Inv) (r) : (s.markRefused r).Inv :=
  ⟨hs.1, hs.2, hs.3, hs.4, hs.5, hs.6, hs.7, hs.8, hs.9⟩

/-- Which command a frame runs. -/
def Frame.command : Frame → Nat
  | .writeCell _ _ _ _ _ => 0
  | .moveCursor _ _ => 1
  | .fbWrite _ _ => 2
  | .scroll _ => 3
  | .clear _ => 4
  | .configureBaud _ _ _ => 5
  | .configureLine _ => 6
  | .configureBuffer _ => 7
  | .configureModem _ => 8
  | .isTxEmpty _ => 9
  | .init _ _ => 10
  | .serialWrite _ _ _ => 11
  | .print _ _ _ => 12

/-- Whether a position calls a command does not depend on the callee's operands or position. -/
theorem calls_congr {k f g : Frame} (h : g.command = f.command) : calls k g = calls k f := by
  cases f <;> cases g <;> first
    | (rcases k with _ | _ | ⟨_, _ | _ | _ | _⟩ | ⟨_ | _ | _⟩ | ⟨_ | _ | _⟩ | _ | _ | _ | _ | _ | ⟨_, _ | _ | _ | _ | _⟩ |
        ⟨_, _, _ | _ | _ | _⟩ | ⟨_, _, _ | _⟩ <;> rfl)
    | simp [Frame.command] at h

/-- A call: the caller's frame and the callee's keep their promises, and the callee is called from the caller's position. -/
theorem callee_keeps {c : Option Half} {f g d : Frame} {b : Bool} (h : f.callee c = some (g, d)) (hc : cursorInRange c = true)
    (hf : f.ok c true b = true) :
    g.ok c false b = true ∧ d.ok c true true = true ∧ calls g d = true ∧ g.command = f.command := by
  have hs : scrollStart = .load 0 := by decide
  have hz : (0:ℕ) < Config.scrollBytes := by decide
  cases f with
  | writeCell i ch fg bg l => cases l <;> cases h
  | moveCursor p l => cases l <;> cases h
  | fbWrite t l =>
    cases l with
    | head i =>
      cases c with
      | none => cases h
      | some c =>
        simp only [Frame.callee] at h
        split at h
        · split at h
          · cases h
            refine ⟨?_, ?_, rfl, rfl⟩
            · simp_all [Frame.ok]
            · simp [hs, Frame.ok, hz]
          · unfold writeBody at h
            split at h
            · cases h
            · cases h
              refine ⟨?_, ?_, rfl, rfl⟩
              · simp_all [Frame.ok, cursorOnCell]
              · simp_all [Frame.ok, cursorOnCell]
        · cases h
          refine ⟨rfl, ?_, rfl, rfl⟩
          simp_all [Frame.ok, cursorInRange]
    | body i =>
      cases c with
      | none => cases h
      | some c =>
        simp only [Frame.callee] at h
        unfold writeBody at h
        split at h
        · cases h
        · cases h
          refine ⟨?_, ?_, rfl, rfl⟩
          · simp_all [Frame.ok, cursorOnCell]
          · simp_all [Frame.ok, cursorOnCell]
    | advance i => cases h
    | final => cases h
  | scroll l =>
    cases l with
    | blank k =>
      simp only [Frame.callee] at h
      split at h
      · rename_i hk
        cases h
        refine ⟨?_, ?_, rfl, rfl⟩
        · simp [Frame.ok]; omega
        · have := cells_eq
          simp [Frame.ok, BitVec.toNat_ofNat]; omega
      · cases h
    | load o => cases h
    | store o b => cases h
  | clear l =>
    cases l with
    | blank k =>
      simp only [Frame.callee] at h
      split at h
      · rename_i hk
        cases h
        refine ⟨?_, ?_, rfl, rfl⟩
        · simp [Frame.ok]; omega
        · have := cells_eq
          simp [Frame.ok, BitVec.toNat_ofNat]; omega
      · cases h
    | move => cases h; exact ⟨rfl, by simp [Frame.ok], rfl, rfl⟩
    | final => cases h
  | configureBaud p d l => cases l <;> cases h
  | configureLine p => cases h
  | configureBuffer p => cases h
  | configureModem p => cases h
  | isTxEmpty p => cases h
  | init p l =>
    cases l <;> cases h <;> exact ⟨rfl, rfl, rfl, rfl⟩
  | serialWrite p t l =>
    cases l <;> cases h <;> exact ⟨rfl, rfl, rfl, rfl⟩
  | print p t b =>
    cases b with
    | true => cases h
    | false =>
      cases h
      refine ⟨rfl, ?_, ?_, rfl⟩
      · split <;> simp [Frame.ok]
      · split <;> simp [calls]

/-- A call is followed by at most one more before the next action. -/
theorem callee_depth {c : Option Half} {f g d : Frame} (h : f.callee c = some (g, d)) :
    d.callee c = none ∨ ∃ g' d', d.callee c = some (g', d') ∧ d'.callee c = none := by
  have hs : scrollStart = .load 0 := by decide
  have two : ∀ t i, ∀ x y, (Frame.fbWrite t (.head i)).callee c = some (x, y) → y.callee c = none := by
    intro t i x y h
    cases c with
      | none => cases h
      | some c =>
        simp only [Frame.callee] at h
        split at h
        · split at h
          · cases h; rw [hs]; rfl
          · unfold writeBody at h
            split at h
            · cases h
            · cases h; rfl
        · cases h; rfl
  cases f with
  | writeCell i ch fg bg l => cases l <;> cases h
  | moveCursor p l => cases l <;> cases h
  | fbWrite t l =>
    cases l with
    | head i => exact .inl (two _ _ _ _ h)
    | body i =>
      cases c with
      | none => cases h
      | some c =>
        simp only [Frame.callee] at h
        unfold writeBody at h
        split at h
        · cases h
        · cases h; exact .inl rfl
    | advance i => cases h
    | final => cases h
  | scroll l =>
    cases l with
    | blank k =>
      simp only [Frame.callee] at h
      split at h
      · cases h; exact .inl rfl
      · cases h
    | load o => cases h
    | store o b => cases h
  | clear l =>
    cases l with
    | blank k =>
      simp only [Frame.callee] at h
      split at h
      · cases h; exact .inl rfl
      · cases h
    | move => cases h; exact .inl rfl
    | final => cases h
  | configureBaud p d l => cases l <;> cases h
  | configureLine p => cases h
  | configureBuffer p => cases h
  | configureModem p => cases h
  | isTxEmpty p => cases h
  | init p l =>
    cases l <;> cases h <;> exact .inl rfl
  | serialWrite p t l =>
    cases l <;> cases h
    · exact .inl rfl
    · exact .inr ⟨_, _, rfl, rfl⟩
  | print p t b =>
    cases b with
    | true => cases h
    | false =>
      cases h
      split
      · cases h : (Frame.fbWrite t (.head 0)).callee c with
        | none => exact .inl rfl
        | some x => exact .inr ⟨x.1, x.2, rfl, two _ _ _ _ h⟩
      · exact .inr ⟨_, _, rfl, rfl⟩

/-- A call leaves a legal stack. -/
theorem seqOk_push {c : Option Half} {f g d : Frame} {rest : List Frame} (h : f.callee c = some (g, d))
    (hc : cursorInRange c = true) (hq : seqOk c (f :: rest) = true) : seqOk c (d :: g :: rest) = true := by
  simp only [seqOk, Bool.and_eq_true] at hq
  obtain ⟨⟨h1, h2⟩, h3⟩ := hq
  obtain ⟨a, b, e, k⟩ := callee_keeps h hc h1
  simp only [seqOk, callersOk, chained, List.isEmpty_cons, Bool.not_false, Bool.and_eq_true]
  refine ⟨⟨b, a, h2⟩, e, ?_⟩
  cases rest with
  | nil => rfl
  | cons x r =>
    simp only [chained, Bool.and_eq_true] at h3 ⊢
    exact ⟨(calls_congr k).trans h3.1, h3.2⟩

/-- The sequencer's step starts at a position where no call stands, on a legal stack. -/
theorem enterAll_top {c : Option Half} {q : List Frame} (hc : cursorInRange c = true) (hq : seqOk c q = true) (hne : q ≠ []) :
    ∃ f rest, enterAll c q = f :: rest ∧ f.callee c = none ∧ seqOk c (f :: rest) = true := by
  obtain ⟨f, rest, rfl⟩ := List.exists_cons_of_ne_nil hne
  cases h : f.callee c with
  | none => exact ⟨f, rest, enterAll_of_no_call h, h, hq⟩
  | some x =>
    obtain ⟨g, d⟩ := x
    have hq' := seqOk_push h hc hq
    rcases callee_depth h with h1 | ⟨g', d', h1, h2⟩
    · exact ⟨d, _, enterAll_of_call h h1, h1, hq'⟩
    · exact ⟨d', _, enterAll_of_call_call h h1 h2, h2, seqOk_push h1 hc hq'⟩

/-- The frame is the scroll's. -/
def Frame.isScroll : Frame → Bool
  | .scroll _ => true
  | _ => false

/-- A command that ends leaves a legal stack; a scroll that ends must leave CURSOR on a cell. -/
theorem returnFrom_seqOk {c : Option Half} (s : State) (rest : List Frame) :
    ∀ (f : Frame) (v : Option Bool), callersOk c rest = true → chained (f :: rest) = true →
      (Frame.isScroll f = true → cursorOnCell c = true) → seqOk c (s.returnFrom v rest).seq = true := by
  induction rest with
  | nil => intros; rfl
  | cons g rest ih =>
    intro f v h1 h2 h3
    simp only [callersOk, chained, Bool.and_eq_true] at h1 h2
    by_cases hf : (g.resume v).finished = true
    · rw [returnFrom_finished hf]
      refine ih g none h1.2 h2.2 ?_
      cases g <;> simp_all [Frame.isScroll, Frame.resume, Frame.finished]
    · rw [returnFrom_cons (by simpa using hf)]
      simp only [seqOk, Bool.and_eq_true]
      have hk : (g.resume v).command = g.command := by
        cases g with
        | serialWrite p t l => cases l <;> rfl
        | _ => rfl
      refine ⟨⟨?_, h1.2⟩, ?_⟩
      · cases g with
        | serialWrite p t l => cases l <;> simp_all [Frame.resume, Frame.ok]
        | fbWrite t l =>
          cases l <;> simp_all [Frame.resume, Frame.ok]
          have := h2.1
          cases f <;> simp_all [calls, Frame.isScroll]
        | writeCell i ch fg bg l => cases f <;> simp_all [calls]
        | moveCursor p l => cases f <;> simp_all [calls]
        | scroll l => cases l <;> simp_all [Frame.resume, Frame.ok]
        | clear l => cases l <;> simp_all [Frame.resume, Frame.ok]
        | _ => rfl
      · cases rest with
        | nil => rfl
        | cons x r =>
          simp only [chained, Bool.and_eq_true] at h2 ⊢
          exact ⟨(calls_congr hk).trans h2.2.1, h2.2.2⟩

/-- A command goes to another of its positions: the stack below must keep its promises under the CURSOR of then. -/
theorem seqOk_move {c : Option Half} {f g : Frame} {rest : List Frame} (hch : chained (f :: rest) = true)
    (hcal : callersOk c rest = true) (hg : g.ok c true (!rest.isEmpty) = true) (hfg : g.command = f.command) :
    seqOk c (g :: rest) = true := by
  simp only [seqOk, Bool.and_eq_true]
  refine ⟨⟨hg, hcal⟩, ?_⟩
  cases rest with
  | nil => rfl
  | cons x r =>
    simp only [chained, Bool.and_eq_true] at hch ⊢
    exact ⟨(calls_congr hfg).trans hch.1, hch.2⟩

/-- `fb.write_cell` calls nothing. -/
theorem calls_none_writeCell (i a b c l) (f : Frame) : calls (.writeCell i a b c l) f = false := by cases f <;> rfl

/-! ### The cursor arithmetic under the invariant (R152, R154) -/

theorem cursorNewline_lt {c : Half} (h : c.toNat < 2000) : (cursorNewline c).toNat < 2000 := by
  simp only [cursorNewline, Config.width, BitVec.toNat_ofNat]; generalize c.toNat = n at *; rw [Nat.mod_eq_of_lt] <;> omega
theorem cursorAdvance_le {c : Half} (h : c.toNat < 2000) : (cursorAdvance c).toNat ≤ 2000 := by
  simp only [cursorAdvance, BitVec.toNat_ofNat]; omega
theorem cursorUp_lt {c : Half} (h : c.toNat ≤ 2000) : (cursorUp c).toNat < 2000 := by
  simp only [cursorUp, Config.width, BitVec.toNat_ofNat]; omega

/-- CURSOR may change under a command that no character step of `fb.write` called: no other position below promises anything of
CURSOR. -/
theorem callersOk_cursor {c c' : Option Half} {f : Frame} {rest : List Frame} (hq : seqOk c (f :: rest) = true)
    (hf : ∀ t i, calls (.fbWrite t (.advance i)) f = false) : callersOk c' rest = true := by
  simp only [seqOk, Bool.and_eq_true] at hq
  obtain ⟨⟨_, h1⟩, h2⟩ := hq
  clear * - h1 h2 hf
  induction rest generalizing f with
  | nil => rfl
  | cons g rest ih =>
    simp only [callersOk, chained, Bool.and_eq_true] at h1 h2 ⊢
    refine ⟨?_, ih ?_ h2.2 h1.2⟩
    · rcases g with _ | _ | ⟨_, _ | _ | _ | _⟩ | ⟨_ | _ | _⟩ | ⟨_ | _ | _⟩ | _ | _ | _ | _ | _ | ⟨_, _ | _ | _ | _ | _⟩ |
        ⟨_, _, _ | _ | _ | _⟩ | ⟨_, _, _ | _⟩
      all_goals try exact h1.1
      · rename_i l; rw [calls_none_writeCell] at h2; cases h2.1
      · rename_i l; cases l <;> exact h1.1
      · rw [hf] at h2; cases h2.1
    · intro t i
      cases g with
      | writeCell i a b c l => exact absurd h2.1 (by rw [calls_none_writeCell]; simp)
      | _ => rfl

end Sys2Proof.Machine
end

