-- ==== Sys2Proof/Laws/PerInstr.lean ====
section
/-! SUPPORT. Per instruction: decoding the canonical word of a well-formed instruction gives the instruction back (family RoundTrip),
with the fields of the words of each format. -/

namespace Sys2Proof

/-! ### Fields of a word -/

theorem dataField_append {n : Nat} (a : BitVec n) (v : Byte) : dataField (a ++ v) = v := by
  apply BitVec.eq_of_toNat_eq
  rw [dataField, BitVec.toNat_ofNat, BitVec.toNat_append, ← Nat.shiftLeft_add_eq_or_of_lt v.isLt, Nat.shiftLeft_eq]
  have := v.isLt
  omega

theorem wordP_fields (w : Bool) (port : Port) (v : Byte) :
    portField (wordP w port v) = port ∧ dataField (wordP w port v) = v := by
  refine ⟨?_, dataField_append _ v⟩
  apply BitVec.eq_of_toNat_eq
  rw [portField, wordP, BitVec.toNat_ofNat, BitVec.toNat_append, ← Nat.shiftLeft_add_eq_or_of_lt v.isLt, Nat.shiftLeft_eq,
    BitVec.toNat_append, ← Nat.shiftLeft_add_eq_or_of_lt port.isLt, Nat.shiftLeft_eq]
  have := v.isLt
  have := port.isLt
  omega

theorem wordM_fields (w : Bool) (off : BitVec 17) (v : Byte) :
    offField (wordM w off v) = off ∧ dataField (wordM w off v) = v := by
  refine ⟨?_, dataField_append _ v⟩
  apply BitVec.eq_of_toNat_eq
  rw [offField, wordM, BitVec.toNat_ofNat, BitVec.toNat_append, ← Nat.shiftLeft_add_eq_or_of_lt v.isLt, Nat.shiftLeft_eq,
    BitVec.toNat_append, ← Nat.shiftLeft_add_eq_or_of_lt off.isLt, Nat.shiftLeft_eq]
  have := v.isLt
  have := off.isLt
  omega

theorem wordM_cell (w : Bool) (k : Half) (b : BitVec 1) (v : Byte) : cellField (wordM w (k ++ b) v) = k := by
  apply BitVec.eq_of_toNat_eq
  rw [cellField, wordM, BitVec.toNat_ofNat, BitVec.toNat_append, ← Nat.shiftLeft_add_eq_or_of_lt v.isLt, Nat.shiftLeft_eq,
    BitVec.toNat_append, ← Nat.shiftLeft_add_eq_or_of_lt (k ++ b).isLt, Nat.shiftLeft_eq,
    BitVec.toNat_append, ← Nat.shiftLeft_add_eq_or_of_lt b.isLt, Nat.shiftLeft_eq]
  have := v.isLt
  have := b.isLt
  have := k.isLt
  omega

/-- The byte offset of cell `k`'s character or attribute lies in the window exactly when `k` is a cell. -/
theorem offsetInWindow_cell (k : Half) (b : BitVec 1) : offsetInWindow (k ++ b) = cellInGrid k := by
  rw [offsetInWindow, cellInGrid, BitVec.toNat_append, ← Nat.shiftLeft_add_eq_or_of_lt b.isLt, Nat.shiftLeft_eq,
    Config.windowBytes, Config.cellBytes]
  have := b.isLt
  rw [decide_eq_decide]
  omega

/-! ### Which rows a word hits -/

/-- A row's word under another row's mask: the data field does not take part. -/
theorem hits_withData {n : Nat} (p q : Pattern n) (v : Byte) (h : q.mask &&& BitVec.ofNat n 255 = 0) :
    q.hits (p.withData v) = (p.value &&& q.mask == q.value) := by
  have key : (p.value ||| v.setWidth n) &&& q.mask = p.value &&& q.mask := by
    apply BitVec.eq_of_getLsbD_eq
    intro i hi
    rw [BitVec.getLsbD_and, BitVec.getLsbD_or, BitVec.getLsbD_setWidth, BitVec.getLsbD_and]
    by_cases h8 : i < 8
    · have hm : q.mask.getLsbD i = false := by
        have hz : (q.mask &&& BitVec.ofNat n 255).getLsbD i = false := by rw [h]; simp
        rw [BitVec.getLsbD_and, BitVec.getLsbD_ofNat, show (255 : Nat) = 2 ^ 8 - 1 from rfl,
          Nat.testBit_two_pow_sub_one] at hz
        simpa [hi, h8] using hz
      simp [hm]
    · simp [BitVec.getLsbD_of_ge v i (Nat.le_of_not_lt h8)]
  rw [Pattern.hits, Pattern.withData, key]

theorem dataField_withData {n : Nat} (p : Pattern n) (v : Byte) (hn : 8 ≤ n) (h : p.value.setWidth 8 = 0) :
    dataField (p.withData v) = v := by
  have heq : dataField (p.withData v) = (p.withData v).setWidth 8 := by
    apply BitVec.eq_of_toNat_eq
    rw [dataField, BitVec.toNat_ofNat, BitVec.toNat_setWidth]
  rw [heq]
  apply BitVec.eq_of_getLsbD_eq
  intro i hi
  have hz : (p.value.setWidth 8).getLsbD i = false := by rw [h]; simp
  rw [BitVec.getLsbD_setWidth] at hz ⊢
  rw [Pattern.withData, BitVec.getLsbD_or, BitVec.getLsbD_setWidth]
  simp only [hi, decide_true, Bool.true_and] at hz
  simp only [hi, hz, Nat.lt_of_lt_of_le hi hn, decide_true, Bool.true_and, Bool.false_or]

theorem hits_wordP (w : Bool) (port : Port) (v : Byte) : rowPortWrite.hits (wordP w port v) = w := by
  have hbit : (wordP w port v).getLsbD 24 = w := by
    rw [wordP, BitVec.getLsbD_append, if_neg (by decide), BitVec.getLsbD_append, if_neg (by decide)]
    simp
  have hm : (0x1000000 : BitVec 25) = BitVec.twoPow 25 24 := by decide
  rw [Pattern.hits, rowPortWrite, hm, BitVec.and_twoPow, hbit]
  cases w <;> decide

theorem wordM_bits (w : Bool) (off : BitVec 17) (v : Byte) :
    (wordM w off v).getLsbD 25 = w ∧ (wordM w off v).getLsbD 8 = off.getLsbD 0 := by
  constructor
  · rw [wordM, BitVec.getLsbD_append, if_neg (by decide), BitVec.getLsbD_append, if_neg (by decide)]
    simp
  · rw [wordM, BitVec.getLsbD_append, if_neg (by decide), BitVec.getLsbD_append, if_pos (by decide)]

theorem hits_wordM (w : Bool) (off : BitVec 17) (v : Byte) :
    rowCharStore.hits (wordM w off v) = (w && !off.getLsbD 0) ∧ rowAttrStore.hits (wordM w off v) = (w && off.getLsbD 0) := by
  have hm : ∀ x : BitVec 26,
      x &&& 0x2000100 = (if x.getLsbD 25 then 0x2000000 else 0) ||| (if x.getLsbD 8 then 0x100 else 0) := by
    intro x
    have h1 : (0x2000100 : BitVec 26) = BitVec.twoPow 26 25 ||| BitVec.twoPow 26 8 := by decide
    have h2 : x &&& (BitVec.twoPow 26 25 ||| BitVec.twoPow 26 8) =
        (x &&& BitVec.twoPow 26 25) ||| (x &&& BitVec.twoPow 26 8) := by
      apply BitVec.eq_of_getLsbD_eq
      intro i _
      simp only [BitVec.getLsbD_and, BitVec.getLsbD_or, Bool.and_or_distrib_left]
    rw [h1, h2, BitVec.and_twoPow, BitVec.and_twoPow]
    rfl
  obtain ⟨h25, h8⟩ := wordM_bits w off v
  rw [Pattern.hits, Pattern.hits, rowCharStore, rowAttrStore, hm, h25, h8]
  cases w <;> cases off.getLsbD 0 <;> decide

/-! ### Rows of format U, C and M -/

/-- What a format U row's word decodes to. -/
theorem decodeU_withData (u : UartId) (p : Pattern 13) (v : Byte) (h : p.value.setWidth 8 = 0) :
    decodeU u (p.withData v) =
      if p.value &&& rowTxWrite.mask == rowTxWrite.value then .ok (.uartTxWrite u v)
      else if p.value &&& rowDivWrite.mask == rowDivWrite.value then .ok (.uartDivWrite u v)
      else if p.value &&& rowFcrWrite.mask == rowFcrWrite.value then .ok (.uartFcrWrite u v)
      else if p.value &&& rowLcrWrite.mask == rowLcrWrite.value then .ok (.uartLcrWrite u v)
      else if p.value &&& rowMcrWrite.mask == rowMcrWrite.value then .ok (.uartMcrWrite u v)
      else if p.value &&& rowLsrRead.mask == rowLsrRead.value then .ok (.uartLsrRead u)
      else if uartOffField (p.withData v) = 0 then .error (.reserved .uartDataRead)
      else .error (.reserved .uartAccessNotModelled) := by
  rw [decodeU, hits_withData p rowTxWrite v rfl, hits_withData p rowDivWrite v rfl, hits_withData p rowFcrWrite v rfl,
    hits_withData p rowLcrWrite v rfl, hits_withData p rowMcrWrite v rfl, hits_withData p rowLsrRead v rfl,
    dataField_withData p v (by decide) h]

/-- What a format C row's word decodes to. -/
theorem decodeC_withData (p : Pattern 18) (v : Byte) (h : p.value.setWidth 8 = 0) :
    decodeC (p.withData v) =
      if p.value &&& rowIndexWrite.mask == rowIndexWrite.value then .ok (.crtcIndexWrite v)
      else if p.value &&& rowCursorHigh.mask == rowCursorHigh.value then .ok (.crtcCursorHighWrite v)
      else if p.value &&& rowCursorLow.mask == rowCursorLow.value then .ok (.crtcCursorLowWrite v)
      else if (p.withData v).getLsbD 17 then .error (.reserved .crtcIndexNotModelled)
      else .error (.reserved .crtcRead) := by
  rw [decodeC, hits_withData p rowIndexWrite v rfl, hits_withData p rowCursorHigh v rfl, hits_withData p rowCursorLow v rfl,
    dataField_withData p v (by decide) h]

/-- What a format M word in the window decodes to. -/
theorem decodeM_wordM (w : Bool) (off : BitVec 17) (v : Byte) (h : offsetInWindow off = true) :
    decodeM (wordM w off v) =
      if w && !off.getLsbD 0 then .ok (.gridCharStore (cellField (wordM w off v)) v)
      else if w && off.getLsbD 0 then .ok (.gridAttrStore (cellField (wordM w off v)) v)
      else .ok (.gridLoad off) := by
  obtain ⟨ho, hd⟩ := wordM_fields w off v
  obtain ⟨hc, ha⟩ := hits_wordM w off v
  rw [decodeM, ho, h, hc, ha, hd]
  rfl

/-- No two rows of a format share a word: wherever both masks are fixed, some value differs. -/
theorem rows_disjoint :
    rowsP.Pairwise (fun p q => p.value &&& q.mask ≠ q.value &&& p.mask) ∧
    rowsU.Pairwise (fun p q => p.value &&& q.mask ≠ q.value &&& p.mask) ∧
    rowsC.Pairwise (fun p q => p.value &&& q.mask ≠ q.value &&& p.mask) ∧
    rowsM.Pairwise (fun p q => p.value &&& q.mask ≠ q.value &&& p.mask) := by decide

end Sys2Proof

namespace Sys2Proof.Laws.RoundTrip

/-- Decoding the canonical word of the instruction, if it is well formed, gives it back. -/
def Statement (i : Instr) : Prop := i.wellFormed = true → ∀ r, encode i = some r → decode r = .ok i

theorem portWrite (port : Port) (v : Byte) : Statement (.portWrite port v) := by
  rintro - r ⟨⟩
  obtain ⟨hp, hd⟩ := wordP_fields true port v
  simp only [decode, decodeP, hits_wordP, hp, hd, if_true]

theorem portRead (port : Port) : Statement (.portRead port) := by
  rintro - r ⟨⟩
  obtain ⟨hp, -⟩ := wordP_fields false port 0
  simp only [decode, decodeP, hits_wordP, hp, Bool.false_eq_true, if_false]

theorem uartTxWrite (u : UartId) (v : Byte) : Statement (.uartTxWrite u v) := by
  rintro - r ⟨⟩; exact decodeU_withData u rowTxWrite v rfl

theorem uartDivWrite (u : UartId) (v : Byte) : Statement (.uartDivWrite u v) := by
  rintro - r ⟨⟩; exact decodeU_withData u rowDivWrite v rfl

theorem uartFcrWrite (u : UartId) (v : Byte) : Statement (.uartFcrWrite u v) := by
  rintro - r ⟨⟩; exact decodeU_withData u rowFcrWrite v rfl

theorem uartLcrWrite (u : UartId) (v : Byte) : Statement (.uartLcrWrite u v) := by
  rintro - r ⟨⟩; exact decodeU_withData u rowLcrWrite v rfl

theorem uartMcrWrite (u : UartId) (v : Byte) : Statement (.uartMcrWrite u v) := by
  rintro - r ⟨⟩; exact decodeU_withData u rowMcrWrite v rfl

theorem uartLsrRead (u : UartId) : Statement (.uartLsrRead u) := by rintro - r ⟨⟩; rfl

/-- UART_TX_SEND has no word (R178). -/
theorem uartTxSend (u : UartId) : Statement (.uartTxSend u) := by rintro - r ⟨⟩

theorem crtcIndexWrite (v : Byte) : Statement (.crtcIndexWrite v) := by
  rintro - r ⟨⟩; exact decodeC_withData rowIndexWrite v rfl

theorem crtcCursorHighWrite (v : Byte) : Statement (.crtcCursorHighWrite v) := by
  rintro - r ⟨⟩; exact decodeC_withData rowCursorHigh v rfl

theorem crtcCursorLowWrite (v : Byte) : Statement (.crtcCursorLowWrite v) := by
  rintro - r ⟨⟩; exact decodeC_withData rowCursorLow v rfl

theorem gridCharStore (k : Half) (v : Byte) : Statement (.gridCharStore k v) := by
  rintro hk r ⟨⟩
  have h0 : (k ++ 0#1).getLsbD 0 = false := by rw [BitVec.getLsbD_append, if_pos (by decide)]; rfl
  simp only [decode, decodeM_wordM true (k ++ 0#1) v ((offsetInWindow_cell k 0#1).trans hk), h0, wordM_cell, Bool.not_false,
    Bool.and_true, if_true]

theorem gridAttrStore (k : Half) (v : Byte) : Statement (.gridAttrStore k v) := by
  rintro hk r ⟨⟩
  have h1 : (k ++ 1#1).getLsbD 0 = true := by rw [BitVec.getLsbD_append, if_pos (by decide)]; rfl
  simp only [decode, decodeM_wordM true (k ++ 1#1) v ((offsetInWindow_cell k 1#1).trans hk), h1, wordM_cell, Bool.not_true,
    Bool.and_true, Bool.and_false, Bool.false_eq_true, if_false, if_true]

theorem gridLoad (off : BitVec 17) : Statement (.gridLoad off) := by
  rintro ho r ⟨⟩
  simp only [decode, decodeM_wordM false off 0 ho, Bool.false_and, Bool.false_eq_true, if_false]

theorem writePort (port : Port) (v : Byte) : Statement (.writePort port v) := by rintro - r ⟨⟩; rfl
theorem readPort (port : Port) : Statement (.readPort port) := by rintro - r ⟨⟩; rfl
theorem fbWriteCell (index : Half) (char : Byte) (fg bg : Nat) : Statement (.fbWriteCell index char fg bg) := by
  rintro - r ⟨⟩; rfl
theorem fbMoveCursor (pos : Half) : Statement (.fbMoveCursor pos) := by rintro - r ⟨⟩; rfl
theorem fbWrite (text : List Byte) : Statement (.fbWrite text) := by rintro - r ⟨⟩; rfl
theorem fbClear : Statement .fbClear := by rintro - r ⟨⟩; rfl
theorem serialConfigureBaudRate (port : Port) (d : Half) : Statement (.serialConfigureBaudRate port d) := by
  rintro - r ⟨⟩; rfl
theorem serialConfigureLine (port : Port) : Statement (.serialConfigureLine port) := by rintro - r ⟨⟩; rfl
theorem serialConfigureBuffer (port : Port) : Statement (.serialConfigureBuffer port) := by rintro - r ⟨⟩; rfl
theorem serialConfigureModem (port : Port) : Statement (.serialConfigureModem port) := by rintro - r ⟨⟩; rfl
theorem serialIsTransmitFifoEmpty (port : Port) : Statement (.serialIsTransmitFifoEmpty port) := by rintro - r ⟨⟩; rfl
theorem serialInit (port : Port) : Statement (.serialInit port) := by rintro - r ⟨⟩; rfl
theorem serialWrite (port : Port) (text : List Byte) : Statement (.serialWrite port text) := by rintro - r ⟨⟩; rfl
theorem print (channel : Port) (text : List Byte) : Statement (.print channel text) := by rintro - r ⟨⟩; rfl
theorem fbScroll : Statement .fbScroll := by rintro - r ⟨⟩; rfl
theorem reservedCmd : Statement .reservedCmd := by rintro - r ⟨⟩; rfl

end Sys2Proof.Laws.RoundTrip
end

