-- ==== Sys2Proof/Laws/Wire.lean ====
section
/-! SUPPORT. What the frame on the wire is (spec/43_uart_registers.md R180): its levels in order, its length, its parity, the line
under break control and between frames. -/

namespace Sys2Proof.Machine

@[simp] theorem length_frameData (fmt : BitVec 7) (b : Byte) : (frameData fmt b).length = dataBits fmt := by simp [frameData]

/-- Data bit `i` of the frame is bit `i` of the byte: least significant first. -/
theorem getElem_frameData (fmt : BitVec 7) (b : Byte) (i : Nat) (h : i < (frameData fmt b).length) :
    (frameData fmt b)[i] = b.getLsbD i := by simp [frameData]

/-- With break control clear the frame is start, data, parity, stop. -/
theorem wireFrame_plain {fmt : BitVec 7} (h : breakControl fmt = false) (b : Byte) : wireFrame fmt b = plainFrame fmt b := by
  simp [wireFrame, underBreak, h]

/-- With break control set every stretch of the frame is at the spacing level. -/
theorem wireFrame_break {fmt : BitVec 7} (h : breakControl fmt = true) (b : Byte) :
    ∀ x ∈ wireFrame fmt b, x.level = spacing := by
  simp [wireFrame, underBreak, h]

theorem sum_oneBit (bits : List Bool) : (bits.map fun l => (oneBit l).halfBits).sum = 2 * bits.length := by
  simp [oneBit, Nat.mul_comm]

/-- The length of a frame in half bit times: the start bit, the data bits, the parity bit if enabled, and the stop. -/
theorem length_wireFrame (fmt : BitVec 7) (b : Byte) :
    ((wireFrame fmt b).map WireStretch.halfBits).sum =
      2 * (1 + dataBits fmt + if parityEnable fmt then 1 else 0) + stopHalfBits fmt := by
  have h := sum_oneBit (frameData fmt b ++ frameParity fmt b)
  rw [List.length_append, length_frameData, List.map_append, List.sum_append] at h
  have hp : (frameParity fmt b).length = if parityEnable fmt then 1 else 0 := by unfold frameParity; split <;> rfl
  simp only [wireFrame, plainFrame, List.map_map, List.map_append, List.map_cons, List.map_nil, List.sum_append, List.sum_cons,
    List.sum_nil, List.cons_append, Function.comp_def]
  simp only [show (oneBit spacing).halfBits = 2 from rfl]
  omega

/-- Even parity: the data bits and the parity bit have an even number of ones together, and odd parity an odd number. -/
theorem parity_over_frame {fmt : BitVec 7} (hp : parityEnable fmt = true) (hs : stickParity fmt = false) (b : Byte) :
    oddOnes (frameData fmt b ++ frameParity fmt b) = !evenParity fmt := by
  have h : ∀ bits : List Bool, ∀ p, oddOnes (bits ++ [p]) = Bool.xor (oddOnes bits) p := by
    intro bits p
    induction bits with
    | nil => cases p <;> rfl
    | cons l rest ih =>
      simp only [oddOnes, List.cons_append, List.foldr_cons] at ih ⊢
      rw [ih, Bool.xor_assoc]
  rw [frameParity, if_pos hp, h, parityBit, if_neg (by simp [hs])]
  cases oddOnes (frameData fmt b) <;> cases evenParity fmt <;> rfl

/-- At LINE_8N1 the frame is ten bit times: start, d0 to d7, stop. -/
theorem wireFrame_8N1 (b : Byte) : wireFrame (0x03 : BitVec 7) b = (wireFrame8N1 b).map oneBit := by rfl

/-- The line between frames is at the marking level unless the format in force has break control set. -/
theorem idleLevel_marking {x : Uart} (h : ∀ fmt, x.fmt = some fmt → breakControl fmt = false) : x.idleLevel = marking := by
  unfold Uart.idleLevel
  split
  · next fmt e => simp [underBreak, h fmt e]
  · rfl

/-- A byte sent puts its frame, in the format in force, after those sent before it. -/
theorem wireFrames_transmit {x : Uart} {b : Byte} {rest : List Byte} (h : x.txfifo = b :: rest) :
    x.transmit.wireFrames = x.wireFrames ++ [x.fmt.map fun fmt => wireFrame fmt b] := by
  simp [Uart.wireFrames, Uart.transmit, h, LineRecord.wireFrame]

end Sys2Proof.Machine
end

