-- ==== Sys2Proof/Tests/Slice0.lean ====
section
/-! SUPPORT. Tests with expected results from spec/95_test_vectors.md and the rules (the name of the vector stands in each
docstring), and a named witness for the hypotheses of every obligation. -/

namespace Sys2Proof.Tests

open Sys2Proof.Machine

/-! ### Well-formedness (R94, R103) -/

/-- The last cell is a cell. -/
theorem test_wellFormed_lastChar : (Instr.gridCharStore 1999 0x41).wellFormed = true := by decide
/-- Cell 2000 does not exist. -/
theorem test_illFormed_charStore : (Instr.gridCharStore 2000 0x41).wellFormed = false := by decide
theorem test_wellFormed_lastAttr : (Instr.gridAttrStore 1999 0x0F).wellFormed = true := by decide
theorem test_illFormed_attrStore : (Instr.gridAttrStore 2000 0x0F).wellFormed = false := by decide
theorem test_wellFormed_lastLoad : (Instr.gridLoad 3999).wellFormed = true := by decide
/-- Byte offset 4000 is the first outside the window. -/
theorem test_illFormed_load : (Instr.gridLoad 4000).wellFormed = false := by decide

/-! ### Decoding: the words the spec prints -/

/-- V1. -/
theorem test_decode_portWrite : decode (.p 0x103FB03) = .ok (.portWrite 0x3FB 0x03) := by decide
/-- T7, transaction 1. -/
theorem test_decode_portRead : decode (.p 0x003FD00) = .ok (.portRead 0x3FD) := by decide
/-- V33. -/
theorem test_decode_txWrite : decode (.u .com1 0x1041) = .ok (.uartTxWrite .com1 0x41) := by decide
/-- V39. -/
theorem test_decode_divWrite : decode (.u .com1 0x1841) = .ok (.uartDivWrite .com1 0x41) := by decide
/-- V36. -/
theorem test_decode_fcrWrite : decode (.u .com1 0x12C7) = .ok (.uartFcrWrite .com1 0xC7) := by decide
/-- R108: the same instruction under either value of dlab. -/
theorem test_decode_lcrWrite : decode (.u .com2 0x1380) = .ok (.uartLcrWrite .com2 0x80) ∧
    decode (.u .com2 0x1B80) = .ok (.uartLcrWrite .com2 0x80) := by decide
/-- V41. -/
theorem test_decode_mcrWrite : decode (.u .com1 0x1403) = .ok (.uartMcrWrite .com1 0x03) := by decide
/-- V42. -/
theorem test_decode_lsrRead : decode (.u .com1 0x0500) = .ok (.uartLsrRead .com1) := by decide
/-- R178: the transmitter's step has no word. -/
theorem test_encode_txSend : encode (.uartTxSend .com1) = none := by decide
/-- T4. -/
theorem test_decode_indexWrite : decode (.c 0x2000E) = .ok (.crtcIndexWrite 0x0E) := by decide
/-- T4. -/
theorem test_decode_cursorHigh : decode (.c 0x30E04) = .ok (.crtcCursorHighWrite 0x04) := by decide
/-- T4. -/
theorem test_decode_cursorLow : decode (.c 0x30FD2) = .ok (.crtcCursorLowWrite 0xD2) := by decide
/-- V16. -/
theorem test_decode_charStore : decode (.m 0x20F9E41) = .ok (.gridCharStore 1999 0x41) := by decide
/-- V16. -/
theorem test_decode_attrStore : decode (.m 0x20F9F41) = .ok (.gridAttrStore 1999 0x41) := by decide
/-- V10. -/
theorem test_decode_load : decode (.m 0x0000100) = .ok (.gridLoad 1) := by decide

/-- The operands of the command tests. -/
def ops : CmdOperands := { port := 0x2F8, value := 0x41, fg := 0x1F, bg := 0x24, index := 1999, divisor := 0x0180, text := [0x48, 0x69] }

/-- The codes of R104, first half. -/
theorem test_decode_consoleCodes :
    decode (.cmd 0x0 ops) = .ok (.writePort 0x2F8 0x41) ∧ decode (.cmd 0x1 ops) = .ok (.readPort 0x2F8) ∧
    decode (.cmd 0x2 ops) = .ok (.fbWriteCell 1999 0x41 0x1F 0x24) ∧ decode (.cmd 0x3 ops) = .ok (.fbMoveCursor 1999) ∧
    decode (.cmd 0x4 ops) = .ok (.fbWrite [0x48, 0x69]) ∧ decode (.cmd 0x5 ops) = .ok .fbClear ∧
    decode (.cmd 0xE ops) = .ok .fbScroll ∧ decode (.cmd 0xF ops) = .ok .reservedCmd := by decide
/-- The codes of R104, second half. -/
theorem test_decode_serialCodes :
    decode (.cmd 0x6 ops) = .ok (.serialConfigureBaudRate 0x2F8 0x0180) ∧
    decode (.cmd 0x7 ops) = .ok (.serialConfigureLine 0x2F8) ∧ decode (.cmd 0x8 ops) = .ok (.serialConfigureBuffer 0x2F8) ∧
    decode (.cmd 0x9 ops) = .ok (.serialConfigureModem 0x2F8) ∧
    decode (.cmd 0xA ops) = .ok (.serialIsTransmitFifoEmpty 0x2F8) ∧ decode (.cmd 0xB ops) = .ok (.serialInit 0x2F8) ∧
    decode (.cmd 0xC ops) = .ok (.serialWrite 0x2F8 [0x48, 0x69]) ∧ decode (.cmd 0xD ops) = .ok (.print 0x2F8 [0x48, 0x69]) := by
  decide

/-- R105: a data-port read, a write at offset 1, a write at offset 5, a read at offset 3. -/
theorem test_decode_reservedUart :
    decode (.u .com1 0x0000) = .error (.reserved .uartDataRead) ∧
    decode (.u .com1 0x1100) = .error (.reserved .uartAccessNotModelled) ∧
    decode (.u .com1 0x1500) = .error (.reserved .uartAccessNotModelled) ∧
    decode (.u .com1 0x0300) = .error (.reserved .uartAccessNotModelled) := by decide
/-- R105: a data-port write under index 0x0A (V13), and a read. -/
theorem test_decode_reservedCursor :
    decode (.c 0x30A20) = .error (.reserved .crtcIndexNotModelled) ∧ decode (.c 0x10E00) = .error (.reserved .crtcRead) := by
  decide
/-- R103: byte offset 4000. -/
theorem test_decode_outsideWindow : decode (.m 0x20FA000) = .error (.outsideWindow 4000) := by decide

/-- The rows of spec/opcode_table.json, by length and match (R91, R101 to R104). -/
theorem test_tableWords :
    decodeTableWord 25 0x1000000 = some (.portWrite 0 0) ∧ decodeTableWord 13 0x0500 = some (.uartLsrRead .com1) ∧
    decodeTableWord 18 0x30F00 = some (.crtcCursorLowWrite 0) ∧ decodeTableWord 26 0x2000100 = some (.gridAttrStore 0 0) ∧
    decodeTableWord 4 0xC = some (.serialWrite 0 []) := by decide
/-- The same rows when only whole bytes are given (log 11). -/
theorem test_tableWords_bytes :
    decodeTableWord 32 0x1000000 = some (.portWrite 0 0) ∧ decodeTableWord 16 0x1800 = some (.uartDivWrite .com1 0) ∧
    decodeTableWord 24 0x20000 = some (.crtcIndexWrite 0) ∧ decodeTableWord 32 0x2000000 = some (.gridCharStore 0 0) ∧
    decodeTableWord 8 0x5 = some .fbClear := by decide

/-! ### States of the tests -/

/-- The state of a next outcome; the reset state for a stop. -/
def after (o : Host.Outcome State Fault Refusal) : State :=
  match o with
  | .next t => t
  | .fault _ => State.reset
  | .refused _ => State.reset

/-- UART[0] with LCR = 0x03 and the FIFO enabled, as FIFO_CFG leaves it, and TXFIFO = `bytes`. -/
def uartWith (bytes : List Byte) : Uart :=
  { Uart.reset with lcr := some 0x03, fifoEn := some true, rxTrig := some 3, fcrMisc := some 0, txfifo := bytes }

/-- The reset state with UART[0] = `x`. -/
def onCom1 (x : Uart) : State := { State.reset with uart0 := x }

/-- The reset state with CURSOR = `c` and the running commands `q`. -/
def running (c : Option Half) (q : List Frame) : State := { State.reset with cursor := c, seq := q }

/-- Sixteen bytes. -/
def sixteen : List Byte := List.replicate 16 0x41

/-- Every grid byte written. -/
@[irreducible] def fullGrid : Memory := (List.range 4000).map fun i => (Config.gridBase + i, 0x20)

/-! ### Instructions, one step each -/

/-- V2: UART[1] queues the byte, UART[0] is untouched. -/
theorem test_portWrite_com2 :
    (after (exec (.portWrite 0x2F8 0x41) { State.reset with uart1 := uartWith [] })).uart1.txfifo = [0x41] ∧
    (after (exec (.portWrite 0x2F8 0x41) { State.reset with uart1 := uartWith [] })).uart0 = Uart.reset := by decide
/-- V3. -/
theorem test_portWrite_unclaimed : exec (.portWrite 0x0080 0x55) State.reset = .next State.reset := by rfl
/-- V6. -/
theorem test_portRead_data : (after (exec (.portRead 0x3F8) State.reset)).refused = some .uartDataRead := by decide
/-- V6. -/
theorem test_portRead_cursor : (after (exec (.portRead 0x3D5) State.reset)).refused = some .crtcRead := by decide
/-- V33: the seventeenth byte is not queued. -/
theorem test_txWrite_full :
    (after (exec (.uartTxWrite .com1 0x42) (onCom1 (uartWith sixteen)))).fault = [.txOverrun .com1 0x42] ∧
    (after (exec (.uartTxWrite .com1 0x42) (onCom1 (uartWith sixteen)))).uart0.txfifo = sixteen := by decide
/-- V32. -/
theorem test_txWrite_unwritten :
    (after (exec (.uartTxWrite .com1 0x41) State.reset)).fault = [.unwrittenState (.uartLcr .com1)] := by decide
/-- V37, first write: the high byte, and the phase. -/
theorem test_divWrite_high :
    (after (exec (.uartDivWrite .com1 0x12) (onCom1 { Uart.reset with lcr := some 0x80 }))).uart0 =
      { Uart.reset with lcr := some 0x80, dlh := some 0x12, dlphase := true } := by decide
/-- V38, second write: the low byte. -/
theorem test_divWrite_low :
    (after (exec (.uartDivWrite .com1 0xBB)
      (onCom1 { Uart.reset with lcr := some 0x80, dlh := some 0xAA, dlphase := true }))).uart0.div = some 0xAABB := by decide
/-- V36. -/
theorem test_fcrWrite_clears : (after (exec (.uartFcrWrite .com1 0xC7) (onCom1 (uartWith [0x41, 0x42])))).uart0 = uartWith [] := by
  decide
/-- V35. -/
theorem test_fcrWrite_refused :
    (after (exec (.uartFcrWrite .com1 0x01) State.reset)).refused = some .fifoModeChangeWithoutClear := by decide
/-- V40: the phase is kept without bit 7 and reset with it. -/
theorem test_lcrWrite_phase :
    (after (exec (.uartLcrWrite .com1 0x03) (onCom1 { Uart.reset with dlphase := true }))).uart0.dlphase = true ∧
    (after (exec (.uartLcrWrite .com1 0x83) (onCom1 { Uart.reset with dlphase := true }))).uart0.dlphase = false := by decide
/-- V41. -/
theorem test_mcrWrite_pins :
    (after (exec (.uartMcrWrite .com1 0x0B) State.reset)).uart0.mcr = some 0x0B ∧
    (after (exec (.uartMcrWrite .com1 0x0B) State.reset)).uart0.rts = some true ∧
    (after (exec (.uartMcrWrite .com1 0x00) State.reset)).uart0.dtr = some false := by decide
/-- V41. -/
theorem test_mcrWrite_loopback : (after (exec (.uartMcrWrite .com1 0x13) State.reset)).refused = some .loopbackNotModelled := by
  decide
/-- V42, for every value of the draw. -/
theorem test_lsr_empty : ∀ r : Byte, (Uart.reset.lsr r).getLsbD 5 = true ∧ ((uartWith [0x41]).lsr r).getLsbD 5 = false := by
  decide
/-- V43. -/
theorem test_txSend :
    (after (exec (.uartTxSend .com1)
      (onCom1 { uartWith [0x75, 0x4F] with dlh := some 0x00, dll := some 0x03 }))).uart0.line = [⟨0x75, some 3, some 0x03⟩] ∧
    (after (exec (.uartTxSend .com1)
      (onCom1 { uartWith [0x75, 0x4F] with dlh := some 0x00, dll := some 0x03 }))).uart0.txfifo = [0x4F] := by decide
/-- R180: the byte `u` = 0x75 at LINE_8N1 is ten bit times: 0, then 1 0 1 0 1 1 1 0, then 1. -/
theorem test_wireFrame_8N1 :
    LineRecord.wireFrame ⟨0x75, some 3, some 0x03⟩ =
      some ([false, true, false, true, false, true, true, true, false, true].map oneBit) := by decide
/-- V40's format, 8 bits with even parity: 0x75 has five ones, so the parity bit is 1. -/
theorem test_wireFrame_evenParity :
    LineRecord.wireFrame ⟨0x75, some 3, some 0x1B⟩ =
      some ([false, true, false, true, false, true, true, true, false, true, true].map oneBit) := by decide
/-- R23: seven bits with odd parity and two stop bits; five bits with one and a half. -/
theorem test_wireFrame_longStop :
    LineRecord.wireFrame ⟨0x41, none, some 0x0E⟩ =
      some ([false, true, false, false, false, false, false, true, true].map oneBit ++ [⟨true, 4⟩]) ∧
    LineRecord.wireFrame ⟨0x41, none, some 0x04⟩ =
      some ([false, true, false, false, false, false].map oneBit ++ [⟨true, 3⟩]) := by decide
/-- R180: the idle line is marking; R23: break control forces it to spacing. -/
theorem test_idleLevel :
    Uart.reset.idleLevel = true ∧ (uartWith []).idleLevel = true ∧ ({ Uart.reset with lcr := some 0x43 } : Uart).idleLevel = false := by
  decide
/-- V44: sent under DLAB, with format bits 0. -/
theorem test_txSend_dlab :
    (after (exec (.uartTxSend .com1) (onCom1 { uartWith [0x41] with lcr := some 0x80, dlh := some 0x00, dll := some 0x0C }))).uart0.line =
      [⟨0x41, some 0x000C, some 0⟩] := by decide
/-- V11, first write. -/
theorem test_indexWrite : (after (exec (.crtcIndexWrite 0x0E) State.reset)).crtcIndex = some 0x0E := by decide
/-- V12, last write: HWCURSOR waits for the low byte. -/
theorem test_cursorHigh :
    (after (exec (.crtcCursorHighWrite 0x07)
      { State.reset with crtcIndex := some 0x0E, hwCursor := some 0x0081, curLo := some 0x81 })).hwCursor = some 0x0081 := by decide
/-- V11, last write. -/
theorem test_cursorLow :
    (after (exec (.crtcCursorLowWrite 0x81) { State.reset with crtcIndex := some 0x0F, curHi := some 0x07 })).hwCursor =
      some 1921 := by decide
/-- V14. -/
theorem test_cursorLow_unwritten :
    (after (exec (.crtcCursorLowWrite 0x10) { State.reset with crtcIndex := some 0x0F })).hwCursor = none ∧
    (after (exec (.crtcCursorLowWrite 0x10) { State.reset with crtcIndex := some 0x0F })).curLo = some 0x10 := by decide
/-- V8. -/
theorem test_charStore : (after (exec (.gridCharStore 0 0x48) State.reset)).grid = [(0xB8000, 0x48)] := by decide
/-- V9. -/
theorem test_attrStore : (after (exec (.gridAttrStore 1999 0x0F) State.reset)).grid = [(0xB8F9F, 0x0F)] := by decide
/-- V10. -/
theorem test_load : (after (exec (.gridLoad 0) { State.reset with grid := [(0xB8000, 0x48)] })).result = some (.byte 0x48) := by
  decide
/-- V10. -/
theorem test_load_unwritten : (after (exec (.gridLoad 0) State.reset)).fault = [.unwrittenState (.gridByte 0)] := by decide
/-- V1. -/
theorem test_writePort : (after (exec (.writePort 0x3FB 0x03) State.reset)).uart0.lcr = some 0x03 := by decide
/-- V6. -/
theorem test_readPort : (after (exec (.readPort 0x3FE) State.reset)).refused = some .uartAccessNotModelled := by decide
/-- V17: the attribute of masked colours. -/
theorem test_writeCell_masked :
    (running none [.writeCell 3 0x21 0x1F 0x24 .attr]).issues = some (.gridAttrStore 3 0x4F) := by decide
/-- V18. -/
theorem test_writeCell_outOfRange :
    (after (step (running none [.writeCell 2000 0x41 0xF 0x0 .char]))).fault = [.gridIndexOutOfRange 2000] := by decide
/-- V20: 2000 is admitted, 2001 is not. -/
theorem test_moveCursor_range :
    (running none [.moveCursor 2000 .highData]).issues = some (.portWrite 0x3D5 0x07) ∧
    (after (step (running none [.moveCursor 2001 .highCmd]))).fault = [.cursorOutOfRange 2001] := by decide
/-- T4: the low byte of 1234. -/
theorem test_moveCursor_low : (running none [.moveCursor 1234 .lowData]).issues = some (.portWrite 0x3D5 0xD2) := by decide
/-- T2: the cursor inside the newline step. -/
theorem test_fbWrite_newline :
    (after (step (running (some 0) [.fbWrite [0x0A] (.head 0)]))).cursor = some 79 ∧
    (after (step (running (some 79) [.fbWrite [0x0A] (.advance 0)]))).cursor = some 80 := by decide
/-- V26: a control byte that is no newline is stored. -/
theorem test_fbWrite_control :
    (running (some 0) [.fbWrite [0x0D] (.head 0)]).issues = some (.gridCharStore 0 0x0D) := by decide
/-- V30: the scroll's first load. -/
theorem test_fbScroll_unwritten :
    (running (some 2000) [.fbWrite [0x61] (.head 0)]).issues = some (.gridLoad 160) ∧
    (after (step (running (some 2000) [.fbWrite [0x61] (.head 0)]))).fault = [.unwrittenState (.gridByte 160)] := by decide
/-- V27: the cursor after a scroll. -/
theorem test_fbScroll_cursor :
    (after (step (running (some 2000) [.scroll (.blank 2000), .fbWrite [0x42] (.body 0)]))).cursor = some 1920 := by decide
/-- T3: the first store, and the cursor before it is moved home. -/
theorem test_fbClear :
    (running none [.clear (.blank 0)]).issues = some (.gridCharStore 0 0x00) ∧
    (after (step (running none [.clear (.blank 2000)]))).cursor = some 0 := by decide
/-- V46. -/
theorem test_configureBaud :
    (running none [.configureBaud 0x2F8 0xFFFF .enable]).issues = some (.portWrite 0x2FB 0x80) ∧
    (running none [.configureBaud 0x3F8 0x0180 .high]).issues = some (.portWrite 0x3F8 0x01) := by decide
/-- V7: the port sum wraps. -/
theorem test_configureLine_wraps : (running none [.configureLine 0xFFFE]).issues = some (.portWrite 0x0001 0x03) := by decide
/-- V47. -/
theorem test_configureBuffer : (running none [.configureBuffer 0x2F8]).issues = some (.portWrite 0x2FA 0xC7) := by decide
/-- V47. -/
theorem test_configureModem : (running none [.configureModem 0x2F8]).issues = some (.portWrite 0x2FC 0x03) := by decide
/-- V48. -/
theorem test_isTxEmpty : (running none [.isTxEmpty 0x3F8]).issues = some (.portRead 0x3FD) := by decide
/-- V49: the first of the six writes. -/
theorem test_init : (running none [.init 0x3F8 .baud]).issues = some (.portWrite 0x3FB 0x80) := by decide
/-- V50: the read of the spin; V54: the data write. -/
theorem test_serialWrite :
    (running none [.serialWrite 0x3F8 [] .spin]).issues = some (.portRead 0x3FD) ∧
    (running none [.serialWrite 0x2F8 [0x41] (.payload 0)]).issues = some (.portWrite 0x2F8 0x41) := by decide
/-- P5, once `print` has forwarded to the console. -/
theorem test_print_console :
    (after (step (running none [.fbWrite [0x61] (.head 0), .print 0 [0x61] true]))).fault = [.unwrittenState .cursor] := by decide
/-- R105. -/
theorem test_reservedCmd : (after (exec .reservedCmd State.reset)).refused = some .reservedCommand := by decide
/-- R138: row and column of the displayed cursor at 175 (T6). -/
theorem test_shownCursor : ({ State.reset with hwCursor := some 175 } : State).shownCursor = some (2, 15) := by decide

/-! ### Witnesses: states and operands that meet the hypotheses of the obligations, clause by clause -/

/-- A run in progress: CURSOR at the scroll-pending position, a byte to process, a byte queued at UART[0]. -/
def busy : State :=
  { State.reset with
    uart0 := uartWith [0x41], grid := [(0xB8000, 0x48)], cursor := some 2000, seq := [.fbWrite [0x42] (.head 0)], curHi := some 0x07,
    curLo := some 0xD0, hwCursor := some 0x07D0, crtcIndex := some 0x0F }

/-- The same, idle. -/
def idle : State := { busy with seq := [] }

/-- A fault recorded, UART[0] still holding a byte. -/
def faulted : State := { idle with fault := [.txOverrun .com1 0x41] }

theorem uartWith_inv (bytes : List Byte) (h : bytes.length ≤ 16) : (uartWith bytes).Inv :=
  ⟨by simpa [uartWith, Uart.txcap, txCapacity, Config.txFifoDepth], fun _ => rfl, rfl, rfl, rfl, by simp [uartWith, Uart.reset],
    rfl, rfl⟩

theorem uartReset_inv : Uart.reset.Inv :=
  ⟨by decide, by decide, rfl, rfl, rfl, by decide, rfl, rfl⟩

theorem busy_inv : busy.Inv :=
  ⟨uartWith_inv _ (by decide), uartReset_inv, by decide, by decide, by decide, by decide, by decide, by decide, by decide⟩

theorem idle_inv : idle.Inv :=
  ⟨uartWith_inv _ (by decide), uartReset_inv, by decide, by decide, by decide, by decide, by decide, by decide, by decide⟩

theorem idle_ready : idle.Ready := ⟨rfl, rfl, rfl, rfl⟩

theorem read_run (b n k : Nat) (v : Byte) (h : k < n) :
    Memory.read ((List.range' b n).map fun a => (a, v)) (b + k) = some v := by
  induction n generalizing b k with
  | zero => omega
  | succ n ih =>
    cases k with
    | zero => simp [List.range']
    | succ k =>
      rw [List.range', List.map_cons, Memory.read_cons, if_neg (by simp), show b + (k + 1) = b + 1 + k by omega]
      exact ih _ _ (by omega)

/-- Every byte of the full grid has a value. -/
theorem fullGrid_read (off : Nat) (h : off < 4000) : Memory.read fullGrid (gridAddr off) = some 0x20 := by
  have e : fullGrid = (List.range' Config.gridBase 4000).map fun a => (a, (0x20 : Byte)) := by
    unfold fullGrid
    rw [List.range'_eq_map_range, List.map_map]
    rfl
  rw [e]
  exact read_run _ _ _ _ h

theorem fullGrid_some (s : State) (hg : s.grid = fullGrid) (off : Nat) (h : off < 4000) : (s.gridByte off).isSome = true := by
  rw [State.gridByte, hg, fullGrid_read off h]
  rfl

/-- The invariant holds of a state that takes a step. -/
theorem witness_EveryStepKeepsTheInvariant : busy.Inv ∧ ∃ t, step busy = .next t := ⟨busy_inv, _, rfl⟩

/-- Well-formed instructions at the edge of the window, and one without a word. -/
theorem witness_DecodeOfEncodeIsTheInstruction :
    (Instr.gridLoad 3999).wellFormed = true ∧ (encode (.gridLoad 3999)).isSome = true ∧
    (Instr.uartTxSend .com2).wellFormed = true ∧ encode (.uartTxSend .com2) = none := by decide

/-- Both clauses at the edge of the window. -/
theorem witness_GridWordsDecodeByTheirFields : 4000 ≤ (4000 : BitVec 17).toNat ∧ (3999 : BitVec 17).toNat < 4000 := by decide

/-- The clauses of the step: a request that decodes, a reserved one, one outside the window, a running command, a scheduled
transmitter, a word placed by the host; all unmarked. -/
theorem witness_StepRunsTheDecodedInstruction :
    (({ idle with inbox := [.cmd 0x5 {}] } : State).refused = none ∧ decode (.cmd 0x5 {}) = .ok .fbClear) ∧
    decode (.u .com1 0x0000) = .error (.reserved .uartDataRead) ∧ decode (.m 0x20FA000) = .error (.outsideWindow 4000) ∧
    (busy.refused = none ∧ busy.sched = [] ∧ busy.seq ≠ []) ∧
    ({ busy with sched := [.transmitter .com1] } : State).sched = .transmitter .com1 :: [] ∧
    decodeTableWord 4 0x5 = some .fbClear := by decide

/-- A step with a transaction, and one without. -/
theorem witness_EachSequencerStepIsOneTransaction :
    (busy.Inv ∧ busy.DriverReady ∧ busy.seq ≠ [] ∧ busy.issues = some (.gridLoad 160)) ∧
    ({ busy with seq := [.clear (.blank 2000)] } : State).issues = none :=
  ⟨⟨busy_inv, ⟨rfl, rfl⟩, by decide, by decide⟩, by decide⟩

/-- The conditions of the FIFO-control, modem, divisor and data clauses, and of the two cursor clauses. -/
theorem witness_PortTransactionsReachTheirRegister :
    (0x03 : Byte).getLsbD 4 = false ∧ ((0xC7 : Byte).getLsbD 1 = true ∧ (0xC7 : Byte).getLsbD 2 = true) ∧
    (uartWith []).fifoEn = some ((0x01 : Byte).getLsbD 0) ∧ ({ Uart.reset with lcr := some 0x80 } : Uart).dlab = some true ∧
    ((uartWith [0x41]).dlab = some false ∧ (uartWith [0x41]).txcap = some 16 ∧ (uartWith [0x41]).txfifo.length < 16) ∧
    ({ State.reset with crtcIndex := some 0x0E } : State).crtcIndex = some 0x0E ∧ idle.crtcIndex = some 0x0F := by decide

/-- A U word that decodes and one that is reserved, in either direction; LCR unwritten; C words of either port. -/
theorem witness_PortTransactionIsTheDecodedDeviceWord :
    (idle.uWord .com1 true 0 0x41 = some 0x1041 ∧ decode (.u .com1 0x1041) = .ok (.uartTxWrite .com1 0x41)) ∧
    (idle.uWord .com1 true 7 0 = some 0x1700 ∧ decode (.u .com1 0x1700) = .error (.reserved .uartAccessNotModelled)) ∧
    (idle.uWord .com1 false 5 0 = some 0x0500 ∧ decode (.u .com1 0x0500) = .ok (.uartLsrRead .com1)) ∧
    (idle.uWord .com1 false 0 0 = some 0x0000 ∧ decode (.u .com1 0x0000) = .error (.reserved .uartDataRead)) ∧
    (idle.uart .com2).lcr = none ∧
    (idle.cWord true 0xD0 = some 0x30FD0 ∧ decode (.c 0x30FD0) = .ok (.crtcCursorLowWrite 0xD0)) ∧
    (idle.cWord false 0x0E = some 0x2000E ∧ decode (.c 0x2000E) = .ok (.crtcIndexWrite 0x0E)) ∧
    (({ idle with crtcIndex := some 0x0A } : State).cWord true 0x20 = some 0x30A20 ∧
      decode (.c 0x30A20) = .error (.reserved .crtcIndexNotModelled)) := by decide

/-- V3's port, and the ports beside the claimed ones. -/
theorem witness_UnclaimedPortIsInert :
    ∀ port ∈ ([0x0080, 0x3F7, 0x400, 0x2F7, 0x300, 0x3D3, 0x3D6] : List Port),
      (∀ (u : UartId) (off : BitVec 3), port ≠ base u + off.setWidth 16) ∧ port ≠ 0x3D4 ∧ port ≠ 0x3D5 := by
  intro port hp
  simp only [List.mem_cons, List.not_mem_nil, or_false] at hp
  rcases hp with rfl | rfl | rfl | rfl | rfl | rfl | rfl <;>
    exact ⟨fun u => by cases u <;> decide, by decide, by decide⟩

/-- Line-control writes to the two UARTs. -/
theorem witness_WritesToDifferentDevicesCommute :
    sameDevice 0x3FB 0x2FB = false ∧ State.reset.fault = [] ∧ State.reset.refused = none ∧
    (∃ t, exec (.portWrite 0x3FB 0x03) State.reset = .next t ∧ t.fault = [] ∧ t.refused = none) ∧
    (∃ t, exec (.portWrite 0x2FB 0x80) State.reset = .next t ∧ t.fault = [] ∧ t.refused = none) :=
  ⟨by decide, rfl, rfl, ⟨_, rfl, rfl, rfl⟩, ⟨_, rfl, rfl, rfl⟩⟩

theorem witness_DirectPortCommandsAreThePortTransaction : idle.seq = [] ∧ idle.fault = [] := ⟨rfl, rfl⟩

/-- A busy block, and a faulted one. -/
theorem witness_CommandsWaitWhileBusyOrFaulted :
    isCommand .fbClear = true ∧ busy.seq ≠ [] ∧ faulted.fault ≠ [] := by decide

theorem witness_GridStoresWriteOneByte : (1999 : Half).toNat < 2000 := by decide

/-- A written byte, an unwritten one, and the first offset and cell outside the window. -/
theorem witness_GridLoadReturnsTheStoredByte :
    (idle.gridByte (0 : BitVec 17).toNat = some 0x48 ∧ idle.gridByte (3999 : BitVec 17).toNat = none) ∧
    ((0 : BitVec 17).toNat < 4000 ∧ (3999 : BitVec 17).toNat < 4000) ∧
    4000 ≤ (4000 : BitVec 17).toNat ∧ 2000 ≤ (2000 : Half).toNat := by decide

theorem witness_IndexAndHighByteWritesLoadOneRegister :
    ({ State.reset with crtcIndex := some 0x0E } : State).crtcIndex = some Config.cursorHighCmd := by decide

/-- CUR_HI written, and not (V14). -/
theorem witness_CursorLowWriteCommitsThePosition :
    (idle.crtcIndex = some Config.cursorLowCmd ∧ idle.curHi = some 0x07) ∧
    (({ State.reset with crtcIndex := some 0x0F } : State).crtcIndex = some Config.cursorLowCmd ∧ State.reset.curHi = none) := by
  decide

/-- The index not written, and the indexes beside the two commands. -/
theorem witness_CursorPortsRefuseEverythingElse :
    ∀ i ∈ ([none, some 0x0D, some 0x10] : List (Option Byte)),
      ({ State.reset with crtcIndex := i } : State).crtcIndex ≠ some 0x0E ∧
      ({ State.reset with crtcIndex := i } : State).crtcIndex ≠ some 0x0F := by
  intro i hi
  simp only [List.mem_cons, List.not_mem_nil, or_false] at hi
  rcases hi with rfl | rfl | rfl <;> decide

/-- The last free place of either capacity. -/
theorem witness_TxWriteQueuesTheByte :
    ((uartWith (List.replicate 15 0x41)).lcr = some 0x03 ∧ (0x03 : Byte).getLsbD 7 = false ∧
      (uartWith (List.replicate 15 0x41)).fifoEn = some true ∧ (uartWith (List.replicate 15 0x41)).txfifo.length < 16) ∧
    (({ uartWith [] with fifoEn := some false } : Uart).fifoEn = some false ∧
      ({ uartWith [] with fifoEn := some false } : Uart).txfifo.length < 1) := by decide

/-- LCR unwritten; FIFO_EN unwritten; the FIFO full at either capacity. -/
theorem witness_DataWriteFaultsInOrder :
    (State.reset.uart .com1).lcr = none ∧
    (({ Uart.reset with lcr := some 0x03 } : Uart).lcr = some 0x03 ∧ (0x03 : Byte).getLsbD 7 = false ∧
      ({ Uart.reset with lcr := some 0x03 } : Uart).fifoEn = none) ∧
    ((uartWith sixteen).fifoEn = some true ∧ 16 ≤ (uartWith sixteen).txfifo.length) ∧
    (({ uartWith [0x41] with fifoEn := some false } : Uart).fifoEn = some false ∧
      1 ≤ ({ uartWith [0x41] with fifoEn := some false } : Uart).txfifo.length) := by decide

/-- DLAB set, in either phase. -/
theorem witness_DivisorWritesLoadHighThenLow :
    (0x80 : Byte).getLsbD 7 = true ∧ ({ Uart.reset with lcr := some 0x80 } : Uart).dlphase = false ∧
    ({ Uart.reset with lcr := some 0x80, dlphase := true } : Uart).dlphase = true := by decide

/-- The mode kept; changed with both clears; changed without them (V35). -/
theorem witness_FifoControlWriteSetsItsFields :
    (uartWith []).fifoEn = some ((0x01 : Byte).getLsbD 0) ∧ ((0x06 : Byte).getLsbD 1 = true ∧ (0x06 : Byte).getLsbD 2 = true) ∧
    ((State.reset.uart .com1).fifoEn ≠ some ((0x01 : Byte).getLsbD 0) ∧
      ¬ ((0x01 : Byte).getLsbD 1 = true ∧ (0x01 : Byte).getLsbD 2 = true)) := by decide

theorem witness_ModemControlWriteDrivesThePins : (0x0B : Byte).getLsbD 4 = false ∧ (0x13 : Byte).getLsbD 4 = true := by decide

/-- The offsets of either clause. -/
theorem witness_OtherUartAccessesAreRefused :
    ((7 : BitVec 3) = 1 ∨ (7 : BitVec 3) = 5 ∨ (7 : BitVec 3) = 6 ∨ (7 : BitVec 3) = 7) ∧ (4 : BitVec 3) ≠ 0 ∧ (4 : BitVec 3) ≠ 5 := by
  decide

theorem witness_TransmitterSendsTheOldestByte :
    (idle.uart .com1).txfifo = 0x41 :: [] ∧ (idle.uart .com2).txfifo = [] := by decide

theorem witness_UartsAreIndependent :
    UartId.com1 ≠ .com2 ∧ ∃ off : BitVec 3, ∃ v, Instr.portWrite 0x3FF 0x55 = .portWrite (base .com1 + off.setWidth 16) v :=
  ⟨by decide, 7, 0x55, by decide⟩

/-- Fifteen writes beside the byte already queued, with a status read and a transmitter step among them. -/
theorem witness_FifoKeepsTheOrderWithinItsDepth :
    (∀ i ∈ [Instr.uartTxWrite .com1 0x42, .uartLsrRead .com1, .uartTxSend .com1] ++ List.replicate 14 (.uartTxWrite .com1 0x43),
      fifoEvent .com1 i = true) ∧
    (idle.uart .com1).lcr = some 0x03 ∧ (0x03 : Byte).getLsbD 7 = false ∧ (idle.uart .com1).fifoEn = some true ∧
    (idle.uart .com1).txfifo.length + (payloads ([Instr.uartTxWrite .com1 0x42, .uartLsrRead .com1, .uartTxSend .com1] ++
      List.replicate 14 (.uartTxWrite .com1 0x43))).length = 16 := by decide

/-- The first clause: a list that runs without a new fault. -/
theorem witness_FifoKeepsTheOrder_run :
    ∃ t, execList [.uartTxWrite .com1 0x42, .uartTxSend .com1] idle = .next t ∧ t.fault = idle.fault := ⟨_, rfl, rfl⟩

/-- The last cell, and the first index that is none. -/
theorem witness_WriteCellStoresOneCellOrFaults : idle.Ready ∧ (1999 : Half).toNat < 2000 ∧ 2000 ≤ (2000 : Half).toNat :=
  ⟨idle_ready, by decide, by decide⟩

/-- The scroll-pending position, and the first beyond it (V20). -/
theorem witness_MoveCursorSendsHighByteFirstOrFaults : idle.Ready ∧ (2000 : Half).toNat ≤ 2000 ∧ 2000 < (2001 : Half).toNat :=
  ⟨idle_ready, by decide, by decide⟩

/-- V24: a newline in the last column. V29: the newline met after a scroll. -/
theorem witness_NewlineStepWritesNoCell :
    ((running (some 79) [.fbWrite [0x0A] (.head 0)]).DriverReady ∧
      (running (some 79) [.fbWrite [0x0A] (.head 0)]).seq = .fbWrite [0x0A] (.head 0) :: [] ∧ (79 : Half).toNat < 2000) ∧
    ((running (some 1920) [.fbWrite [0x0A] (.body 0)]).DriverReady ∧
      (running (some 1920) [.fbWrite [0x0A] (.body 0)]).seq = .fbWrite [0x0A] (.body 0) :: [] ∧ (1920 : Half).toNat < 2000) ∧
    ([0x0A] : List Byte)[0]? = some Config.newline :=
  ⟨⟨⟨rfl, rfl⟩, rfl, by decide⟩, ⟨⟨rfl, rfl⟩, rfl, by decide⟩, by decide⟩

/-- A character at the last cell. V27: the character met after a scroll. -/
theorem witness_CharacterStepWritesTheCellAtTheCursor :
    ((running (some 1999) [.fbWrite [0x42] (.head 0)]).DriverReady ∧
      (running (some 1999) [.fbWrite [0x42] (.head 0)]).seq = .fbWrite [0x42] (.head 0) :: [] ∧ (1999 : Half).toNat < 2000) ∧
    ((running (some 1920) [.fbWrite [0x42] (.body 0)]).DriverReady ∧
      (running (some 1920) [.fbWrite [0x42] (.body 0)]).seq = .fbWrite [0x42] (.body 0) :: [] ∧ (1920 : Half).toNat < 2000) ∧
    ([0x42] : List Byte)[0]? = some 0x42 ∧ (0x42 : Byte) ≠ Config.newline :=
  ⟨⟨⟨rfl, rfl⟩, rfl, by decide⟩, ⟨⟨rfl, rfl⟩, rfl, by decide⟩, by decide, by decide⟩

/-- T1's boundary instance: the text fills the grid. -/
theorem witness_FbWriteReadsBack :
    (running (some 1998) []).Ready ∧ (running (some 1998) []).cursor = some 1998 ∧
    (∀ b ∈ ([0x58, 0x59] : List Byte), b ≠ Config.newline) ∧ (1998 : Half).toNat + ([0x58, 0x59] : List Byte).length ≤ 2000 :=
  ⟨⟨rfl, rfl, rfl, rfl⟩, rfl, by decide, by decide⟩

theorem witness_FbWriteWithoutCursorFaults : State.reset.Ready ∧ State.reset.cursor = none := ⟨⟨rfl, rfl, rfl, rfl⟩, rfl⟩

/-- A byte to process at the scroll-pending position, on a grid every byte of which is written. -/
theorem witness_ScrollMovesTheGridUpFirst :
    ({ busy with grid := fullGrid } : State).DriverReady ∧
    ({ busy with grid := fullGrid } : State).seq = .fbWrite [0x42] (.head 0) :: [] ∧ 0 < ([0x42] : List Byte).length ∧
    ({ busy with grid := fullGrid } : State).cursor = some 2000 ∧ (2000 : Half).toNat = 2000 ∧
    (∀ off, 160 ≤ off → off < 4000 → (({ busy with grid := fullGrid } : State).gridByte off).isSome = true) :=
  ⟨⟨rfl, rfl⟩, rfl, by decide, rfl, by decide, fun off _ h => fullGrid_some _ rfl off h⟩

theorem witness_ClearBlanksTheGrid : idle.Ready := idle_ready

theorem witness_ConsoleCommandsTerminate :
    consoleBound (.fbWrite []) ≠ 0 ∧ consoleBound .fbClear ≠ 0 ∧ consoleBound (.fbMoveCursor 2001) ≠ 0 ∧
    consoleBound (.fbWriteCell 2000 0 0 0) ≠ 0 ∧ idle.Inv ∧ idle.Ready :=
  ⟨by decide, by decide, by decide, by decide, idle_inv, idle_ready⟩

theorem witness_FbWriteIsNeverOutOfRange : idle.Inv ∧ idle.Ready ∧ idle.inbox = [] := ⟨idle_inv, idle_ready, rfl⟩

theorem witness_RunningCommandsStayInTheWindow : busy.Inv ∧ busy.refused = none ∧ busy.seq ≠ [] := ⟨busy_inv, rfl, by decide⟩

/-- V52's base is no device's. -/
theorem witness_ConfigureBaudRateLatchesTheDivisor :
    idle.Ready ∧ claim ((0x0100 : Port) + 3) = .unclaimed ∧ claim (0x0100 : Port) = .unclaimed :=
  ⟨idle_ready, by decide, by decide⟩

theorem witness_ConfigureLineBufferModemSendOneByte : idle.Ready := idle_ready

theorem witness_StatusPollAnswersTransmitEmpty :
    idle.Ready ∧ (0x2F8 : Port) = base .com2 ∧ claim ((0x0100 : Port) + 5) = .unclaimed :=
  ⟨idle_ready, by decide, by decide⟩

theorem witness_InitConfiguresThePort :
    idle.Ready ∧ claim (0x0100 : Port) = .unclaimed ∧ claim ((0x0100 : Port) + 2) = .unclaimed ∧
    claim ((0x0100 : Port) + 3) = .unclaimed ∧ claim ((0x0100 : Port) + 4) = .unclaimed :=
  ⟨idle_ready, by decide, by decide, by decide, by decide⟩

/-- V51: a text of the depth. -/
theorem witness_SerialWriteQueuesAShortText :
    State.reset.Ready ∧ (State.reset.uart .com1).txfifo = [] ∧ sixteen.length ≤ 16 :=
  ⟨⟨rfl, rfl, rfl, rfl⟩, rfl, by decide⟩

/-- A text of two bytes. -/
theorem witness_SerialWriteDeliversWithAPromptTransmitter :
    ({ State.reset with sched := promptSchedule .com1 2 } : State).seq = [] ∧
    ({ State.reset with sched := promptSchedule .com1 2 } : State).fault = [] ∧
    ({ State.reset with sched := promptSchedule .com1 2 } : State).refused = none ∧
    ({ State.reset with sched := promptSchedule .com1 2 } : State).sched = promptSchedule .com1 ([0x6F, 0x6B] : List Byte).length ∧
    (({ State.reset with sched := promptSchedule .com1 2 } : State).uart .com1).txfifo = [] :=
  ⟨rfl, rfl, rfl, rfl, rfl⟩

/-- V51: one byte more than the depth. -/
theorem witness_SerialWriteOverrunsWithoutTheTransmitter :
    State.reset.Ready ∧ (State.reset.uart .com1).txfifo = [] ∧ 16 < (0x42 :: sixteen).length :=
  ⟨⟨rfl, rfl, rfl, rfl⟩, rfl, by decide⟩

/-- The spin at a UART, at no device, and for ever. -/
theorem witness_SpinEndsOnlyWhenTheStatusShowsEmpty :
    ((running none [.serialWrite 0x2F8 [0x41] .spin]).DriverReady ∧
      (running none [.serialWrite 0x2F8 [0x41] .spin]).seq = .serialWrite 0x2F8 [0x41] .spin :: [] ∧
      (0x2F8 : Port) = base .com2 ∧ claim ((0x0100 : Port) + 5) = .unclaimed) ∧
    (idle.Ready ∧ (idle.uart .com1).txfifo ≠ []) :=
  ⟨⟨⟨rfl, rfl⟩, rfl, by decide, by decide⟩, idle_ready, by decide⟩

/-- A first step of the forwarded `serial.write` that leaves no mark. -/
theorem witness_PrintRunsAsTheForwardedCommand :
    idle.Ready ∧ idle.inbox = [] ∧
    ∃ u t, exec (.serialWrite 0x3F8 [0x41]) idle = .next u ∧ steps (0 + 1) u = .next t ∧ t.refused = none := by
  refine ⟨idle_ready, rfl, { idle with seq := [.serialWrite 0x3F8 [0x41] .spin], result := none }, ?_⟩
  have h := steps_running (s := { idle with seq := [.serialWrite 0x3F8 [0x41] .spin], result := none }) 0 rfl rfl rfl
    (seq_serialWrite_spin rfl (portRead_status .com1 _))
  exact ⟨_, rfl, h, rfl⟩

/-- V55, at whichever of two ports inside COM1's block is not the console channel: the first step of the forwarded `serial.write` is
refused, and the second is the stop. -/
theorem witness_PrintRunsAsTheForwardedCommand_refused :
    ∃ channel : Port, channel ≠ Config.consoleChannel ∧
      ∃ u t, exec (.serialWrite channel [0x41]) idle = .next u ∧ steps (0 + 1) u = .next t ∧
        t.refused = some .uartAccessNotModelled ∧ steps (1 + 1) u = .refused (.markedRefused .uartAccessNotModelled) := by
  by_cases h : (0x3FA : Port) = Config.consoleChannel
  · exact ⟨0x3F9, by rw [← h]; decide, _, _, rfl, rfl, rfl, rfl⟩
  · exact ⟨0x3FA, h, _, _, rfl, rfl, rfl, rfl⟩

/-- A text of the depth for the serial clause; T1's boundary instance for the console's. -/
theorem witness_PrintCompletesOnEitherDevice :
    ((running (some 1998) []).Ready ∧ ((running (some 1998) []).uart .com1).txfifo = [] ∧ sixteen.length ≤ 16) ∧
    ((running (some 1998) []).cursor = some 1998 ∧ (∀ b ∈ ([0x58, 0x59] : List Byte), b ≠ Config.newline) ∧
      (1998 : Half).toNat + ([0x58, 0x59] : List Byte).length ≤ 2000) :=
  ⟨⟨⟨rfl, rfl, rfl, rfl⟩, rfl, by decide⟩, rfl, by decide, by decide⟩

theorem witness_FaultIsTerminal : faulted.fault ≠ [] ∧ faulted.seq = [] ∧ faulted.refused = none := by decide

theorem witness_ReservedCommandsAreRefused :
    idle.seq = [] ∧ ({ idle with refused := some .reservedCommand } : State).refused = some .reservedCommand := ⟨rfl, rfl⟩

/-- The transmitter of UART[0] sends the byte queued. -/
theorem witness_LineGrowsOnlyByItsTransmitter :
    ∃ t, step { idle with sched := [.transmitter .com1] } = .next t ∧
      (t.uart .com1).line ≠ (({ idle with sched := [.transmitter .com1] } : State).uart .com1).line :=
  ⟨_, rfl, by decide⟩

/-- A low-byte write that moves the displayed cursor. -/
theorem witness_HwCursorLoadsOnlyWithTheLowByte :
    ∃ t, step { idle with inbox := [.c 0x30F81] } = .next t ∧
      t.hwCursor ≠ ({ idle with inbox := [.c 0x30F81] } : State).hwCursor :=
  ⟨_, rfl, by decide⟩

end Sys2Proof.Tests
end

section
namespace Sys2Proof.Config

/-- The console is no serial base, whatever the open channel is: a choice of a base is moved one port up, and neither base
follows the other (R8, log 10). -/
theorem consoleChannel_ne_bases : consoleChannel ≠ com1Base ∧ consoleChannel ≠ com2Base := by
  unfold consoleChannel
  split
  next h =>
    obtain h | h := h
    · rw [h]; decide
    · rw [h]; decide
  next h => exact not_or.mp h

/-- The cursor's two ports lie outside both UARTs' blocks of eight (R8). -/
theorem crtcPorts_notMem_uartPorts :
    (crtcCmdPort ∉ uartPorts com1Base ∧ crtcDataPort ∉ uartPorts com1Base) ∧
    (crtcCmdPort ∉ uartPorts com2Base ∧ crtcDataPort ∉ uartPorts com2Base) := by decide

/-- TX_EMPTY_MASK is the mask of LSR's bit 5 alone (R8, D7). -/
theorem txEmptyMask_eq_twoPow : txEmptyMask = BitVec.twoPow 8 5 := by decide

/-- Settles O4, clause by clause: of the two open parameters only CONSOLE_CHANNEL meets a constraint, by
`consoleChannel_ne_bases`; the other clauses are about parameters with a value. -/
theorem configurationMeetsItsConstraints : Obligations.ConfigurationMeetsItsConstraints where
  width_pos := by decide
  height_pos := by decide
  cells_fit := by decide
  port_width := rfl
  bases_differ := by decide
  uarts_disjoint := Machine.uartPorts_disjoint
  com1_not_crtc := crtcPorts_notMem_uartPorts.1
  com2_not_crtc := crtcPorts_notMem_uartPorts.2
  crtc_ports_differ := by decide
  cursor_cmds_differ := by decide
  console_not_com1 := consoleChannel_ne_bases.1
  console_not_com2 := consoleChannel_ne_bases.2
  one_mask_bit := ⟨5, txEmptyMask_eq_twoPow⟩
  dlab_bit_set := by decide
  dlab_bit_clear := by decide
  fifo_depth_pos := by decide
  window_fits := by decide

end Sys2Proof.Config
end

section
namespace Sys2Proof.Machine

/-! ### Reset (R40) -/

/-- Settles O1: each register of the table, read off `State.reset`. -/
theorem resetHoldsTheTableValues : Obligations.ResetHoldsTheTableValues := by
  refine ⟨fun u => ?_, fun _ => rfl, rfl, rfl, rfl, rfl, rfl, rfl, rfl, rfl⟩
  cases u <;> exact ⟨rfl, rfl, rfl, rfl, rfl, rfl, rfl, rfl, rfl, rfl, rfl, rfl, rfl⟩

/-- A UART after reset meets its invariant: both FIFOs are empty and no byte with a field was written. -/
theorem Uart.reset_inv : Uart.reset.Inv where
  fifo_fits := Nat.zero_le _
  fifo_lcr h := absurd rfl h
  rx_empty := rfl
  dtr_bit := rfl
  rts_bit := rfl
  no_loopback h := nomatch h
  trig_written := rfl
  misc_written := rfl

/-- Settles O2, field by field of the invariant. -/
theorem resetMeetsTheInvariant : Obligations.ResetMeetsTheInvariant where
  uart0 := Uart.reset_inv
  uart1 := Uart.reset_inv
  grid_wf := Memory.nil_wf
  grid_window := Memory.nil_inWindow
  cursor_range := rfl
  hw_cursor := rfl
  one_fault := Nat.zero_le _
  fault_idle _ := rfl
  seq_ok := rfl

/-! ### A command that is not accepted (R35, R240) -/

/-- The block does not accept a command while one runs or a fault is recorded. -/
theorem accepts_eq_false {s : State} (h : s.seq ≠ [] ∨ s.fault ≠ []) : s.accepts = false := by
  simpa [State.accepts, Decidable.imp_iff_not_or] using h

/-- A command that starts the sequencer waits. -/
theorem issue_waits {s : State} (f : Frame) (h : s.accepts = false) : s.issue f = .next s := by
  simp [State.issue, h]

/-- Settles O19: the two direct port commands and every command with a first frame look at `accepts` before anything else. -/
theorem commandsWaitWhileBusyOrFaulted : Obligations.CommandsWaitWhileBusyOrFaulted := by
  intro i s hi hs
  have ha : s.accepts = false := accepts_eq_false hs
  cases i with
  | writePort | readPort => simp [exec, execWritePort, execReadPort, ha]
  | fbWriteCell | fbMoveCursor | fbWrite | fbClear | serialConfigureBaudRate | serialConfigureLine | serialConfigureBuffer
  | serialConfigureModem | serialIsTransmitFifoEmpty | serialInit | serialWrite | print => exact issue_waits _ ha
  | _ => cases hi

/-! ### What a step runs -/

/-- Whether the schedule is at its end or names the driver side, the step is the driver side's, on the rest of the schedule. -/
theorem step_driverSide {s : State} {tail : List Agent} (hr : s.refused = none)
    (hs : s.sched = [] ∧ tail = [] ∨ s.sched = .sequencer :: tail) : step s = driverStep { s with sched := tail } := by
  obtain ⟨hs, rfl⟩ | hs := hs
  · rw [← hs]
    exact step_driver hr hs
  · exact step_scheduled hr hs

/-- An idle unfaulted block with the driver side to step accepts its first request (R35). -/
theorem step_accepts {s : State} {r : Request} {rest : List Request} {tail : List Agent} (hr : s.refused = none)
    (hs : s.sched = [] ∧ tail = [] ∨ s.sched = .sequencer :: tail) (hq : s.seq = []) (hf : s.fault = [])
    (hi : s.inbox = r :: rest) : step s = acceptRequest r { s with inbox := rest, sched := tail } := by
  rw [step_driverSide hr hs, driverStep_idle (by exact hq), callerStep_accepts (by exact hf) (by exact hi)]

theorem acceptRequest_ok {r : Request} {i : Instr} (s : State) (h : decode r = .ok i) : acceptRequest r s = exec i s := by
  simp only [acceptRequest, h]

theorem acceptRequest_reserved {r : Request} {e : RefuseReason} (s : State) (h : decode r = .error (.reserved e)) :
    acceptRequest r s = .next (s.markRefused e) := by
  simp only [acceptRequest, h]

theorem acceptRequest_outsideWindow {r : Request} {off : Nat} (s : State) (h : decode r = .error (.outsideWindow off)) :
    acceptRequest r s = .fault (.outsideGridWindow off) := by
  simp only [acceptRequest, h]

/-- A table word that decodes to an instruction is the word of a request that decodes to it. -/
theorem request_of_decodeTableWord {nbits w : Nat} {i : Instr} (h : decodeTableWord nbits w = some i) :
    ∃ r, requestOfTableWord nbits w = some r ∧ decode r = .ok i := by
  unfold decodeTableWord at h
  split at h
  next r hr =>
    cases hd : decode r with
    | ok j =>
      rw [hd] at h
      cases h
      exact ⟨r, hr, hd⟩
    | error e =>
      rw [hd] at h
      cases h
  next => cases h

/-- A table word that `withFetchWord` places is run by the very next step (log 3). -/
theorem step_withFetchWord {s : State} {nbits w : Nat} {i : Instr} (hr : s.refused = none)
    (h : decodeTableWord nbits w = some i) :
    step (s.withFetchWord nbits w) = exec i { s with seq := [], fault := [], sched := [] } := by
  obtain ⟨r, hw, hd⟩ := request_of_decodeTableWord h
  have hplace : s.withFetchWord nbits w = s.placeRequest r := by simp only [State.withFetchWord, hw]
  rw [hplace, step_accepts rfl (.inl ⟨rfl, rfl⟩) rfl rfl rfl, acceptRequest_ok _ hd, hr]
  rfl

/-- Settles O11, clause by clause: accepting the first request (`step_accepts`), the running command, the scheduled transmitter, and
the word placed by `withFetchWord`. -/
theorem stepRunsTheDecodedInstruction : Obligations.StepRunsTheDecodedInstruction := by
  intro s hr
  refine ⟨fun r rest tail hs hq hf hi => ?_, fun tail hs hq => ?_, fun u tail hs => ?_,
    fun nbits w i h => step_withFetchWord hr h⟩
  · rw [step_accepts hr hs hq hf hi]
    exact ⟨fun i hd => acceptRequest_ok _ hd, fun e hd => acceptRequest_reserved _ hd,
      fun off hd => acceptRequest_outsideWindow _ hd⟩
  · rw [step_driverSide hr hs, driverStep_running (by exact hq)]
  · rw [step_transmitter hr hs]
    cases u <;> rfl

end Sys2Proof.Machine
end

section
namespace Sys2Proof.Machine

/-! ### The driver side's step, read backwards -/

/-- How the driver side can answer a next state: it waits, refuses a reserved word, runs an accepted request, or takes the running
command's step (R5, R35, R105). -/
inductive DriverNext (s : State) : State → Prop
  | waits (hq : s.seq = []) (hw : s.fault ≠ [] ∨ s.inbox = []) : DriverNext s s
  | refuses (r : Request) (rest : List Request) (e : RefuseReason) (hq : s.seq = []) (hf : s.fault = [])
      (hi : s.inbox = r :: rest) (hd : decode r = .error (.reserved e)) :
      DriverNext s (State.markRefused { s with inbox := rest } e)
  | runs {t : State} (r : Request) (rest : List Request) (i : Instr) (hq : s.seq = []) (hf : s.fault = [])
      (hi : s.inbox = r :: rest) (hd : decode r = .ok i) (hx : exec i { s with inbox := rest } = .next t) : DriverNext s t
  | sequencer {t : State} (hq : s.seq ≠ []) (hx : sequencerStep s = .next t) : DriverNext s t

theorem driverStep_next {s t : State} (h : driverStep s = .next t) : DriverNext s t := by
  by_cases hq : s.seq = []
  · rw [driverStep_idle hq] at h
    unfold callerStep at h
    split at h
    next r rest hf hi =>
      unfold acceptRequest at h
      split at h
      next i hd => exact .runs r rest i hq hf hi hd h
      next e hd =>
        cases h
        exact .refuses r rest e hq hf hi hd
      next => cases h
    next hw =>
      cases h
      refine .waits hq ?_
      by_contra hn
      obtain ⟨hf, hi⟩ := not_or.mp hn
      obtain ⟨r, rest, hi⟩ := List.exists_cons_of_ne_nil hi
      exact hw r rest (not_not.mp hf) hi
  · rw [driverStep_running hq] at h
    exact .sequencer hq h

/-- A state that has a next one is not marked (R237). -/
theorem refused_of_step_next {s t : State} (h : step s = .next t) : s.refused = none := by
  cases hr : s.refused with
  | none => rfl
  | some r =>
    rw [step_marked hr] at h
    cases h

/-- A step that answers a next state is a scheduled transmitter's or the driver side's (R73). -/
theorem step_next {s t : State} (h : step s = .next t) :
    (∃ u tail, s.sched = .transmitter u :: tail ∧ t = State.setUart { s with sched := tail } u (s.uart u).transmit) ∨
    (∃ tail, (s.sched = [] ∧ tail = [] ∨ s.sched = .sequencer :: tail) ∧ DriverNext { s with sched := tail } t) := by
  have hr := refused_of_step_next h
  cases hs : s.sched with
  | nil =>
    rw [step_driverSide hr (.inl ⟨hs, rfl⟩)] at h
    exact .inr ⟨[], .inl ⟨rfl, rfl⟩, driverStep_next h⟩
  | cons a tail =>
    cases a with
    | sequencer =>
      rw [step_driverSide hr (.inr hs)] at h
      exact .inr ⟨tail, .inr rfl, driverStep_next h⟩
    | transmitter u =>
      rw [step_transmitter hr hs] at h
      cases h
      exact .inl ⟨u, tail, rfl, rfl⟩

/-- A schedule on which the driver side steps names no transmitter first. -/
theorem sched_ne_transmitter {sched tail : List Agent} (h : sched = [] ∧ tail = [] ∨ sched = .sequencer :: tail) (u : UartId)
    (rest : List Agent) : sched ≠ .transmitter u :: rest := by
  rcases h with ⟨rfl, _⟩ | rfl <;> simp

/-! ### What an instruction can do to the state -/

/-- The commit of R135 by the instruction `i`: it writes the byte `l` to the cursor data port under CURSOR_LOW_CMD, with CUR_HI
written. -/
def CursorCommit (s : State) (i : Instr) (t : State) : Prop :=
  s.crtcIndex = some Config.cursorLowCmd ∧
    ∃ l hi, cursorDataByte i = some l ∧ s.curHi = some hi ∧ t = { s with curLo := some l, hwCursor := some (hi ++ l) }

/-- Every next state an instruction can leave. A command accepted clears the result before it acts, so `r` stands for the result at
the start (log 6). -/
inductive Effect (s : State) (i : Instr) : State → Prop
  /-- Nothing of the spec's state changes. -/
  | quiet (d : Nat) (r : Option ReturnValue) : Effect s i { s with draws := d, result := r }
  /-- A completed write at the ports; a change of HWCURSOR is the instruction's own commit. -/
  | port {t : State} (r : Option ReturnValue) (hw : PortWrites { s with result := r } t)
      (hc : t.hwCursor ≠ s.hwCursor → CursorCommit { s with result := r } i t) : Effect s i t
  /-- One byte of the grid window is stored. -/
  | store (off : Nat) (v : Byte) (ho : off < Config.windowBytes) :
      Effect s i { s with grid := Memory.write s.grid (gridAddr off) v }
  | raised (f : FaultRecord) : Effect s i (s.takeFault f)
  | marked (r : Option ReturnValue) (e : RefuseReason) : Effect s i (State.markRefused { s with result := r } e)
  /-- A command starts at a position that promises nothing of CURSOR. -/
  | started (f : Frame) (ha : s.accepts = true) (ho : ∀ c, f.ok c true false = true) :
      Effect s i { s with seq := [f], result := none }
  /-- `fb.scroll` called from the running command (log 15). -/
  | called (hq : s.seq ≠ []) : Effect s i (s.call (.scroll scrollStart))
  | sent (u : UartId) (hi : i = .uartTxSend u) : Effect s i (s.setUart u (s.uart u).transmit)

/-- A transaction that stops with a next state took a fault or set the mark. -/
theorem Stops.effect {s t : State} {r : Option ReturnValue} (i : Instr) (h : Stops { s with result := r } (.next t)) :
    Effect s i t := by
  cases h with
  | raised f => exact .raised f
  | marked e => exact .marked r e

theorem uartWrite_effect {u : UartId} {off : BitVec 3} {v : Byte} {s t : State} (i : Instr)
    (h : (uartWrite u off v s).settle keep = .next t) : Effect s i t := by
  rcases uartWrite_cases u off v s with ⟨x, hx, hw⟩ | ⟨o, ho, hw⟩ <;> rw [hw] at h
  · cases h
    exact .port s.result (.uart u x hx) fun hne => absurd (State.setUart_hwCursor s u x) hne
  · cases h
    exact Stops.effect (r := s.result) i ho

theorem portWrite_effect {port : Port} {v : Byte} {s t : State} {r : Option ReturnValue} {i : Instr}
    (hi : port = Config.crtcDataPort → cursorDataByte i = some v)
    (h : (portWrite port v { s with result := r }).settle keep = .next t) : Effect s i t := by
  rcases portWrite_cases port v { s with result := r } with ⟨t', ht, hw⟩ | ⟨o, ho, hw⟩ <;> rw [hw] at h
  · cases h
    refine .port r ht fun hne => ?_
    obtain ⟨hp, hx, hi', hh, ht'⟩ := portWrite_hwCursor hw hne
    exact ⟨hx, v, hi', hi hp, hh, ht'⟩
  · cases h
    exact ho.effect i

theorem portRead_effect {port : Port} {s t : State} {r : Option ReturnValue} (i : Instr)
    (h : (portRead port { s with result := r }).settle returnByte = .next t) : Effect s i t := by
  rcases portRead_cases port { s with result := r } with ⟨b, hb⟩ | ⟨o, ho, hb⟩ <;> rw [hb] at h
  · cases h
    exact .quiet _ _
  · cases h
    exact ho.effect i

theorem crtcDataWrite_effect {v : Byte} {s t : State} {i : Instr} (hi : cursorDataByte i = some v)
    (h : (crtcDataWrite v s).settle keep = .next t) : Effect s i t :=
  portWrite_effect (r := s.result) (fun _ => hi) ((portWrite_crtcData v s).symm ▸ h)

theorem gridStore_effect {off : Nat} {v : Byte} {s t : State} (i : Instr) (h : (gridStore off v s).settle keep = .next t) :
    Effect s i t := by
  cases hg : gridStore off v s with
  | done a t' =>
    rw [hg] at h
    obtain ⟨ho, rfl⟩ := gridStore_done hg
    cases h
    exact .store off v ho
  | stopped o =>
    rw [hg] at h
    cases h
    exact Stops.effect (r := s.result) i (gridStore_stopped hg)

theorem gridRead_effect {off : Nat} {s t : State} (i : Instr) (h : (gridRead off s).settle returnByte = .next t) :
    Effect s i t := by
  cases hg : gridRead off s with
  | done b t' =>
    rw [hg] at h
    obtain ⟨_, _, rfl⟩ := gridRead_done hg
    cases h
    exact .quiet _ _
  | stopped o =>
    rw [hg] at h
    cases h
    exact Stops.effect (r := s.result) i (gridRead_stopped hg)

theorem issue_effect {f : Frame} {s t : State} (i : Instr) (hf : ∀ c, f.ok c true false = true) (h : s.issue f = .next t) :
    Effect s i t := by
  unfold State.issue at h
  split at h
  next ha =>
    cases h
    exact .started f ha hf
  next =>
    cases h
    exact .quiet s.draws s.result

/-- Everything an instruction can do when it answers a next state. -/
theorem exec_effect {i : Instr} {s t : State} (h : exec i s = .next t) : Effect s i t := by
  cases i with
  | portWrite port v => exact portWrite_effect (r := s.result) (fun hp => by simp [cursorDataByte, hp]) h
  | portRead port => exact portRead_effect (r := s.result) _ h
  | uartTxWrite u v => exact uartWrite_effect (off := 0) _ h
  | uartDivWrite u v => exact uartWrite_effect (off := 0) _ h
  | uartFcrWrite u v => exact uartWrite_effect (off := 2) _ h
  | uartLcrWrite u v => exact uartWrite_effect (off := 3) _ h
  | uartMcrWrite u v => exact uartWrite_effect (off := 4) _ h
  | uartLsrRead u =>
    cases h
    exact .quiet _ _
  | uartTxSend u =>
    cases h
    exact .sent u rfl
  | crtcIndexWrite v =>
    cases h
    exact .port s.result (.index v) fun hne => absurd rfl hne
  | crtcCursorHighWrite v => exact crtcDataWrite_effect rfl h
  | crtcCursorLowWrite v => exact crtcDataWrite_effect rfl h
  | gridCharStore k v => exact gridStore_effect _ h
  | gridAttrStore k v => exact gridStore_effect _ h
  | gridLoad off => exact gridRead_effect _ h
  | writePort port v =>
    simp only [exec, execWritePort] at h
    split at h
    · exact portWrite_effect (fun hp => by simp [cursorDataByte, hp]) h
    · cases h
      exact .quiet s.draws s.result
  | readPort port =>
    simp only [exec, execReadPort] at h
    split at h
    · exact portRead_effect _ h
    · cases h
      exact .quiet s.draws s.result
  | fbWriteCell | fbMoveCursor | fbWrite | fbClear | serialConfigureBaudRate | serialConfigureLine | serialConfigureBuffer
  | serialConfigureModem | serialIsTransmitFifoEmpty | serialInit | serialWrite | print =>
    exact issue_effect _ (fun c => by simp [Frame.ok]) h
  | fbScroll =>
    simp only [exec, execFbScroll] at h
    split at h
    next =>
      cases h
      exact .marked s.result _
    next hq =>
      cases h
      exact .called (by simpa [State.idle] using hq)
  | reservedCmd =>
    cases h
    exact .marked s.result _

end Sys2Proof.Machine
end

section
namespace Sys2Proof.Machine

/-! ### The invariant under an instruction the block accepts -/

/-- A transaction that stops with a next state keeps the invariant of an unfaulted state. -/
theorem Stops.inv {s t : State} (h : Stops s (.next t)) (hs : s.Inv) (hf : s.fault = []) : t.Inv := by
  cases h with
  | raised f => exact State.takeFault_inv hs hf f
  | marked e => exact State.markRefused_inv hs e

/-- The result of the last command is no part of the invariant. -/
theorem State.result_inv {s : State} (hs : s.Inv) (r : Option ReturnValue) : State.Inv { s with result := r } :=
  ⟨hs.1, hs.2, hs.3, hs.4, hs.5, hs.6, hs.7, hs.8, hs.9⟩

/-- One byte stored inside the grid window keeps the invariant (R62). -/
theorem State.store_inv {s : State} (hs : s.Inv) {off : Nat} (v : Byte) (ho : off < Config.windowBytes) :
    State.Inv { s with grid := Memory.write s.grid (gridAddr off) v } :=
  { hs with
    grid_wf := Memory.write_wf hs.grid_wf _ v
    grid_window := Memory.write_inWindow hs.grid_window v (by simp only [gridAddr]; omega) }

/-- SEQ may be replaced by a legal stack while no fault is recorded. -/
theorem State.seq_inv {s : State} (hs : s.Inv) (hf : s.fault = []) {q : List Frame} (hq : seqOk s.cursor q = true)
    (r : Option ReturnValue) : State.Inv { s with seq := q, result := r } :=
  { hs with
    fault_idle := fun h => absurd hf h
    seq_ok := hq }

/-- Whatever an instruction does on an idle unfaulted block keeps the invariant. -/
theorem Effect.inv {s t : State} {i : Instr} (h : Effect s i t) (hs : s.Inv) (hq : s.seq = []) (hf : s.fault = []) : t.Inv := by
  cases h with
  | quiet d r => exact ⟨hs.1, hs.2, hs.3, hs.4, hs.5, hs.6, hs.7, hs.8, hs.9⟩
  | port r hw => exact (State.port_inv hw (State.result_inv hs r)).1
  | store off v ho => exact State.store_inv hs v ho
  | raised f => exact State.takeFault_inv hs hf f
  | marked r e => exact State.markRefused_inv (State.result_inv hs r) e
  | started f _ ho => exact State.seq_inv hs hf (by simp [seqOk, callersOk, chained, ho]) none
  | called hne => exact absurd hq hne
  | sent u => exact State.setUart_inv hs u (Uart.transmit_inv (State.uart_inv hs u))

/-! ### The action of a position -/

/-- An action that stops does so as its transaction does. -/
theorem Micro.run_stopped {m : Micro} {s : State} {o : Host.Outcome State Fault Refusal} (h : m.run s = .stopped o) :
    Stops s o := by
  cases m with
  | write port v =>
    rcases portWrite_cases port v s with ⟨t, _, hw⟩ | ⟨o', ho, hw⟩ <;> simp only [Micro.run, hw] at h <;> cases h
    exact ho
  | read port =>
    rcases portRead_cases port s with ⟨b, hb⟩ | ⟨o', ho, hb⟩ <;> simp only [Micro.run, hb] at h <;> cases h
    exact ho
  | store off v =>
    cases hg : gridStore off v s <;> simp only [Micro.run, hg] at h <;> cases h
    exact gridStore_stopped hg
  | load off =>
    cases hg : gridRead off s <;> simp only [Micro.run, hg] at h <;> cases h
    exact gridRead_stopped hg
  | raise r =>
    cases h
    exact .raised r
  | setCursor | skip => cases h

/-- An action that completes keeps the invariant and the sequencer's registers, but that it may load CURSOR. -/
theorem Micro.run_done_inv {m : Micro} {s t : State} {b : Option Byte} (h : m.run s = .done b t) (hs : s.Inv)
    (hm : ∀ c, m ≠ .setCursor c) : t.Inv ∧ t.cursor = s.cursor ∧ t.seq = s.seq ∧ t.fault = s.fault := by
  cases m with
  | write port v =>
    rcases portWrite_cases port v s with ⟨t', ht, hw⟩ | ⟨o, _, hw⟩ <;> simp only [Micro.run, hw] at h <;> cases h
    exact State.port_inv ht hs
  | read port =>
    rcases portRead_cases port s with ⟨b', hb⟩ | ⟨o, _, hb⟩ <;> simp only [Micro.run, hb] at h <;> cases h
    exact ⟨⟨hs.1, hs.2, hs.3, hs.4, hs.5, hs.6, hs.7, hs.8, hs.9⟩, rfl, rfl, rfl⟩
  | store off v =>
    cases hg : gridStore off v s <;> simp only [Micro.run, hg] at h <;> cases h
    obtain ⟨ho, rfl⟩ := gridStore_done hg
    exact ⟨State.store_inv hs v ho, rfl, rfl, rfl⟩
  | load off =>
    cases hg : gridRead off s <;> simp only [Micro.run, hg] at h <;> cases h
    obtain ⟨_, _, rfl⟩ := gridRead_done hg
    exact ⟨hs, rfl, rfl, rfl⟩
  | setCursor c => exact absurd rfl (hm c)
  | raise r => cases h
  | skip =>
    cases h
    exact ⟨hs, rfl, rfl, rfl⟩

/-! ### Moving on from a position -/

/-- What the position after the action of `f` promises under the CURSOR of then: the next position its own promise, and a scroll that
ends that CURSOR lies on a cell again (R150). -/
def Frame.afterOk (cursor : Option Half) (called : Bool) (b : Option Byte) (f : Frame) : Bool :=
  match f.after b with
  | .cont g => g.ok cursor true called
  | .ret _ => !f.isScroll || cursorOnCell cursor

/-- The position after an action is of the same command. -/
theorem Frame.after_command {f g : Frame} {b : Option Byte} (h : f.after b = .cont g) : g.command = f.command := by
  cases f with
  | serialWrite port text loc =>
    cases loc with
    | payload i =>
      simp only [Frame.after] at h
      split at h
      · cases h
        rfl
      · cases h
    | spin | init => cases h
  | writeCell _ _ _ _ loc | moveCursor _ loc | fbWrite _ loc | scroll loc | clear loc | configureBaud _ _ loc =>
    cases loc <;> cases h <;> rfl
  | configureLine | configureBuffer | configureModem | isTxEmpty | init | print => cases h

/-- Moving on from a position that keeps its promise leaves a legal stack. -/
theorem moveOn_seqOk {c : Option Half} {f : Frame} {rest : List Frame} {b : Option Byte} (t : State)
    (hcal : callersOk c rest = true) (hch : chained (f :: rest) = true) (ha : f.afterOk c (!rest.isEmpty) b = true) :
    seqOk c (t.moveOn f rest b).seq = true := by
  unfold Frame.afterOk at ha
  unfold State.moveOn
  cases h : f.after b with
  | cont g =>
    rw [h] at ha
    exact seqOk_move hch hcal ha (Frame.after_command h)
  | ret v =>
    rw [h] at ha
    exact returnFrom_seqOk t rest f v hcal hch fun hs => by simpa [hs] using ha

/-- A return changes only SEQ and the result. -/
theorem returnFrom_eq (s : State) (v : Option Bool) (fs : List Frame) :
    s.returnFrom v fs = { s with seq := (s.returnFrom v fs).seq, result := (s.returnFrom v fs).result } := by
  induction fs generalizing v with
  | nil => rfl
  | cons f fs ih =>
    by_cases h : (f.resume v).finished = true
    · rw [returnFrom_finished h]
      exact ih none
    · rw [returnFrom_cons (by simpa using h)]

/-- Moving on changes only SEQ and the result. -/
theorem moveOn_eq (s : State) (f : Frame) (rest : List Frame) (b : Option Byte) :
    s.moveOn f rest b = { s with seq := (s.moveOn f rest b).seq, result := (s.moveOn f rest b).result } := by
  unfold State.moveOn
  cases f.after b with
  | cont g => rfl
  | ret v => exact returnFrom_eq s v rest

/-- A position whose action leaves CURSOR alone and raises nothing: the next one keeps its promise. -/
theorem Frame.afterOk_of_cursor_kept {c : Option Half} {called : Bool} {f : Frame} (b : Option Byte)
    (hf : f.ok c true called = true) (hset : ∀ x, f.micro c ≠ .setCursor x) (hraise : ∀ r, f.micro c ≠ .raise r) :
    f.afterOk c called b = true := by
  cases f with
  | writeCell index char fg bg loc =>
    cases loc with
    | char =>
      by_cases hi : Config.cells ≤ index.toNat
      · exact absurd (by simp only [Frame.micro, if_pos hi]) (hraise (.gridIndexOutOfRange index))
      · simpa [Frame.afterOk, Frame.after, Frame.ok] using hi
    | attr => rfl
  | moveCursor pos loc =>
    cases loc with
    | highCmd =>
      by_cases hp : Config.cells < pos.toNat
      · exact absurd (by simp only [Frame.micro, if_pos hp]) (hraise (.cursorOutOfRange pos))
      · simpa [Frame.afterOk, Frame.after, Frame.ok] using hp
    | highData | lowCmd | lowData => exact hf
    | record => rfl
  | fbWrite text loc =>
    cases loc with
    | head i | body i | advance i =>
      cases c with
      | none => exact absurd rfl (hraise (.unwrittenState .cursor))
      | some c => exact absurd rfl (hset _)
    | final => rfl
  | scroll loc =>
    cases loc with
    | load off => exact hf
    | store off v =>
      simp only [Frame.afterOk, Frame.after, scrollNext]
      split
      · simpa [Frame.ok] using ‹_›
      · simp [Frame.ok, Config.width, Config.height, cells_eq]
    | blank k =>
      cases c with
      | none => exact absurd rfl (hraise (.unwrittenState .cursor))
      | some c => exact absurd rfl (hset _)
  | clear loc => cases loc <;> rfl
  | configureBaud port d loc => cases loc <;> rfl
  | serialWrite port text loc =>
    cases loc with
    | payload i =>
      by_cases hi : i + 1 < text.length <;> simp [Frame.afterOk, Frame.after, hi, Frame.ok, Frame.isScroll]
    | spin | init => rfl
  | configureLine | configureBuffer | configureModem | isTxEmpty | init | print => rfl

/-- No character step of `fb.write` called the running command: those call `fb.write_cell` alone (R149). -/
def Frame.notFromAdvance (f : Frame) : Prop := ∀ text i, calls (.fbWrite text (.advance i)) f = false

/-- At the loop head of `fb.write` no call stands only where a newline is due: a byte is left and CURSOR is on a cell (R148). -/
theorem head_of_callee_none {text : List Byte} {i : Nat} {c : Half} (h : (Frame.fbWrite text (.head i)).callee (some c) = none) :
    i < text.length ∧ c.toNat < Config.cells := by
  simp only [Frame.callee] at h
  split at h
  next hi =>
    split at h
    · cases h
    next hlt => exact ⟨hi, Nat.lt_of_not_le hlt⟩
  next => cases h

/-- A position whose action loads CURSOR: the new value is in range, no position below promises anything of CURSOR, and the next
position keeps its promise under the new value (R148, R149, R150, R152). -/
theorem Frame.afterOk_of_setCursor {c : Option Half} {x : Half} {called : Bool} {f : Frame} (b : Option Byte)
    (hc : cursorInRange c = true) (hf : f.ok c true called = true) (hcall : f.callee c = none)
    (hset : f.micro c = .setCursor x) :
    cursorInRange (some x) = true ∧ f.notFromAdvance ∧ f.afterOk (some x) called b = true := by
  cases f with
  | writeCell index char fg bg loc =>
    cases loc with
    | char =>
      simp only [Frame.micro] at hset
      split at hset <;> cases hset
    | attr => cases hset
  | moveCursor pos loc =>
    cases loc with
    | highCmd =>
      simp only [Frame.micro] at hset
      split at hset <;> cases hset
    | highData | lowCmd | lowData => cases hset
    | record =>
      cases hset
      exact ⟨hf, fun _ _ => rfl, rfl⟩
  | fbWrite text loc =>
    cases loc with
    | final => cases hset
    | head i =>
      cases c with
      | none => cases hset
      | some c =>
        cases hset
        obtain ⟨hi, hlt⟩ := head_of_callee_none hcall
        have hn : (cursorNewline c).toNat < 2000 := cursorNewline_lt hlt
        exact ⟨decide_eq_true (Nat.le_of_lt hn), fun _ _ => rfl, by
          simp [Frame.afterOk, Frame.after, Frame.ok, cursorOnCell, cells_eq, hi, hn]⟩
    | body i =>
      cases c with
      | none => cases hset
      | some c =>
        cases hset
        obtain ⟨hi, hlt⟩ : i < text.length ∧ c.toNat < Config.cells := by simpa [Frame.ok, cursorOnCell] using hf
        have hn : (cursorNewline c).toNat < 2000 := cursorNewline_lt hlt
        exact ⟨decide_eq_true (Nat.le_of_lt hn), fun _ _ => rfl, by
          simp [Frame.afterOk, Frame.after, Frame.ok, cursorOnCell, cells_eq, hi, hn]⟩
    | advance i =>
      cases c with
      | none => cases hset
      | some c =>
        cases hset
        obtain ⟨hi, hlt⟩ : i < text.length ∧ c.toNat < Config.cells := by simpa [Frame.ok, cursorOnCell] using hf
        exact ⟨decide_eq_true (cursorAdvance_le hlt), fun _ _ => rfl, decide_eq_true hi⟩
  | scroll loc =>
    cases loc with
    | load off | store off v => cases hset
    | blank k =>
      cases c with
      | none => cases hset
      | some c =>
        cases hset
        have hlt : (cursorUp c).toNat < 2000 := cursorUp_lt (of_decide_eq_true hc)
        exact ⟨decide_eq_true (Nat.le_of_lt hlt), fun _ _ => rfl, decide_eq_true hlt⟩
  | clear loc =>
    cases loc with
    | blank k =>
      cases hset
      exact ⟨rfl, fun _ _ => rfl, rfl⟩
    | move | final => cases hset
  | configureBaud port d loc => cases loc <;> cases hset
  | serialWrite port text loc => cases loc <;> cases hset
  | configureLine | configureBuffer | configureModem | isTxEmpty | init | print => cases hset

/-! ### The sequencer's step -/

/-- The running command's step keeps the invariant (R44, R152). -/
theorem sequencerStep_inv {s t : State} (hs : s.Inv) (hq : s.seq ≠ []) (h : sequencerStep s = .next t) : t.Inv := by
  have hf : s.fault = [] := by
    by_contra hf
    exact hq (hs.fault_idle hf)
  obtain ⟨f, rest, he, hcall, hok⟩ := enterAll_top hs.cursor_range hs.seq_ok hq
  obtain ⟨⟨hf1, hf2⟩, hf3⟩ : (f.ok s.cursor true (!rest.isEmpty) = true ∧ callersOk s.cursor rest = true) ∧
      chained (f :: rest) = true := by simpa only [seqOk, Bool.and_eq_true] using hok
  rw [sequencerStep_of_enterAll he] at h
  cases hr : (f.micro s.cursor).run s with
  | stopped o =>
    rw [hr] at h
    cases h
    exact (Micro.run_stopped hr).inv hs hf
  | done b u =>
    rw [hr] at h
    cases h
    rw [moveOn_eq]
    by_cases hset : ∃ x, f.micro s.cursor = .setCursor x
    · obtain ⟨x, hx⟩ := hset
      obtain ⟨hrange, hadv, hafter⟩ := Frame.afterOk_of_setCursor b hs.cursor_range hf1 hcall hx
      rw [hx] at hr
      cases hr
      exact { hs with
        cursor_range := hrange
        fault_idle := fun hne => absurd hf hne
        seq_ok := moveOn_seqOk _ (callersOk_cursor hok hadv) hf3 hafter }
    · have hset : ∀ x, f.micro s.cursor ≠ .setCursor x := fun x hx => hset ⟨x, hx⟩
      have hraise : ∀ r, f.micro s.cursor ≠ .raise r := fun r hx => by
        rw [hx] at hr
        cases hr
      obtain ⟨hu, huc, _, huf⟩ := Micro.run_done_inv hr hs hset
      refine State.seq_inv hu (huf.trans hf) ?_ _
      rw [huc]
      exact moveOn_seqOk _ hf2 hf3 (Frame.afterOk_of_cursor_kept b hf1 hset hraise)

/-- The schedule and the requests are no part of the invariant (log 2, log 3). -/
theorem State.queues_inv {s : State} (hs : s.Inv) (sched : List Agent) (inbox : List Request) :
    State.Inv { s with sched := sched, inbox := inbox } :=
  ⟨hs.1, hs.2, hs.3, hs.4, hs.5, hs.6, hs.7, hs.8, hs.9⟩

/-- The driver side's step keeps the invariant. -/
theorem DriverNext.inv {s t : State} (h : DriverNext s t) (hs : s.Inv) : t.Inv := by
  cases h with
  | waits => exact hs
  | refuses r rest e => exact State.markRefused_inv (State.queues_inv hs s.sched rest) e
  | runs r rest i hq hf hi hd hx => exact (exec_effect hx).inv (State.queues_inv hs s.sched rest) hq hf
  | sequencer hq hx => exact sequencerStep_inv hs hq hx

/-- Settles O3: a transmitter's step keeps its UART's invariant, and the driver side's step is an accepted request's effect or the
running command's step. -/
theorem everyStepKeepsTheInvariant : Obligations.EveryStepKeepsTheInvariant := by
  intro s t hs h
  rcases step_next h with ⟨u, tail, _, rfl⟩ | ⟨tail, _, hd⟩
  · exact State.setUart_inv (State.queues_inv hs tail s.inbox) u (Uart.transmit_inv (State.uart_inv hs u))
  · exact hd.inv (State.queues_inv hs tail s.inbox)

end Sys2Proof.Machine
end

section
namespace Sys2Proof.Machine

/-! ### A sequencer step as one transaction (R35, D35) -/

/-- A store of the sequencer at an offset in the window is the M instruction of its cell and half (R94). -/
theorem exec_of_store_transaction {off : Nat} {v : Byte} {i : Instr} (s : State) (ho : off < Config.windowBytes)
    (hi : (Micro.store off v).transaction = some i) : exec i s = (gridStore off v s).settle keep := by
  rw [windowBytes_eq] at ho
  have hk : (BitVec.ofNat 16 (off / 2)).toNat = off / 2 := by rw [BitVec.toNat_ofNat]; omega
  simp only [Micro.transaction, Option.some.injEq] at hi
  subst hi
  split
  next h =>
    have hoff : charOffset (off / 2) = off := by simp only [charOffset, Config.cellBytes]; omega
    simp only [exec, execGridCharStore, hk, hoff]
  next h =>
    have hoff : attrOffset (off / 2) = off := by simp only [attrOffset, Config.cellBytes]; omega
    simp only [exec, execGridAttrStore, hk, hoff]

/-- A load of the sequencer at an offset in the window is GRID_LOAD (R94). -/
theorem exec_of_load_transaction {off : Nat} (s : State) (ho : off < Config.windowBytes) :
    exec (.gridLoad (BitVec.ofNat 17 off)) s = (gridRead off s).settle returnByte := by
  rw [windowBytes_eq] at ho
  have hk : (BitVec.ofNat 17 off).toNat = off := by rw [BitVec.toNat_ofNat]; omega
  simp only [exec, execGridLoad, hk]

/-- The action's grid access lies in the window. -/
def Micro.inWindow : Micro → Bool
  | .store off _ => decide (off < Config.windowBytes)
  | .load off => decide (off < Config.windowBytes)
  | _ => true

/-- What an action's transaction answers as an instruction: the state the action leaves, up to the result, or the outcome it stops
with. -/
def Txn.Answers (t : Txn (Option Byte)) (o : Host.Outcome State Fault Refusal) : Prop :=
  match t with
  | .done _ u => ∃ r, o = .next { u with result := r }
  | .stopped o' => o = o'

/-- An action's transaction inside the window, executed as the instruction it is. -/
theorem Micro.run_answers {m : Micro} {i : Instr} (s : State) (hi : m.transaction = some i) (hw : m.inWindow = true) :
    (m.run s).Answers (exec i s) := by
  cases m with
  | write port v =>
    cases hi
    cases hx : portWrite port v s with
    | done a u => simpa [Micro.run, hx, exec, execPortWrite] using ⟨u.result, rfl⟩
    | stopped o => simp [Micro.run, hx, exec, execPortWrite, Txn.Answers]
  | read port =>
    cases hi
    cases hx : portRead port s with
    | done b u => simpa [Micro.run, hx, exec, execPortRead] using ⟨some (.byte b), rfl⟩
    | stopped o => simp [Micro.run, hx, exec, execPortRead, Txn.Answers]
  | store off v =>
    rw [exec_of_store_transaction s (of_decide_eq_true hw) hi]
    cases hx : gridStore off v s with
    | done a u => simpa [Micro.run, hx] using ⟨u.result, rfl⟩
    | stopped o => simp [Micro.run, hx, Txn.Answers]
  | load off =>
    cases hi
    rw [exec_of_load_transaction s (of_decide_eq_true hw)]
    cases hx : gridRead off s with
    | done b u => simpa [Micro.run, hx] using ⟨some (.byte b), rfl⟩
    | stopped o => simp [Micro.run, hx, Txn.Answers]
  | setCursor | raise | skip => cases hi

/-- An access beside the window stops the machine (log 12). -/
theorem Micro.run_outside {m : Micro} (s : State) (hw : m.inWindow = false) :
    ∃ off, m.run s = .stopped (.fault (.outsideGridWindow off)) := by
  cases m with
  | store off v => exact ⟨off, by simp [Micro.run, gridStore, of_decide_eq_false hw]⟩
  | load off => exact ⟨off, by simp [Micro.run, gridRead, of_decide_eq_false hw]⟩
  | write | read | setCursor | raise | skip => cases hw

/-- An action inside the window completes or answers a next state: a fault taken or the mark set (R237, R240). -/
theorem Micro.run_stopped_next {m : Micro} {s : State} {o : Host.Outcome State Fault Refusal} (hw : m.inWindow = true)
    (h : m.run s = .stopped o) : ∃ t, o = .next t := by
  cases m with
  | write port v =>
    cases hx : portWrite port v s <;> simp only [Micro.run, hx] at h <;> cases h
    rcases portWrite_stopped hx with ⟨_, rfl⟩ | ⟨_, rfl⟩ <;> exact ⟨_, rfl⟩
  | read port =>
    cases hx : portRead port s <;> simp only [Micro.run, hx] at h <;> cases h
    obtain ⟨_, rfl⟩ := portRead_stopped hx
    exact ⟨_, rfl⟩
  | store off v =>
    simp only [Micro.run, gridStore_in v s (of_decide_eq_true hw)] at h
    cases h
  | load off =>
    simp only [Micro.run, gridRead, if_pos (of_decide_eq_true hw)] at h
    cases hx : Memory.read s.grid (gridAddr off) <;> simp only [hx] at h <;> cases h
    exact ⟨_, rfl⟩
  | raise r =>
    cases h
    exact ⟨_, rfl⟩
  | setCursor | skip => cases h

/-- A sequencer step that issues a transaction has its effect, up to SEQ and the result (log 6). -/
theorem sequencerStep_transaction {s t : State} {i : Instr} (hi : s.issues = some i) (h : sequencerStep s = .next t) :
    ∃ v, exec i s = .next v ∧ t = { v with seq := t.seq, result := t.result } := by
  cases he : enterAll s.cursor s.seq with
  | nil =>
    rw [State.issues, State.nextMicro, he] at hi
    cases hi
  | cons f rest =>
    rw [issues_of_enterAll he] at hi
    rw [sequencerStep_of_enterAll he] at h
    cases hw : (f.micro s.cursor).inWindow with
    | false =>
      obtain ⟨off, hr⟩ := Micro.run_outside s hw
      rw [hr] at h
      cases h
    | true =>
      have ha := Micro.run_answers s hi hw
      cases hr : (f.micro s.cursor).run s with
      | done b u =>
        rw [hr] at h ha
        cases h
        obtain ⟨r, hx⟩ := ha
        exact ⟨_, hx, moveOn_eq u f rest b⟩
      | stopped o =>
        rw [hr] at h ha
        cases h
        exact ⟨t, ha, rfl⟩

/-- A sequencer step that issues nothing changes the sequencer's own registers alone. -/
theorem sequencerStep_internal {s t : State} (hi : s.issues = none) (h : sequencerStep s = .next t) :
    t = { s with cursor := t.cursor, seq := t.seq, fault := t.fault, result := t.result } := by
  cases he : enterAll s.cursor s.seq with
  | nil =>
    rw [sequencerStep, he] at h
    cases h
    rfl
  | cons f rest =>
    rw [issues_of_enterAll he] at hi
    rw [sequencerStep_of_enterAll he] at h
    cases hm : f.micro s.cursor with
    | write | read | store | load =>
      rw [hm] at hi
      cases hi
    | setCursor c =>
      rw [hm] at h
      cases h
      rw [moveOn_eq]
    | raise r =>
      rw [hm] at h
      cases h
      rfl
    | skip =>
      rw [hm] at h
      cases h
      rw [moveOn_eq]

/-- A position that keeps its promise accesses the grid inside its window (R130 to R132, R150). -/
theorem Frame.micro_inWindow {c : Option Half} {called : Bool} {f : Frame} (hf : f.ok c true called = true) :
    (f.micro c).inWindow = true := by
  cases f with
  | writeCell index char fg bg loc =>
    cases loc with
    | char =>
      simp only [Frame.micro]
      split
      · rfl
      next hi => exact decide_eq_true (charOffset_lt (Nat.lt_of_not_le hi))
    | attr => exact decide_eq_true (attrOffset_lt (of_decide_eq_true hf))
  | scroll loc =>
    cases loc with
    | load off =>
      have hoff : off < Config.scrollBytes := of_decide_eq_true hf
      rw [scrollBytes_eq] at hoff
      exact decide_eq_true (by rw [windowBytes_eq, Config.cellBytes, Config.width]; omega)
    | store off v =>
      have hoff : off < Config.scrollBytes := of_decide_eq_true hf
      rw [scrollBytes_eq] at hoff
      exact decide_eq_true (by rw [windowBytes_eq]; omega)
    | blank k => cases c <;> rfl
  | moveCursor pos loc =>
    cases loc with
    | highCmd =>
      simp only [Frame.micro]
      split <;> rfl
    | highData | lowCmd | lowData | record => rfl
  | fbWrite text loc => cases loc <;> cases c <;> rfl
  | clear loc => cases loc <;> rfl
  | configureBaud port d loc => cases loc <;> rfl
  | serialWrite port text loc => cases loc <;> rfl
  | configureLine | configureBuffer | configureModem | isTxEmpty | init | print => rfl

/-- Under the invariant the running command has a next step: its grid accesses lie in the window. -/
theorem sequencerStep_progress {s : State} (hs : s.Inv) (hq : s.seq ≠ []) : ∃ t, sequencerStep s = .next t := by
  obtain ⟨f, rest, he, _, hok⟩ := enterAll_top hs.cursor_range hs.seq_ok hq
  simp only [seqOk, Bool.and_eq_true] at hok
  obtain ⟨⟨hf, _⟩, _⟩ := hok
  rw [sequencerStep_of_enterAll he]
  cases hr : (f.micro s.cursor).run s with
  | done b u => exact ⟨_, rfl⟩
  | stopped o => exact Micro.run_stopped_next (Frame.micro_inWindow hf) hr

/-- Settles O12: the step exists by `sequencerStep_progress`, and is the transaction issued or an internal update. -/
theorem eachSequencerStepIsOneTransaction : Obligations.EachSequencerStepIsOneTransaction := by
  intro s hs ⟨hr, hsched⟩ hq
  obtain ⟨t, ht⟩ := sequencerStep_progress hs hq
  have hstep : step s = .next t := by rw [step_driver hr hsched, driverStep_running hq, ht]
  refine ⟨fun i hi => ?_, fun hi => ⟨t, hstep, sequencerStep_internal hi ht⟩⟩
  obtain ⟨v, hv, htv⟩ := sequencerStep_transaction hi ht
  exact ⟨v, t, hv, hstep, htv⟩

end Sys2Proof.Machine
end

section
namespace Sys2Proof.Machine

/-! ### The two UARTs (R20) -/

/-- The transaction concerns UART[u] alone: the other UART and the console's registers and grid are unchanged. -/
def OnlyUart (u : UartId) (s t : State) : Prop :=
  (∀ w, u ≠ w → t.uart w = s.uart w) ∧ t.grid = s.grid ∧ t.crtcIndex = s.crtcIndex ∧ t.curHi = s.curHi ∧ t.curLo = s.curLo ∧
    t.hwCursor = s.hwCursor ∧ t.cursor = s.cursor

theorem onlyUart_setUart (u : UartId) (x : Uart) (s : State) : OnlyUart u s (s.setUart u x) :=
  ⟨fun _ hw => State.uart_setUart_other s x hw.symm, by simp⟩

/-- A fault, a mark, a draw and a returned byte leave every device alone. -/
theorem onlyUart_of_devices_kept {s t : State} (u : UartId)
    (h : t = { s with seq := t.seq, fault := t.fault, refused := t.refused, result := t.result, draws := t.draws }) :
    OnlyUart u s t := by
  rw [h]
  exact ⟨fun w _ => by cases w <;> rfl, rfl, rfl, rfl, rfl, rfl, rfl⟩

theorem uartWrite_onlyUart (u : UartId) (off : BitVec 3) (v : Byte) (s : State) :
    ∃ t, (uartWrite u off v s).settle keep = .next t ∧ OnlyUart u s t := by
  rcases uartWrite_cases u off v s with ⟨x, _, hw⟩ | ⟨o, _, hw⟩
  · rw [hw]
    exact ⟨_, rfl, onlyUart_setUart u x s⟩
  · have hp : portWrite (base u + off.setWidth 16) v s = .stopped o := by simp only [portWrite, claim_uart, hw]
    rw [hw]
    rcases portWrite_stopped hp with ⟨_, rfl⟩ | ⟨_, rfl⟩ <;> exact ⟨_, rfl, onlyUart_of_devices_kept u rfl⟩

theorem uartRead_onlyUart (u : UartId) (off : BitVec 3) (s : State) :
    ∃ t, (uartRead u off s).settle returnByte = .next t ∧ OnlyUart u s t := by
  have hp : portRead (base u + off.setWidth 16) s = uartRead u off s := by simp only [portRead, claim_uart]
  rw [← hp]
  rcases portRead_cases (base u + off.setWidth 16) s with ⟨b, hr⟩ | ⟨o, _, hr⟩
  · rw [hr]
    exact ⟨_, rfl, onlyUart_of_devices_kept u rfl⟩
  · obtain ⟨_, rfl⟩ := portRead_stopped hr
    rw [hr]
    exact ⟨_, rfl, onlyUart_of_devices_kept u rfl⟩

/-- The instructions of UART[u]: the transactions at its eight ports, its U words and its transmitter's step. -/
def UartInstr (u : UartId) (i : Instr) : Prop :=
  (∃ off : BitVec 3, ∃ v, i = .portWrite (base u + off.setWidth 16) v) ∨
    (∃ off : BitVec 3, i = .portRead (base u + off.setWidth 16)) ∨ i = .uartTxSend u ∨ i = .uartLsrRead u ∨
    ∃ v, i = .uartTxWrite u v ∨ i = .uartDivWrite u v ∨ i = .uartFcrWrite u v ∨ i = .uartLcrWrite u v ∨ i = .uartMcrWrite u v

/-- Each instruction of UART[u] is a write or a read at one of its registers, or its transmitter's step, so it concerns UART[u]
alone. -/
theorem exec_onlyUart {u : UartId} {i : Instr} (s : State) (h : UartInstr u i) :
    ∃ t, exec i s = .next t ∧ OnlyUart u s t := by
  rcases h with ⟨off, v, rfl⟩ | ⟨off, rfl⟩ | rfl | rfl | ⟨v, rfl | rfl | rfl | rfl | rfl⟩
  · simpa only [exec, execPortWrite, portWrite, claim_uart] using uartWrite_onlyUart u off v s
  · simpa only [exec, execPortRead, portRead, claim_uart] using uartRead_onlyUart u off s
  · exact ⟨_, rfl, onlyUart_setUart u _ s⟩
  · exact uartRead_onlyUart u 5 s
  · exact uartWrite_onlyUart u 0 v s
  · exact uartWrite_onlyUart u 0 v s
  · exact uartWrite_onlyUart u 2 v s
  · exact uartWrite_onlyUart u 3 v s
  · exact uartWrite_onlyUart u 4 v s

/-- Settles O34: the address decode at the register ports, the two copies of the registers, and `exec_onlyUart`. -/
theorem uartsAreIndependent : Obligations.UartsAreIndependent := by
  refine ⟨rfl, rfl, rfl, fun u => ?_, fun u w x s => ⟨State.uart_setUart_same s u x, State.uart_setUart_other s x⟩,
    fun u w i s hne hi => ?_⟩
  · exact ⟨by simpa using claim_uart u 0, claim_fifo u, claim_line u, claim_modem u, claim_status u⟩
  · obtain ⟨t, ht, huart, hrest⟩ := exec_onlyUart s hi
    exact ⟨t, ht, huart w hne, hrest⟩

/-! ### LINE (R29) -/

/-- No write to a UART's registers changes its LINE. -/
theorem UartWrites.line_eq {x y : Uart} (h : UartWrites x y) : y.line = x.line := by
  cases h with
  | queue | fifo | line | modem => rfl
  | divisor v => exact Uart.loadDivisorByte_line x v

/-- No completed port write changes a LINE. -/
theorem PortWrites.line_eq {s t : State} (h : PortWrites s t) (u : UartId) : (t.uart u).line = (s.uart u).line := by
  cases h with
  | uart w x hx =>
    by_cases hw : u = w
    · subst hw
      rw [State.uart_setUart_same]
      exact hx.line_eq
    · rw [State.uart_setUart_other s x hw]
  | index | unclaimed => cases u <;> rfl
  | high v => rw [State.uart_eq_of_fields (State.loadCursorHigh_uart0 s v) (State.loadCursorHigh_uart1 s v)]
  | low v => rw [State.uart_eq_of_fields (State.loadCursorLow_uart0 s v) (State.loadCursorLow_uart1 s v)]

/-- Of all instructions only UART_TX_SEND changes a LINE. -/
theorem Effect.line_eq {s t : State} {i : Instr} (h : Effect s i t) (hi : ∀ u, i ≠ .uartTxSend u) (u : UartId) :
    (t.uart u).line = (s.uart u).line := by
  cases h with
  | port r hw => exact (hw.line_eq u).trans (by cases u <;> rfl)
  | sent w hw => exact absurd hw (hi w)
  | quiet | store | raised | marked | started | called => cases u <;> rfl

/-- UART_TX_SEND has no word (R178). -/
theorem decode_ne_txSend {r : Request} {i : Instr} (h : decode r = .ok i) (u : UartId) : i ≠ .uartTxSend u := by
  rintro rfl
  cases r with
  | p w =>
    simp only [decode, decodeP, Except.ok.injEq] at h
    split at h <;> cases h
  | u unit w =>
    simp only [decode, decodeU] at h
    split_ifs at h <;> cases h
  | c w =>
    simp only [decode, decodeC] at h
    split_ifs at h <;> cases h
  | m w =>
    simp only [decode, decodeM] at h
    split_ifs at h <;> cases h
  | cmd code ops =>
    simp only [decode, decodeCmd, Except.ok.injEq] at h
    split at h <;> cases h

/-- The sequencer issues no UART_TX_SEND: it is the transmitter's own (R178). -/
theorem issues_ne_txSend {s : State} {i : Instr} (h : s.issues = some i) (u : UartId) : i ≠ .uartTxSend u := by
  rintro rfl
  unfold State.issues at h
  cases hm : s.nextMicro with
  | store off v =>
    rw [hm] at h
    simp only [Micro.transaction, Option.some.injEq] at h
    split at h <;> cases h
  | write | read | load | setCursor | raise | skip =>
    rw [hm] at h
    cases h

/-- The driver side changes no LINE. -/
theorem DriverNext.line_eq {s t : State} (h : DriverNext s t) (u : UartId) : (t.uart u).line = (s.uart u).line := by
  cases h with
  | waits => rfl
  | refuses => cases u <;> rfl
  | runs r rest i hq hf hi hd hx => exact ((exec_effect hx).line_eq (decode_ne_txSend hd) u).trans (by cases u <;> rfl)
  | sequencer hq hx =>
    cases hi : s.issues with
    | none =>
      rw [sequencerStep_internal hi hx]
      cases u <;> rfl
    | some i =>
      obtain ⟨v, hv, ht⟩ := sequencerStep_transaction hi hx
      rw [ht]
      exact Eq.trans (by cases u <;> rfl) ((exec_effect hv).line_eq (issues_ne_txSend hi) u)

/-- A transmitter's step that changes LINE had a byte queued, and records it (R178). -/
theorem Uart.transmit_line_ne {x : Uart} (h : x.transmit.line ≠ x.line) :
    ∃ b rest, x.txfifo = b :: rest ∧ x.transmit.txfifo = rest ∧
      x.transmit.line = x.line ++ [{ byte := b, div := x.div, fmt := x.fmt }] := by
  unfold Uart.transmit at h ⊢
  split at h
  next => exact absurd rfl h
  next b rest hq => exact ⟨b, rest, hq, rfl, rfl⟩

/-- Settles O59: the driver side changes no LINE, and a transmitter's step changes its own by one record. -/
theorem lineGrowsOnlyByItsTransmitter : Obligations.LineGrowsOnlyByItsTransmitter := by
  intro u s t h hne
  rcases step_next h with ⟨w, tail, hs, rfl⟩ | ⟨tail, _, hd⟩
  · by_cases hw : u = w
    · subst hw
      rw [State.uart_setUart_same] at hne ⊢
      obtain ⟨b, rest, hq, hrest, hline⟩ := Uart.transmit_line_ne hne
      exact ⟨tail, b, rest, hs, hq, hrest, hline⟩
    · rw [State.uart_setUart_other _ _ hw] at hne
      exact absurd (by cases u <;> rfl) hne
  · exact absurd ((hd.line_eq u).trans (by cases u <;> rfl)) hne

/-! ### HWCURSOR (R33, R135) -/

/-- An instruction that changes HWCURSOR is the commit of R135, and changes nothing else but the result (log 6). -/
theorem Effect.hwCursor_commit {s t : State} {i : Instr} (h : Effect s i t) (hne : t.hwCursor ≠ s.hwCursor) :
    ∃ r, CursorCommit { s with result := r } i t := by
  cases h with
  | port r hw hc => exact ⟨r, hc hne⟩
  | sent u hi => exact absurd (State.setUart_hwCursor s u _) hne
  | quiet | store | raised | marked | started | called => exact absurd rfl hne

/-- The instruction `i` commits HWCURSOR between `s` and `t`, in the spec's registers: what the model keeps beside them is free. -/
def CommitsHwCursor (s : State) (i : Instr) (t : State) : Prop :=
  s.crtcIndex = some Config.cursorLowCmd ∧ t.grid = s.grid ∧ t.crtcIndex = s.crtcIndex ∧ t.curHi = s.curHi ∧
    t.cursor = s.cursor ∧ t.uart0 = s.uart0 ∧ t.uart1 = s.uart1 ∧
    ∃ h l, cursorDataByte i = some l ∧ s.curHi = some h ∧ t.curLo = some l ∧ t.hwCursor = some (h ++ l)

theorem Effect.commitsHwCursor {s t : State} {i : Instr} (h : Effect s i t) (hne : t.hwCursor ≠ s.hwCursor) :
    CommitsHwCursor s i t := by
  obtain ⟨r, hx, l, hi, hl, hh, rfl⟩ := h.hwCursor_commit hne
  exact ⟨hx, rfl, rfl, rfl, rfl, rfl, rfl, hi, l, hl, hh, rfl, rfl⟩

/-- What the sequencer issues does not depend on the schedule. -/
theorem issues_sched (s : State) (tail : List Agent) : State.issues { s with sched := tail } = s.issues := rfl

/-- A driver side's step that changes HWCURSOR runs the instruction that commits it. -/
theorem DriverNext.commitsHwCursor {s t : State} {tail : List Agent} (h : DriverNext { s with sched := tail } t)
    (hs : s.sched = [] ∧ tail = [] ∨ s.sched = .sequencer :: tail) (hne : t.hwCursor ≠ s.hwCursor) :
    ∃ i, s.stepRuns = some i ∧ CommitsHwCursor s i t := by
  cases h with
  | waits | refuses => exact absurd rfl hne
  | runs r rest i hq hf hi hd hx =>
    exact ⟨i, stepRuns_idle (sched_ne_transmitter hs) hq hf hi hd, (exec_effect hx).commitsHwCursor hne⟩
  | sequencer hq hx =>
    obtain ⟨f, rest, hq⟩ := List.exists_cons_of_ne_nil hq
    rw [stepRuns_running (sched_ne_transmitter hs) hq, ← issues_sched s tail]
    cases hi : State.issues { s with sched := tail } with
    | none =>
      rw [sequencerStep_internal hi hx] at hne
      exact absurd rfl hne
    | some i =>
      obtain ⟨v, hv, ht⟩ := sequencerStep_transaction hi hx
      rw [ht] at hne ⊢
      exact ⟨i, rfl, (exec_effect hv).commitsHwCursor hne⟩

/-- Settles O60: a transmitter's step keeps HWCURSOR, and the driver side's runs the instruction that commits it. -/
theorem hwCursorLoadsOnlyWithTheLowByte : Obligations.HwCursorLoadsOnlyWithTheLowByte := by
  intro s t h hne
  rcases step_next h with ⟨u, tail, _, rfl⟩ | ⟨tail, hs, hd⟩
  · exact absurd (State.setUart_hwCursor _ u _) hne
  · obtain ⟨i, hi, hx, hg, hix, hch, hc, h0, h1, hi', l, hrest⟩ := hd.commitsHwCursor hs hne
    exact ⟨hx, hg, hix, hch, hc, h0, h1, i, hi', l, hi, hrest⟩

end Sys2Proof.Machine
end

section
namespace Sys2Proof

/-! ### Decoding the canonical word -/

/-- The round trip of every instruction, each by its own law of Laws/PerInstr.lean. -/
theorem decode_of_encode : ∀ i : Instr, Laws.RoundTrip.Statement i
  | .portWrite port v => Laws.RoundTrip.portWrite port v
  | .portRead port => Laws.RoundTrip.portRead port
  | .uartTxWrite u v => Laws.RoundTrip.uartTxWrite u v
  | .uartDivWrite u v => Laws.RoundTrip.uartDivWrite u v
  | .uartFcrWrite u v => Laws.RoundTrip.uartFcrWrite u v
  | .uartLcrWrite u v => Laws.RoundTrip.uartLcrWrite u v
  | .uartMcrWrite u v => Laws.RoundTrip.uartMcrWrite u v
  | .uartLsrRead u => Laws.RoundTrip.uartLsrRead u
  | .uartTxSend u => Laws.RoundTrip.uartTxSend u
  | .crtcIndexWrite v => Laws.RoundTrip.crtcIndexWrite v
  | .crtcCursorHighWrite v => Laws.RoundTrip.crtcCursorHighWrite v
  | .crtcCursorLowWrite v => Laws.RoundTrip.crtcCursorLowWrite v
  | .gridCharStore k v => Laws.RoundTrip.gridCharStore k v
  | .gridAttrStore k v => Laws.RoundTrip.gridAttrStore k v
  | .gridLoad off => Laws.RoundTrip.gridLoad off
  | .writePort port v => Laws.RoundTrip.writePort port v
  | .readPort port => Laws.RoundTrip.readPort port
  | .fbWriteCell index char fg bg => Laws.RoundTrip.fbWriteCell index char fg bg
  | .fbMoveCursor pos => Laws.RoundTrip.fbMoveCursor pos
  | .fbWrite text => Laws.RoundTrip.fbWrite text
  | .fbClear => Laws.RoundTrip.fbClear
  | .serialConfigureBaudRate port d => Laws.RoundTrip.serialConfigureBaudRate port d
  | .serialConfigureLine port => Laws.RoundTrip.serialConfigureLine port
  | .serialConfigureBuffer port => Laws.RoundTrip.serialConfigureBuffer port
  | .serialConfigureModem port => Laws.RoundTrip.serialConfigureModem port
  | .serialIsTransmitFifoEmpty port => Laws.RoundTrip.serialIsTransmitFifoEmpty port
  | .serialInit port => Laws.RoundTrip.serialInit port
  | .serialWrite port text => Laws.RoundTrip.serialWrite port text
  | .print channel text => Laws.RoundTrip.print channel text
  | .fbScroll => Laws.RoundTrip.fbScroll
  | .reservedCmd => Laws.RoundTrip.reservedCmd

/-- The transmitter's step is the only instruction without a word (R178). -/
theorem encode_isSome {i : Instr} (h : ∀ u, i ≠ .uartTxSend u) : (encode i).isSome = true := by
  cases i with
  | uartTxSend u => exact absurd rfl (h u)
  | _ => rfl

/-- Settles O5: the round trip of each instruction, and the one instruction without a word. -/
theorem decodeOfEncodeIsTheInstruction : Obligations.DecodeOfEncodeIsTheInstruction :=
  fun i hi => ⟨decode_of_encode i hi, encode_isSome⟩

end Sys2Proof
end

section
namespace Sys2Proof

/-! ### A word by its fields

The rows of R101 and R102 as the spec writes them, field by field: a field is fixed or not read. -/

/-- A field fixed at `x`. -/
def Pattern.fixed {n : Nat} (x : BitVec n) : Pattern n := ⟨BitVec.allOnes n, x⟩

/-- A field that is not read. -/
def Pattern.any (n : Nat) : Pattern n := ⟨0, 0⟩

/-- The fields of `p` above those of `q`. -/
def Pattern.append {m n : Nat} (p : Pattern m) (q : Pattern n) : Pattern (m + n) := ⟨p.mask ++ q.mask, p.value ++ q.value⟩

@[simp] theorem Pattern.hits_fixed {n : Nat} (x w : BitVec n) : (Pattern.fixed x).hits w = (w == x) := by
  simp [Pattern.hits, Pattern.fixed]

@[simp] theorem Pattern.hits_any {n : Nat} (w : BitVec n) : (Pattern.any n).hits w = true := by
  simp [Pattern.hits, Pattern.any]

/-- Two words of the same fields are equal field by field. -/
theorem append_eq_append_iff {m n : Nat} (a c : BitVec m) (b d : BitVec n) : a ++ b = c ++ d ↔ a = c ∧ b = d := by
  constructor
  · intro h
    have hb : b = d := by simpa only [BitVec.setWidth_append_eq_right] using congrArg (BitVec.setWidth n) h
    subst hb
    exact ⟨(BitVec.append_left_inj b).mp h, rfl⟩
  · rintro ⟨rfl, rfl⟩
    rfl

/-- A pattern is matched field by field. -/
theorem Pattern.hits_append {m n : Nat} (p : Pattern m) (q : Pattern n) (a : BitVec m) (b : BitVec n) :
    (p.append q).hits (a ++ b) = (p.hits a && q.hits b) := by
  rw [Bool.eq_iff_iff, Bool.and_eq_true]
  simp only [Pattern.hits, Pattern.append, beq_iff_eq, BitVec.and_append, append_eq_append_iff]

/-- The bits above the lowest field. -/
theorem toNat_append_div {m n : Nat} (a : BitVec m) (b : BitVec n) : (a ++ b).toNat / 2 ^ n = a.toNat := by
  rw [BitVec.toNat_append, ← Nat.shiftLeft_add_eq_or_of_lt b.isLt, Nat.shiftLeft_eq, Nat.mul_comm,
    Nat.mul_add_div (Nat.two_pow_pos n), Nat.div_eq_of_lt b.isLt, Nat.add_zero]

/-! ### Format U (R92, R101) -/

/-- A row of format U: dir, dlab and off, and a data field that is not read (R92). -/
def rowU (dir : BitVec 1) (dlab : Pattern 1) (off : BitVec 3) : Pattern 13 :=
  (((Pattern.fixed dir).append dlab).append (.fixed off)).append (.any 8)

theorem hits_rowU (d : BitVec 1) (p : Pattern 1) (o : BitVec 3) (dir dlab : BitVec 1) (off : BitVec 3) (v : Byte) :
    (rowU d p o).hits (dir ++ dlab ++ off ++ v) = (dir == d && p.hits dlab && off == o) := by
  simp only [rowU, Pattern.hits_append, Pattern.hits_fixed, Pattern.hits_any, Bool.and_true]

theorem rowTxWrite_eq : rowTxWrite = rowU 1 (.fixed 0) 0 := rfl
theorem rowDivWrite_eq : rowDivWrite = rowU 1 (.fixed 1) 0 := rfl
theorem rowFcrWrite_eq : rowFcrWrite = rowU 1 (.any 1) 2 := rfl
theorem rowLcrWrite_eq : rowLcrWrite = rowU 1 (.any 1) 3 := rfl
theorem rowMcrWrite_eq : rowMcrWrite = rowU 1 (.any 1) 4 := rfl
theorem rowLsrRead_eq : rowLsrRead = rowU 0 (.any 1) 5 := rfl

theorem uartOffField_append (dir dlab : BitVec 1) (off : BitVec 3) (v : Byte) :
    uartOffField (dir ++ dlab ++ off ++ v) = off := by
  rw [uartOffField, toNat_append_div (dir ++ dlab ++ off) v, BitVec.ofNat_toNat, BitVec.setWidth_append_eq_right]

/-- The decoder of format U on the fields of a word. -/
theorem decodeU_fields (u : UartId) (dir dlab : BitVec 1) (off : BitVec 3) (v : Byte) :
    decodeU u (dir ++ dlab ++ off ++ v) =
      if dir = 1 ∧ dlab = 0 ∧ off = 0 then .ok (.uartTxWrite u v)
      else if dir = 1 ∧ dlab = 1 ∧ off = 0 then .ok (.uartDivWrite u v)
      else if dir = 1 ∧ off = 2 then .ok (.uartFcrWrite u v)
      else if dir = 1 ∧ off = 3 then .ok (.uartLcrWrite u v)
      else if dir = 1 ∧ off = 4 then .ok (.uartMcrWrite u v)
      else if dir = 0 ∧ off = 5 then .ok (.uartLsrRead u)
      else if off = 0 then .error (.reserved .uartDataRead)
      else .error (.reserved .uartAccessNotModelled) := by
  have hd : dataField (dir ++ dlab ++ off ++ v) = v := dataField_append _ v
  simp only [decodeU, rowTxWrite_eq, rowDivWrite_eq, rowFcrWrite_eq, rowLcrWrite_eq, rowMcrWrite_eq, rowLsrRead_eq, hits_rowU,
    Pattern.hits_fixed, Pattern.hits_any, uartOffField_append, hd, Bool.and_eq_true, beq_iff_eq, and_assoc, true_and]

/-- Settles O7: of a write the offset picks the row, and at offset 0 dlab does; of a read only offset 5 is a row's. -/
theorem uartWordsDecodeByTheirFields : Obligations.UartWordsDecodeByTheirFields := by
  intro u dlab off v
  constructor
  · rw [decode, decodeU_fields]
    by_cases h0 : off = 0#3
    · rcases BitVec.eq_zero_or_eq_one dlab with rfl | rfl <;> simp [h0]
    · simp [h0]
  · rw [decode, decodeU_fields]
    simp

/-! ### Format C (R93, R102) -/

/-- A row of format C: dir, sel and idx, and a data field that is not read (R93). -/
def rowC (dir sel : BitVec 1) (idx : Pattern 8) : Pattern 18 :=
  (((Pattern.fixed dir).append (.fixed sel)).append idx).append (.any 8)

theorem hits_rowC (d l : BitVec 1) (p : Pattern 8) (dir sel : BitVec 1) (idx v : Byte) :
    (rowC d l p).hits (dir ++ sel ++ idx ++ v) = (dir == d && sel == l && p.hits idx) := by
  simp only [rowC, Pattern.hits_append, Pattern.hits_fixed, Pattern.hits_any, Bool.and_true]

theorem rowIndexWrite_eq : rowIndexWrite = rowC 1 0 (.any 8) := rfl
theorem rowCursorHigh_eq : rowCursorHigh = rowC 1 1 (.fixed 0x0E) := rfl
theorem rowCursorLow_eq : rowCursorLow = rowC 1 1 (.fixed 0x0F) := rfl

/-- Bit 17 of a format C word is its direction (R93). -/
theorem getLsbD_dirC (dir sel : BitVec 1) (idx v : Byte) : (dir ++ sel ++ idx ++ v).getLsbD 17 = (dir == 1) := by
  rw [BitVec.getLsbD_append, if_neg (by decide), BitVec.getLsbD_append, if_neg (by decide), BitVec.getLsbD_append,
    if_neg (by decide)]
  rcases BitVec.eq_zero_or_eq_one dir with rfl | rfl <;> rfl

/-- The decoder of format C on the fields of a word. -/
theorem decodeC_fields (dir sel : BitVec 1) (idx v : Byte) :
    decodeC (dir ++ sel ++ idx ++ v) =
      if dir = 1 ∧ sel = 0 then .ok (.crtcIndexWrite v)
      else if dir = 1 ∧ sel = 1 ∧ idx = 0x0E then .ok (.crtcCursorHighWrite v)
      else if dir = 1 ∧ sel = 1 ∧ idx = 0x0F then .ok (.crtcCursorLowWrite v)
      else if dir = 1 then .error (.reserved .crtcIndexNotModelled)
      else .error (.reserved .crtcRead) := by
  have hd : dataField (dir ++ sel ++ idx ++ v) = v := dataField_append _ v
  simp only [decodeC, rowIndexWrite_eq, rowCursorHigh_eq, rowCursorLow_eq, hits_rowC, Pattern.hits_fixed, Pattern.hits_any,
    getLsbD_dirC, hd, Bool.and_eq_true, beq_iff_eq, and_assoc, and_true]

/-- Settles O8: a write's sel picks the port and, at the data port, idx the register; no row is a read. -/
theorem cursorWordsDecodeByTheirFields : Obligations.CursorWordsDecodeByTheirFields := by
  intro sel idx v
  constructor
  · rw [decode, decodeC_fields]
    rcases BitVec.eq_zero_or_eq_one sel with rfl | rfl <;> simp
  · rw [decode, decodeC_fields]
    simp

/-! ### Format M (R94, R103) -/

/-- The cell index is the byte offset without its lowest bit (R94). -/
theorem cellField_eq (w : BitVec 26) : cellField w = BitVec.ofNat 16 ((offField w).toNat / 2) := by
  apply BitVec.eq_of_toNat_eq
  rw [cellField, offField, BitVec.toNat_ofNat, BitVec.toNat_ofNat, BitVec.toNat_ofNat]
  omega

/-- No word with an offset outside the window is an instruction (R103). -/
theorem decodeM_outside (dir : Bool) {off : BitVec 17} (v : Byte) (h : 4000 ≤ off.toNat) :
    decodeM (wordM dir off v) = .error (.outsideWindow off.toNat) := by
  have hw : ¬ offsetInWindow off = true := by
    rw [offsetInWindow, Machine.windowBytes_eq, decide_eq_true_eq]
    omega
  obtain ⟨ho, -⟩ := wordM_fields dir off v
  rw [decodeM, ho, if_neg hw]

theorem decodeM_store {off : BitVec 17} (v : Byte) (h : off.toNat < 4000) :
    decodeM (wordM true off v) =
      .ok (if off.toNat % 2 = 0 then .gridCharStore (BitVec.ofNat 16 (off.toNat / 2)) v
        else .gridAttrStore (BitVec.ofNat 16 (off.toNat / 2)) v) := by
  obtain ⟨ho, -⟩ := wordM_fields true off v
  have hbit : off.getLsbD 0 = decide (off.toNat % 2 = 1) := Nat.testBit_zero off.toNat
  rw [decodeM_wordM true off v (decide_eq_true h), cellField_eq, ho, hbit]
  rcases Nat.mod_two_eq_zero_or_one off.toNat with h2 | h2 <;> simp [h2]

theorem decodeM_load {off : BitVec 17} (v : Byte) (h : off.toNat < 4000) :
    decodeM (wordM false off v) = .ok (.gridLoad off) := by
  rw [decodeM_wordM false off v (decide_eq_true h)]
  rfl

/-- Settles O9: the offset is checked first, then the direction and the offset's parity pick the row. -/
theorem gridWordsDecodeByTheirFields : Obligations.GridWordsDecodeByTheirFields := by
  intro off v
  refine ⟨fun h dir => ?_, fun h => ⟨decodeM_store v h, decodeM_load v h⟩⟩
  rcases BitVec.eq_zero_or_eq_one dir with rfl | rfl
  · exact decodeM_outside false v h
  · exact decodeM_outside true v h

/-! ### Format P and the command codes (R91, R104) -/

theorem decodeP_write (port : Port) (v : Byte) : decodeP (wordP true port v) = .portWrite port v := by
  obtain ⟨hp, hd⟩ := wordP_fields true port v
  rw [decodeP, hits_wordP, hp, hd, if_pos rfl]

/-- The data field of a read is not read (R91). -/
theorem decodeP_read (port : Port) (v : Byte) : decodeP (wordP false port v) = .portRead port := by
  obtain ⟨hp, -⟩ := wordP_fields false port v
  rw [decodeP, hits_wordP, hp, if_neg Bool.false_ne_true]

/-- Settles O10: the two rows of format P by their fields, and the sixteen codes read off the decoder. -/
theorem portWordsAndCommandCodesDecode : Obligations.PortWordsAndCommandCodesDecode :=
  ⟨fun port v => ⟨congrArg Except.ok (decodeP_write port v), congrArg Except.ok (decodeP_read port v)⟩,
    fun _ => ⟨rfl, rfl, rfl, rfl, rfl, rfl, rfl, rfl, rfl, rfl, rfl, rfl, rfl, rfl, rfl, rfl⟩⟩

/-- Settles O6: the decoder evaluated at each printed word. -/
theorem specWordsDecodeToTheirInstructions : Obligations.SpecWordsDecodeToTheirInstructions := by
  unfold Obligations.SpecWordsDecodeToTheirInstructions
  decide

end Sys2Proof
end

section
namespace Sys2Proof.Machine

/-! ### A port transaction as the device's word (R92, R93, R120, R121) -/

/-- The word of a port transaction at a UART has the transaction's direction, offset and data; its dlab field is free. -/
theorem uWord_eq_some {s : State} {u : UartId} {write : Bool} {off : BitVec 3} {v : Byte} {w : BitVec 13}
    (h : s.uWord u write off v = some w) : ∃ dlab : BitVec 1, w = BitVec.ofBool write ++ dlab ++ off ++ v := by
  unfold State.uWord at h
  split at h
  next d _ => exact ⟨BitVec.ofBool d, (Option.some.inj h).symm⟩
  next =>
    split at h
    · cases h
    · exact ⟨0#1, (Option.some.inj h).symm⟩

/-- A write at an offset without a register is refused (R177). -/
theorem uartWrite_other (u : UartId) {off : BitVec 3} (v : Byte) (s : State) (h0 : off ≠ 0) (h2 : off ≠ 2) (h3 : off ≠ 3)
    (h4 : off ≠ 4) : uartWrite u off v s = .refuse s .uartAccessNotModelled := by
  unfold uartWrite
  split
  next h => exact absurd (BitVec.eq_of_toNat_eq h) h0
  next h => exact absurd (BitVec.eq_of_toNat_eq h) h2
  next h => exact absurd (BitVec.eq_of_toNat_eq h) h3
  next h => exact absurd (BitVec.eq_of_toNat_eq h) h4
  next => rfl

/-- A read at an offset other than the data port's and the line status's is refused (R177). -/
theorem uartRead_other (u : UartId) {off : BitVec 3} (s : State) (h0 : off ≠ 0) (h5 : off ≠ 5) :
    uartRead u off s = .refuse s .uartAccessNotModelled := by
  unfold uartRead
  split
  next h => exact absurd (BitVec.eq_of_toNat_eq h) h0
  next h => exact absurd (BitVec.eq_of_toNat_eq h) h5
  next => rfl

/-- A port write at a UART is its write word as presented to the device, whatever the word's dlab field (log 9). -/
theorem exec_portWrite_uart (u : UartId) (dlab : BitVec 1) (off : BitVec 3) (v : Byte) (s : State) :
    exec (.portWrite (base u + off.setWidth 16) v) s = acceptRequest (.u u (1#1 ++ dlab ++ off ++ v)) s := by
  have hx : exec (.portWrite (base u + off.setWidth 16) v) s = (uartWrite u off v s).settle keep := by
    simp only [exec, execPortWrite, portWrite, claim_uart]
  obtain ⟨hd, -⟩ := uartWordsDecodeByTheirFields u dlab off v
  rw [hx]
  obtain rfl | h0 := eq_or_ne off 0
  · rcases BitVec.eq_zero_or_eq_one dlab with rfl | rfl <;> exact (acceptRequest_ok s hd).symm
  obtain rfl | h2 := eq_or_ne off 2
  · exact (acceptRequest_ok s hd).symm
  obtain rfl | h3 := eq_or_ne off 3
  · exact (acceptRequest_ok s hd).symm
  obtain rfl | h4 := eq_or_ne off 4
  · exact (acceptRequest_ok s hd).symm
  rw [if_neg h0, if_neg h2, if_neg h3, if_neg h4] at hd
  rw [uartWrite_other u v s h0 h2 h3 h4, acceptRequest_reserved s hd]
  rfl

/-- A port read at a UART is its read word as presented to the device. -/
theorem exec_portRead_uart (u : UartId) (dlab : BitVec 1) (off : BitVec 3) (v : Byte) (s : State) :
    exec (.portRead (base u + off.setWidth 16)) s = acceptRequest (.u u (0#1 ++ dlab ++ off ++ v)) s := by
  have hx : exec (.portRead (base u + off.setWidth 16)) s = (uartRead u off s).settle returnByte := by
    simp only [exec, execPortRead, portRead, claim_uart]
  obtain ⟨-, hd⟩ := uartWordsDecodeByTheirFields u dlab off v
  rw [hx]
  obtain rfl | h5 := eq_or_ne off 5
  · exact (acceptRequest_ok s hd).symm
  obtain rfl | h0 := eq_or_ne off 0
  · exact (acceptRequest_reserved s hd).symm
  rw [if_neg h5, if_neg h0] at hd
  rw [uartRead_other u s h0 h5, acceptRequest_reserved s hd]
  rfl

/-- A port write at a cursor port is its word as presented to the cursor hardware: at the data port the idx field is CRTC_INDEX,
which picks the same register as `crtcDataWrite`. -/
theorem exec_portWrite_crtc {s : State} {dataPort : Bool} {v : Byte} {w : BitVec 18} (h : s.cWord dataPort v = some w) :
    exec (.portWrite (if dataPort then Config.crtcDataPort else Config.crtcCmdPort) v) s = acceptRequest (.c w) s := by
  cases dataPort with
  | false =>
    cases h
    obtain ⟨hd, -⟩ := cursorWordsDecodeByTheirFields 0#1 0#8 v
    exact (acceptRequest_ok s hd).symm
  | true =>
    have hx : exec (.portWrite Config.crtcDataPort v) s = (crtcDataWrite v s).settle keep := by
      simp only [exec, execPortWrite, portWrite_crtcData]
    cases hi : s.crtcIndex with
    | none => simp [State.cWord, hi] at h
    | some idx =>
      have hw : w = 1#1 ++ 1#1 ++ idx ++ v := by simpa [State.cWord, hi] using h.symm
      obtain ⟨hd, -⟩ := cursorWordsDecodeByTheirFields 1#1 idx v
      rw [if_pos rfl, hx, hw]
      obtain rfl | hh := eq_or_ne idx 0x0E
      · exact (acceptRequest_ok s hd).symm
      obtain rfl | hl := eq_or_ne idx 0x0F
      · exact (acceptRequest_ok s hd).symm
      rw [if_neg (by decide), if_neg hh, if_neg hl] at hd
      rcases crtcDataWrite_cases v s with ⟨hc, -⟩ | ⟨hc, -⟩ | ⟨-, -, hc⟩
      · exact absurd (Option.some.inj (hi.symm.trans hc)) hh
      · exact absurd (Option.some.inj (hi.symm.trans hc)) hl
      · rw [hc, acceptRequest_reserved s hd, Txn.settle_stopped]

/-- A data-port write with LCR `none` takes the fault (R239). -/
theorem exec_portWrite_data_unwritten {s : State} {u : UartId} (v : Byte) (h : (s.uart u).lcr = none) :
    exec (.portWrite (base u) v) s = .next (s.takeFault (.unwrittenState (.uartLcr u))) := by
  have hp : base u = registerPort (base u) Config.offData := (BitVec.add_zero _).symm
  have hd : (s.uart u).dlab = none := by rw [Uart.dlab, h, Option.map_none]
  rw [exec, execPortWrite, hp, portWrite_data]
  simp only [uartDataWrite, hd, Txn.raise, Txn.settle_stopped]

/-- An instruction that has the effect of a presented word has the effect of what the word decodes to, or its refusal. -/
theorem effect_of_eq_acceptRequest {i : Instr} {r : Request} {s : State} (h : exec i s = acceptRequest r s) :
    (∀ j, decode r = .ok j → exec i s = exec j s) ∧
      (∀ e, decode r = .error (.reserved e) → exec i s = .next (s.markRefused e)) :=
  ⟨fun _ hj => h.trans (acceptRequest_ok s hj), fun _ he => h.trans (acceptRequest_reserved s he)⟩

/-- Settles O15: at each register port the transaction is the device's word as presented to the device; the instructions of two modes
are one data-port write. -/
theorem portTransactionIsTheDecodedDeviceWord : Obligations.PortTransactionIsTheDecodedDeviceWord := by
  refine fun s => ⟨fun u off v w h => ?_, fun u off w h => ?_, fun u v h => exec_portWrite_data_unwritten v h,
    fun dataPort v w h => effect_of_eq_acceptRequest (exec_portWrite_crtc h), fun u v => ⟨rfl, rfl⟩⟩
  · obtain ⟨dlab, rfl⟩ := uWord_eq_some h
    exact effect_of_eq_acceptRequest (exec_portWrite_uart u dlab off v s)
  · obtain ⟨dlab, rfl⟩ := uWord_eq_some h
    exact effect_of_eq_acceptRequest (exec_portRead_uart u dlab off 0 s)

/-! ### Reserved commands (R105, R237) -/

/-- A caller cannot issue `fb.scroll` (R105, R150). -/
theorem exec_fbScroll_idle {s : State} (h : s.seq = []) : exec .fbScroll s = .next (s.markRefused .scrollNotIssuable) := by
  simp [exec, execFbScroll, State.idle, h]

/-- Settles O58: each of the two codes sets its mark, and a marked state has no step. -/
theorem reservedCommandsAreRefused : Obligations.ReservedCommandsAreRefused :=
  fun _ => ⟨rfl, exec_fbScroll_idle, fun _ => step_marked⟩

end Sys2Proof.Machine
end

section
namespace Sys2Proof.Machine

/-! ### The address decode (R122) -/

/-- The cursor command port is the only port claimed so (R122). -/
theorem claim_eq_crtcCmd {port : Port} (h : claim port = .crtcCmd) : port = Config.crtcCmdPort := by
  unfold claim at h
  split at h
  · cases h
  · split at h
    · cases h
    · split at h
      next hp => exact hp
      next => split at h <;> cases h

theorem claim_eq_uart_iff {port : Port} {u : UartId} {off : BitVec 3} :
    claim port = .uart u off ↔ port = base u + off.setWidth 16 :=
  ⟨claim_eq_uart, fun h => h ▸ claim_uart u off⟩

theorem claim_eq_crtcCmd_iff {port : Port} : claim port = .crtcCmd ↔ port = Config.crtcCmdPort :=
  ⟨claim_eq_crtcCmd, fun h => h ▸ claim_crtcCmd⟩

theorem claim_eq_crtcData_iff {port : Port} : claim port = .crtcData ↔ port = Config.crtcDataPort :=
  ⟨claim_eq_crtcData, fun h => h ▸ claim_crtcData⟩

/-- A port is unclaimed exactly when no UART has it and it is neither of the cursor's (R122). -/
theorem claim_eq_unclaimed_iff {port : Port} :
    claim port = .unclaimed ↔ (∀ (u : UartId) (off : BitVec 3), port ≠ base u + off.setWidth 16) ∧
      port ≠ Config.crtcCmdPort ∧ port ≠ Config.crtcDataPort := by
  simp only [ne_eq, ← claim_eq_uart_iff, ← claim_eq_crtcCmd_iff, ← claim_eq_crtcData_iff]
  cases claim port <;> simp

/-- Settles O13: each constructor of the decode's answer, read in both directions. -/
theorem eachPortIsDecodedToOneDevice : Obligations.EachPortIsDecodedToOneDevice :=
  fun _ => ⟨fun _ _ => claim_eq_uart_iff, claim_eq_crtcCmd_iff, claim_eq_crtcData_iff, claim_eq_unclaimed_iff⟩

/-! ### A port no device claims (R123) -/

theorem portWrite_unclaimed {port : Port} (h : claim port = .unclaimed) (v : Byte) (s : State) :
    portWrite port v s = .done () s := by
  simp only [portWrite, h]

theorem portRead_unclaimed {port : Port} (h : claim port = .unclaimed) (s : State) :
    portRead port s = .done s.drawn s.afterDraw := by
  simp only [portRead, h]

/-- Settles O16: the port is unclaimed by the address decode, and the two transactions there are `portWrite_unclaimed` and
`portRead_unclaimed`. -/
theorem unclaimedPortIsInert : Obligations.UnclaimedPortIsInert := by
  intro port v s huart hcmd hdata
  have hc : claim port = .unclaimed := claim_eq_unclaimed_iff.mpr ⟨huart, hcmd, hdata⟩
  constructor
  · rw [exec, execPortWrite, portWrite_unclaimed hc]
    rfl
  · rw [exec, execPortRead, portRead_unclaimed hc]
    rfl

/-! ### A port transaction by itself -/

/-- A port write that completes is the instruction's next state. -/
theorem exec_portWrite_done {port : Port} {v : Byte} {s t : State} (h : portWrite port v s = .done () t) :
    exec (.portWrite port v) s = .next t := by
  rw [exec, execPortWrite, h]
  rfl

/-- A port write always answers a next state: complete, faulted or marked (R120, R237, R240). -/
theorem portWrite_answers (port : Port) (v : Byte) (s : State) : ∃ t, (portWrite port v s).settle keep = .next t := by
  cases hw : portWrite port v s with
  | done _ t => exact ⟨t, rfl⟩
  | stopped o => rcases portWrite_stopped hw with ⟨_, rfl⟩ | ⟨_, rfl⟩ <;> exact ⟨_, rfl⟩

/-- A port read always answers a next state: complete or marked (R121, R237). -/
theorem portRead_answers (port : Port) (s : State) : ∃ t, (portRead port s).settle returnByte = .next t := by
  cases hr : portRead port s with
  | done b t => exact ⟨returnByte b t, rfl⟩
  | stopped o =>
    obtain ⟨_, rfl⟩ := portRead_stopped hr
    exact ⟨_, rfl⟩

/-- An idle unfaulted block accepts a command (R35, R240). -/
theorem accepts_of_idle {s : State} (hq : s.seq = []) (hf : s.fault = []) : s.accepts = true := by
  simp [State.accepts, hq, hf]

theorem exec_writePort_of_accepts {s : State} (port : Port) (v : Byte) (h : s.accepts = true) :
    exec (.writePort port v) s = exec (.portWrite port v) { s with result := none } :=
  if_pos h

theorem exec_readPort_of_accepts {s : State} (port : Port) (h : s.accepts = true) :
    exec (.readPort port) s = exec (.portRead port) { s with result := none } :=
  if_pos h

/-- Settles O18: an accepting block hands the command to the port transaction, which answers a next state. -/
theorem directPortCommandsAreThePortTransaction : Obligations.DirectPortCommandsAreThePortTransaction := by
  intro port v s hq hf
  have ha : s.accepts = true := accepts_of_idle hq hf
  constructor
  · obtain ⟨t, ht⟩ := portWrite_answers port v { s with result := none }
    exact ⟨t, ht, (exec_writePort_of_accepts port v ha).trans ht⟩
  · obtain ⟨t, ht⟩ := portRead_answers port { s with result := none }
    exact ⟨t, ht, (exec_readPort_of_accepts port ha).trans ht⟩

end Sys2Proof.Machine
end

section
namespace Sys2Proof.Machine

/-! ### Each port's register (R120, R121) -/

/-- BASE[u] itself is the data port of UART[u]. -/
theorem portWrite_base (u : UartId) (v : Byte) (s : State) : portWrite (base u) v s = uartDataWrite u v s := by
  have hp : base u = registerPort (base u) Config.offData := (BitVec.add_zero _).symm
  rw [hp, portWrite_data]

/-- A FIFO-control write that keeps the enable bit or clears both FIFOs is not refused (R173). -/
theorem uartFifoWrite_accepted {u : UartId} {v : Byte} {s : State}
    (h : (s.uart u).fifoEn = some (fcrEnable v) ∨ fcrClearRx v = true ∧ fcrClearTx v = true) :
    uartFifoWrite u v s = .done () (s.setUart u ((s.uart u).configureFifo v)) :=
  if_neg fun ⟨hen, hclear⟩ => h.elim hen hclear

/-- A modem-control write with the loopback bit clear is not refused (R175). -/
theorem uartModemWrite_plain {u : UartId} {v : Byte} (s : State) (h : mcrLoopback v = false) :
    uartModemWrite u v s = .done () (s.setUart u ((s.uart u).configureModem v)) :=
  if_neg (Bool.eq_false_iff.mp h)

theorem crtcDataWrite_high {s : State} (v : Byte) (h : s.crtcIndex = some Config.cursorHighCmd) :
    crtcDataWrite v s = .done () (s.loadCursorHigh v) :=
  if_pos h

theorem crtcDataWrite_low {s : State} (v : Byte) (h : s.crtcIndex = some Config.cursorLowCmd) :
    crtcDataWrite v s = .done () (s.loadCursorLow v) := by
  have hne : s.crtcIndex ≠ some Config.cursorHighCmd := by
    rw [h]
    decide
  rw [crtcDataWrite, if_neg hne, if_pos h]

/-- Settles O14: the address decode at each register port, and that register's own write or read. -/
theorem portTransactionsReachTheirRegister : Obligations.PortTransactionsReachTheirRegister := by
  refine fun u v s => ⟨?line, fun hloop => ?modem, fun hfifo => ?fifo, fun hd => ?divisor, fun cap hd hc hl => ?queue,
    ?index, fun hi => ?high, fun hi => ?low, ?status⟩
  case line => exact exec_portWrite_done (portWrite_line u v s)
  case modem => exact exec_portWrite_done ((portWrite_modem u v s).trans (uartModemWrite_plain s hloop))
  case fifo => exact exec_portWrite_done ((portWrite_fifo u v s).trans (uartFifoWrite_accepted hfifo))
  case divisor => exact exec_portWrite_done ((portWrite_base u v s).trans (uartDataWrite_divisor v hd))
  case queue => exact exec_portWrite_done ((portWrite_base u v s).trans (uartDataWrite_queue v hd hc hl))
  case index => exact exec_portWrite_done (portWrite_crtcCmd v s)
  case high => exact exec_portWrite_done ((portWrite_crtcData v s).trans (crtcDataWrite_high v hi))
  case low => exact exec_portWrite_done ((portWrite_crtcData v s).trans (crtcDataWrite_low v hi))
  case status => exact congrArg (·.settle returnByte) (portRead_status u s)

end Sys2Proof.Machine
end

section
namespace Sys2Proof.Machine

/-! ### Writes to different devices (R125) -/

/-- A port write whose next state is safe was neither refused nor did it fault: it completed. -/
theorem portWrite_done_of_safe {port : Port} {v : Byte} {s t : State} (h : exec (.portWrite port v) s = .next t)
    (ht : t.Safe) : portWrite port v s = .done () t := by
  obtain ⟨hf, hr⟩ := ht
  rw [exec, execPortWrite] at h
  cases hw : portWrite port v s with
  | done _ _ =>
    rw [hw] at h
    cases h
    rfl
  | stopped o =>
    rw [hw] at h
    rcases portWrite_stopped hw with ⟨r, rfl⟩ | ⟨r, rfl⟩ <;> cases h
    · simp at hf
    · simp at hr

/-- A completed port write neither records a fault nor sets the mark. -/
theorem PortWrites.safe {s t : State} (h : PortWrites s t) (hs : s.Safe) : t.Safe := by
  unfold State.Safe at hs ⊢
  cases h <;> simpa using hs

theorem portWrite_done_safe {port : Port} {v : Byte} {s t : State} (h : portWrite port v s = .done () t) (hs : s.Safe) :
    t.Safe := by
  rcases portWrite_cases port v s with ⟨t', ht, hw⟩ | ⟨o, _, hw⟩ <;> cases h.symm.trans hw
  exact ht.safe hs

/-- Updates of the two UARTs commute. -/
theorem State.setUart_comm (s : State) {u w : UartId} (x y : Uart) (h : u ≠ w) :
    (s.setUart u x).setUart w y = (s.setUart w y).setUart u x := by
  cases u <;> cases w
  · exact absurd rfl h
  · rfl
  · rfl
  · exact absurd rfl h

theorem State.loadCursorHigh_setUart (s : State) (u : UartId) (x : Uart) (v : Byte) :
    (s.setUart u x).loadCursorHigh v = (s.loadCursorHigh v).setUart u x := by cases u <;> rfl

theorem State.loadCursorLow_setUart (s : State) (u : UartId) (x : Uart) (v : Byte) :
    (s.setUart u x).loadCursorLow v = (s.loadCursorLow v).setUart u x := by
  unfold State.loadCursorLow
  rw [State.setUart_curHi]
  cases s.curHi <;> cases u <;> rfl

/-- Whether a data-port write of UART[u] completes, and what it stores, depends on UART[u] alone (R170, R171). -/
theorem uartDataWrite_local {u : UartId} {v : Byte} {s t : State} (h : uartDataWrite u v s = .done () t) :
    ∃ x, ∀ s' : State, s'.uart u = s.uart u → uartDataWrite u v s' = .done () (s'.setUart u x) := by
  unfold uartDataWrite at h
  split at h
  next => cases h
  next hd => exact ⟨_, fun s' hs => hs ▸ uartDataWrite_divisor v (hs ▸ hd)⟩
  next hd =>
    split at h
    next => cases h
    next cap hc =>
      split at h
      next hl => exact ⟨_, fun s' hs => hs ▸ uartDataWrite_queue v (hs ▸ hd) (hs ▸ hc) (hs ▸ hl)⟩
      next => cases h

/-- Whether a write of UART[u] completes, and what it stores, depends on UART[u] alone. -/
theorem uartWrite_local {u : UartId} {off : BitVec 3} {v : Byte} {s t : State} (h : uartWrite u off v s = .done () t) :
    ∃ x, ∀ s' : State, s'.uart u = s.uart u → uartWrite u off v s' = .done () (s'.setUart u x) := by
  unfold uartWrite at h ⊢
  split at h
  next => exact uartDataWrite_local h
  next =>
    unfold uartFifoWrite at h
    split at h
    next => cases h
    next hn => exact ⟨(s.uart u).configureFifo v, fun s' hs => by simp only [uartFifoWrite, hs, if_neg hn]⟩
  next => exact ⟨(s.uart u).configureLine v, fun s' hs => by simp only [uartLineWrite, hs]⟩
  next =>
    unfold uartModemWrite at h
    split at h
    next => cases h
    next hn => exact ⟨(s.uart u).configureModem v, fun s' hs => by simp only [uartModemWrite, hs, if_neg hn]⟩
  next => cases h

/-- A completed write at a port of UART[u] replaces UART[u] by registers that depend on UART[u] alone. -/
theorem portWrite_local {port : Port} {u : UartId} {off : BitVec 3} {v : Byte} {s t : State}
    (hc : claim port = .uart u off) (h : portWrite port v s = .done () t) :
    ∃ x, ∀ s' : State, s'.uart u = s.uart u → portWrite port v s' = .done () (s'.setUart u x) := by
  simp only [portWrite, hc] at h ⊢
  exact uartWrite_local h

/-- A completed data-port write of the cursor hardware does not see the UARTs. -/
theorem crtcDataWrite_setUart {v : Byte} {s t : State} (u : UartId) (x : Uart) (h : crtcDataWrite v s = .done () t) :
    crtcDataWrite v (s.setUart u x) = .done () (t.setUart u x) := by
  rcases crtcDataWrite_cases v s with ⟨hi, hw⟩ | ⟨hi, hw⟩ | ⟨_, _, hw⟩ <;> cases h.symm.trans hw
  · rw [crtcDataWrite_high v (by rwa [State.setUart_crtcIndex]), State.loadCursorHigh_setUart]
  · rw [crtcDataWrite_low v (by rwa [State.setUart_crtcIndex]), State.loadCursorLow_setUart]

/-- A completed write at a port of another device commutes with any update of UART[u]. -/
theorem portWrite_setUart {port : Port} {v : Byte} {s t : State} {u : UartId} (x : Uart)
    (hc : ∀ off, claim port ≠ .uart u off) (h : portWrite port v s = .done () t) :
    portWrite port v (s.setUart u x) = .done () (t.setUart u x) := by
  cases hp : claim port with
  | uart w off =>
    have hne : u ≠ w := by
      rintro rfl
      exact hc off hp
    obtain ⟨y, hy⟩ := portWrite_local hp h
    cases h.symm.trans (hy s rfl)
    rw [hy _ (State.uart_setUart_other s x hne.symm), State.setUart_comm s x y hne]
  | crtcCmd =>
    simp only [portWrite, hp] at h ⊢
    cases h
    cases u <;> rfl
  | crtcData =>
    simp only [portWrite, hp] at h ⊢
    exact crtcDataWrite_setUart u x h
  | unclaimed =>
    simp only [portWrite, hp] at h ⊢
    cases h
    rfl

/-- A completed write at a port of another device leaves UART[u] alone. -/
theorem portWrite_uart_other {port : Port} {v : Byte} {s t : State} {u : UartId}
    (hc : ∀ off, claim port ≠ .uart u off) (h : portWrite port v s = .done () t) : t.uart u = s.uart u := by
  have hput := portWrite_setUart (s.uart u) hc h
  rw [State.setUart_uart] at hput
  injection h.symm.trans hput with _ ht
  rw [ht, State.uart_setUart_same]

/-- The two completed writes can each follow the other, and leave one state. -/
def WritesCommute (p q : Port) (v w : Byte) (t t' : State) : Prop :=
  ∃ z, portWrite q w t = .done () z ∧ portWrite p v t' = .done () z

theorem WritesCommute.symm {p q : Port} {v w : Byte} {t t' : State} (h : WritesCommute p q v w t t') : WritesCommute q p w v t' t := by
  obtain ⟨z, hq, hp⟩ := h
  exact ⟨z, hp, hq⟩

/-- A write at UART[u] and a write at another device commute. -/
theorem commute_of_uart {p q : Port} {v w : Byte} {s t t' : State} {u : UartId} {off : BitVec 3}
    (hp : claim p = .uart u off) (hq : ∀ o, claim q ≠ .uart u o) (ht : portWrite p v s = .done () t)
    (ht' : portWrite q w s = .done () t') : WritesCommute p q v w t t' := by
  obtain ⟨x, hx⟩ := portWrite_local hp ht
  cases ht.symm.trans (hx s rfl)
  exact ⟨t'.setUart u x, portWrite_setUart x hq ht', hx t' (portWrite_uart_other hq ht')⟩

/-- A write that no device claims commutes with every write. -/
theorem commute_of_unclaimed {p q : Port} {v w : Byte} {s t t' : State} (hp : claim p = .unclaimed)
    (ht : portWrite p v s = .done () t) (ht' : portWrite q w s = .done () t') : WritesCommute p q v w t t' := by
  cases ht.symm.trans (portWrite_unclaimed hp v s)
  exact ⟨t', ht', portWrite_unclaimed hp v t'⟩

theorem sameDevice_comm (p q : Port) : sameDevice p q = sameDevice q p := by
  unfold sameDevice
  cases claim p <;> cases claim q <;> simp [eq_comm]

/-- A port of another device than a port of UART[u] is not UART[u]'s. -/
theorem claim_ne_uart_of_sameDevice {p q : Port} {u : UartId} {off : BitVec 3} (hp : claim p = .uart u off)
    (h : sameDevice p q = false) (o : BitVec 3) : claim q ≠ .uart u o := by
  intro hq
  simp [sameDevice, hp, hq] at h

/-- Of two ports of different devices, one is a UART's or unclaimed. -/
theorem claim_of_sameDevice {p q : Port} (h : sameDevice p q = false) :
    (∃ u off, claim p = .uart u off) ∨ (∃ u off, claim q = .uart u off) ∨ claim p = .unclaimed ∨ claim q = .unclaimed := by
  unfold sameDevice at h
  cases hp : claim p <;> cases hq : claim q <;> simp_all

/-- Completed writes at different devices commute: one of the ports is a UART's, or unclaimed. -/
theorem commute_of_sameDevice {p q : Port} {v w : Byte} {s t t' : State} (h : sameDevice p q = false)
    (ht : portWrite p v s = .done () t) (ht' : portWrite q w s = .done () t') : WritesCommute p q v w t t' := by
  have h' : sameDevice q p = false := (sameDevice_comm q p).trans h
  rcases claim_of_sameDevice h with ⟨u, off, hp⟩ | ⟨u, off, hq⟩ | hp | hq
  · exact commute_of_uart hp (claim_ne_uart_of_sameDevice hp h) ht ht'
  · exact (commute_of_uart hq (claim_ne_uart_of_sameDevice hq h') ht' ht).symm
  · exact commute_of_unclaimed hp ht ht'
  · exact (commute_of_unclaimed hq ht' ht).symm

/-- Settles O17: both writes complete, so `commute_of_sameDevice` applies, and a completed write keeps the state safe. -/
theorem writesToDifferentDevicesCommute : Obligations.WritesToDifferentDevicesCommute := by
  intro p q v w s t t' hdev _ hp ht hq ht'
  obtain ⟨z, hqz, hpz⟩ :=
    commute_of_sameDevice hdev (portWrite_done_of_safe hp ht) (portWrite_done_of_safe hq ht')
  exact ⟨z, exec_portWrite_done hqz, exec_portWrite_done hpz, portWrite_done_safe hqz ht⟩

end Sys2Proof.Machine
end


section
namespace Sys2Proof.Machine

/-! ### Grid accesses (R130 to R132) -/

/-- A store word by its fields: the cell index above the bit that picks the cell's half (R94). -/
theorem storeWord_eq (k : Half) (half : BitVec 1) (v : Byte) : 1#1 ++ k ++ half ++ v = wordM true (k ++ half) v :=
  congrArg (· ++ v) BitVec.append_assoc

/-- No byte of a cell outside the grid lies in the window (R62, R98). -/
theorem charOffset_outside {k : Nat} (h : Config.cells ≤ k) : ¬ charOffset k < Config.windowBytes := by
  rw [cells_eq] at h
  rw [windowBytes_eq, charOffset, Config.cellBytes]
  omega

theorem attrOffset_outside {k : Nat} (h : Config.cells ≤ k) : ¬ attrOffset k < Config.windowBytes := by
  have hchar := charOffset_outside h
  rw [attrOffset]
  rw [charOffset] at hchar
  omega

/-- A byte is an attribute of its low nibble over its high one (R64). -/
theorem attrByte_nibbles (v : Byte) : attrByte (v.extractLsb' 0 4).toNat (v.extractLsb' 4 4).toNat = v := by
  rw [attrByte, BitVec.ofNat_toNat, BitVec.ofNat_toNat, BitVec.setWidth_eq, BitVec.setWidth_eq]
  exact (BitVec.extractLsb'_append_extractLsb'_eq_extractLsb' rfl).trans BitVec.extractLsb'_eq_self

/-- A store in the window changes the grid alone, and of the grid its own byte alone. -/
theorem gridStore_answers {off : Nat} (v : Byte) (s : State) (h : off < Config.windowBytes) :
    ∃ t, (gridStore off v s).settle keep = .next t ∧ t = { s with grid := t.grid } ∧
      Memory.read t.grid (gridAddr off) = some v ∧
      ∀ a, a ≠ gridAddr off → Memory.read t.grid a = Memory.read s.grid a := by
  rw [gridStore_in v s h]
  exact ⟨_, rfl, rfl, Memory.read_write_same _ _ v, fun _ ha => Memory.read_write_other _ v ha⟩

theorem gridStore_outside {off : Nat} (v : Byte) (s : State) (h : ¬ off < Config.windowBytes) :
    gridStore off v s = .stopped (.fault (.outsideGridWindow off)) :=
  if_neg h

theorem gridRead_unwritten {off : Nat} {s : State} (h : off < Config.windowBytes)
    (hb : Memory.read s.grid (gridAddr off) = none) : gridRead off s = .raise s (.unwrittenState (.gridByte off)) := by
  simp only [gridRead, if_pos h, hb]

theorem gridRead_outside {off : Nat} (s : State) (h : ¬ off < Config.windowBytes) :
    gridRead off s = .stopped (.fault (.outsideGridWindow off)) :=
  if_neg h

/-- Settles O20: a cell's two words are the canonical words of its two stores, and its two offsets lie in the window. -/
theorem gridStoresWriteOneByte : Obligations.GridStoresWriteOneByte := by
  intro k v s hk
  have hcell : cellInGrid k = true := decide_eq_true hk
  rw [storeWord_eq, storeWord_eq]
  exact ⟨⟨decode_of_encode (.gridCharStore k v) hcell _ rfl, gridStore_answers v s (charOffset_lt hk)⟩,
    decode_of_encode (.gridAttrStore k v) hcell _ rfl, attrByte_nibbles v, gridStore_answers v s (attrOffset_lt hk)⟩

/-- Settles O21: inside the window the load follows the byte's state; outside it no access is made. -/
theorem gridLoadReturnsTheStoredByte : Obligations.GridLoadReturnsTheStoredByte := by
  refine fun s => ⟨fun off hoff => ⟨fun b hb => ?written, fun hb => ?unwritten⟩, fun off hoff => ?outside,
    fun k v hk => ⟨?char, ?attr⟩⟩
  case written => rw [exec, execGridLoad, gridRead_written hoff hb, Txn.settle_done, returnByte]
  case unwritten => rw [exec, execGridLoad, gridRead_unwritten hoff hb, Txn.raise, Txn.settle_stopped, State.takeFault]
  case outside => rw [exec, execGridLoad, gridRead_outside s (Nat.not_lt.mpr hoff), Txn.settle_stopped]
  case char => exact congrArg (·.settle keep) (gridStore_outside v s (charOffset_outside hk))
  case attr => exact congrArg (·.settle keep) (gridStore_outside v s (attrOffset_outside hk))

end Sys2Proof.Machine
end

section
namespace Sys2Proof.Machine

/-! ### The cursor hardware (R133 to R137) -/

/-- A data-port write of the cursor hardware is the cursor's data write, seen at the port primitive. -/
theorem exec_portWrite_crtcData (v : Byte) (s : State) :
    exec (.portWrite Config.crtcDataPort v) s = (crtcDataWrite v s).settle keep :=
  congrArg (·.settle keep) (portWrite_crtcData v s)

/-- Either device word of the data port is the same data write: idx is not on the bus (R93, log 9). -/
theorem exec_crtcCursorHighWrite (v : Byte) (s : State) :
    exec (.crtcCursorHighWrite v) s = (crtcDataWrite v s).settle keep := rfl

theorem exec_crtcCursorLowWrite (v : Byte) (s : State) :
    exec (.crtcCursorLowWrite v) s = (crtcDataWrite v s).settle keep := rfl

/-- Under an index that is neither cursor command the data write is refused (R136). -/
theorem crtcDataWrite_refused {s : State} (v : Byte) (hh : s.crtcIndex ≠ some Config.cursorHighCmd)
    (hl : s.crtcIndex ≠ some Config.cursorLowCmd) : crtcDataWrite v s = .refuse s .crtcIndexNotModelled := by
  rw [crtcDataWrite, if_neg hh, if_neg hl]

theorem State.loadCursorLow_of_written {s : State} {h : Byte} (v : Byte) (hh : s.curHi = some h) :
    s.loadCursorLow v = { s with curLo := some v, hwCursor := some (h ++ v) } := by
  rw [State.loadCursorLow, hh]
  rfl

theorem State.loadCursorLow_of_unwritten {s : State} (v : Byte) (hh : s.curHi = none) :
    s.loadCursorLow v = { s with curLo := some v } := by
  rw [State.loadCursorLow, hh]

/-- A read of either cursor port is refused (R137). -/
theorem portRead_crtcCmd (s : State) : portRead Config.crtcCmdPort s = .refuse s .crtcRead := by
  rw [portRead, claim_crtcCmd]

theorem portRead_crtcData (s : State) : portRead Config.crtcDataPort s = .refuse s .crtcRead := by
  rw [portRead, claim_crtcData]

/-- Settles O22: the words decode by their fields, and each write loads its register. -/
theorem indexAndHighByteWritesLoadOneRegister : Obligations.IndexAndHighByteWritesLoadOneRegister := by
  refine fun v s => ⟨fun idx => ?_, ?_, rfl, exec_portWrite_done (portWrite_crtcCmd v s), fun hi => ?_⟩
  · rw [decode, decodeC_fields, if_pos ⟨rfl, rfl⟩]
  · rw [decode, decodeC_fields, if_neg (by decide), if_pos ⟨rfl, rfl, rfl⟩]
  · rw [exec_crtcCursorHighWrite, exec_portWrite_crtcData, crtcDataWrite_high v hi]
    exact ⟨rfl, rfl⟩

/-- Settles O23: the data write under CURSOR_LOW_CMD, by whether CUR_HI was written. -/
theorem cursorLowWriteCommitsThePosition : Obligations.CursorLowWriteCommitsThePosition := by
  intro v s hi
  rw [exec_crtcCursorLowWrite, exec_portWrite_crtcData, crtcDataWrite_low v hi, Txn.settle_done, keep]
  constructor
  · intro h hh
    rw [State.loadCursorLow_of_written v hh]
    exact ⟨rfl, rfl⟩
  · intro hh
    rw [State.loadCursorLow_of_unwritten v hh]
    exact ⟨rfl, rfl⟩

/-- Settles O24: the three forms of a data write are one and refused, and so are the two reads. -/
theorem cursorPortsRefuseEverythingElse : Obligations.CursorPortsRefuseEverythingElse := by
  refine fun s => ⟨fun v hh hl => ?_, congrArg (·.settle returnByte) (portRead_crtcCmd s),
    congrArg (·.settle returnByte) (portRead_crtcData s)⟩
  have hr : (crtcDataWrite v s).settle keep = .next { s with refused := some .crtcIndexNotModelled } :=
    congrArg (·.settle keep) (crtcDataWrite_refused v hh hl)
  exact ⟨(exec_portWrite_crtcData v s).trans hr, hr, hr⟩

end Sys2Proof.Machine
end

section
namespace Sys2Proof.Machine

/-! ### Runs with what they issue -/

/-- `n` steps lead from `s` to `t` and issue the transactions `is`, oldest first. -/
structure Runs (n : Nat) (s t : State) (is : List Instr) : Prop where
  steps : Machine.steps n s = .next t
  issued : Machine.issued n s = is

theorem Runs.zero (s : State) : Runs 0 s s [] := ⟨rfl, rfl⟩

theorem Runs.trans {m n : Nat} {s t u : State} {is js : List Instr} (h : Runs m s t is) (h' : Runs n t u js) :
    Runs (m + n) s u (is ++ js) :=
  ⟨(steps_add n h.steps).trans h'.steps, by rw [issued_add n h.steps, h.issued, h'.issued]⟩

/-- One step of a running command. -/
theorem Runs.one {s t : State} {f : Frame} {rest : List Frame} {o : Option Instr} (hd : s.DriverReady) (hq : s.seq = f :: rest)
    (h : sequencerStep s = .next t) (ho : s.issues = o) : Runs 1 s t o.toList :=
  ⟨steps_running 0 hd.1 hd.2 hq h, (issued_running 0 hd.1 hd.2 hq h ho).trans (List.append_nil _)⟩

/-- Runs of `k` steps, one after another. -/
theorem Runs.iterate {k n : Nat} {S : Nat → State} {is : Nat → List Instr} (h : ∀ j < n, Runs k (S j) (S (j + 1)) (is j)) :
    Runs (k * n) (S 0) (S n) ((List.range n).flatMap is) := by
  induction n with
  | zero => exact Runs.zero (S 0)
  | succ n ih =>
    have hlast := (ih fun j hj => h j (Nat.lt_succ_of_lt hj)).trans (h n (Nat.lt_succ_self n))
    rw [List.range_succ, List.flatMap_append, List.flatMap_singleton]
    exact hlast

/-- States with the same next step reach the same states. -/
theorem steps_of_step_eq {s s' : State} (n : Nat) (hs : step s = step s') : steps (n + 1) s = steps (n + 1) s' := by
  rw [steps, steps, hs]

/-- States with the same next step, and the same transaction in it, have the same runs. -/
theorem Runs.of_step_eq {n : Nat} {s s' t : State} {is : List Instr} (hs : step s = step s')
    (hi : s.stepIssues = s'.stepIssues) (h : Runs (n + 1) s' t is) : Runs (n + 1) s t is :=
  ⟨(steps_of_step_eq n hs).trans h.steps, by rw [← h.issued, Machine.issued, Machine.issued, hs, hi]⟩

/-- Moving on overwrites SEQ. -/
theorem moveOn_seq (t : State) (q : List Frame) (f : Frame) (rest : List Frame) (b : Option Byte) :
    State.moveOn { t with seq := q } f rest b = t.moveOn f rest b := by
  unfold State.moveOn
  cases f.after b with
  | cont g => rfl
  | ret v => exact returnFrom_seq t q v rest

/-- A call takes no step of its own (log 25): the step is the one with the callee already entered, when the callee's first action
completes and does not read SEQ. -/
theorem step_call {s t : State} {f g c : Frame} {rest : List Frame} {b : Option Byte} (hd : s.DriverReady)
    (hq : s.seq = f :: rest) (hf : f.callee s.cursor = some (g, c)) (hc : c.callee s.cursor = none)
    (hrun : ∀ q, (c.micro s.cursor).run { s with seq := q } = .done b { t with seq := q }) :
    step s = step { s with seq := c :: g :: rest } := by
  have hcaller : step s = .next (t.moveOn c (g :: rest) b) := by
    have hrun' : (c.micro s.cursor).run s = .done b { t with seq := s.seq } := hrun s.seq
    rw [step_running hd.1 hd.2 hq, sequencerStep_call hq hf hc, hrun']
    exact congrArg _ (moveOn_seq ..)
  have hcallee : step { s with seq := c :: g :: rest } = .next (t.moveOn c (g :: rest) b) := by
    rw [step_running (by exact hd.1) (by exact hd.2) rfl,
      sequencerStep_here (s := { s with seq := c :: g :: rest }) rfl hc, hrun]
    exact congrArg _ (moveOn_seq ..)
  rw [hcaller, hcallee]

/-- A call issues what its callee issues first. -/
theorem stepIssues_call {s : State} {f g c : Frame} {rest : List Frame} (hd : s.DriverReady) (hq : s.seq = f :: rest)
    (hf : f.callee s.cursor = some (g, c)) (hc : c.callee s.cursor = none) :
    s.stepIssues = State.stepIssues { s with seq := c :: g :: rest } := by
  rw [stepIssues_driver hd.2, stepIssues_driver (by exact hd.2), issues_call hq hf hc,
    issues_here (s := { s with seq := c :: g :: rest }) rfl hc]

/-! ### Cells in memory -/

/-- Memory with the two bytes of cell `k` stored (R145). -/
def Memory.writeCell (m : Memory) (k : Nat) (char attr : Byte) : Memory :=
  Memory.write (Memory.write m (gridAddr (charOffset k)) char) (gridAddr (attrOffset k)) attr

theorem Memory.read_writeCell_char (m : Memory) (k : Nat) (char attr : Byte) :
    Memory.read (m.writeCell k char attr) (gridAddr (charOffset k)) = some char := by
  rw [Memory.writeCell, Memory.read_write_other _ _ (charAddr_ne_attrAddr k k), Memory.read_write_same]

theorem Memory.read_writeCell_attr (m : Memory) (k : Nat) (char attr : Byte) :
    Memory.read (m.writeCell k char attr) (gridAddr (attrOffset k)) = some attr :=
  Memory.read_write_same ..

theorem Memory.read_writeCell_other {m : Memory} {k a : Nat} (char attr : Byte) (hc : a ≠ gridAddr (charOffset k))
    (ha : a ≠ gridAddr (attrOffset k)) : Memory.read (m.writeCell k char attr) a = Memory.read m a := by
  rw [Memory.writeCell, Memory.read_write_other _ _ ha, Memory.read_write_other _ _ hc]

/-- Memory with the cells `first`, …, `first + n - 1` stored in order, cell `first + j` with the character `chars j` and every cell
with the attribute `attr`. (By well-founded recursion, so that a run of 2000 cells is never unfolded.) -/
def Memory.writeCells (m : Memory) (first : Nat) (chars : Nat → Byte) (attr : Byte) : Nat → Memory
  | 0 => m
  | n + 1 => (m.writeCells first chars attr n).writeCell (first + n) (chars n) attr
termination_by n => n

@[simp] theorem Memory.writeCells_zero (m : Memory) (first : Nat) (chars : Nat → Byte) (attr : Byte) :
    m.writeCells first chars attr 0 = m := by rw [Memory.writeCells]

theorem Memory.writeCells_succ (m : Memory) (first : Nat) (chars : Nat → Byte) (attr : Byte) (n : Nat) :
    m.writeCells first chars attr (n + 1) = (m.writeCells first chars attr n).writeCell (first + n) (chars n) attr := by
  rw [Memory.writeCells]

theorem Memory.read_writeCells_other {m : Memory} {first a : Nat} {chars : Nat → Byte} {attr : Byte} {n : Nat}
    (h : ∀ j < n, a ≠ gridAddr (charOffset (first + j)) ∧ a ≠ gridAddr (attrOffset (first + j))) :
    Memory.read (m.writeCells first chars attr n) a = Memory.read m a := by
  induction n with
  | zero => rw [Memory.writeCells_zero]
  | succ n ih =>
    obtain ⟨hc, ha⟩ := h n (Nat.lt_succ_self n)
    rw [Memory.writeCells_succ, Memory.read_writeCell_other _ _ hc ha, ih fun j hj => h j (Nat.lt_succ_of_lt hj)]

/-- Each stored cell reads back: no later cell has one of its addresses. -/
theorem Memory.read_writeCells {m : Memory} {first : Nat} {chars : Nat → Byte} {attr : Byte} {n j : Nat} (hj : j < n) :
    Memory.read (m.writeCells first chars attr n) (gridAddr (charOffset (first + j))) = some (chars j) ∧
    Memory.read (m.writeCells first chars attr n) (gridAddr (attrOffset (first + j))) = some attr := by
  induction n with
  | zero => cases hj
  | succ n ih =>
    rw [Memory.writeCells_succ]
    obtain rfl | hne := eq_or_ne j n
    · exact ⟨Memory.read_writeCell_char .., Memory.read_writeCell_attr ..⟩
    · have hcell : first + j ≠ first + n := by omega
      rw [Memory.read_writeCell_other _ _ (fun h => hcell (charAddr_inj h)) (charAddr_ne_attrAddr _ _),
        Memory.read_writeCell_other _ _ (charAddr_ne_attrAddr _ _).symm (fun h => hcell (attrAddr_inj h))]
      exact ih (by omega)

/-- An address outside the window is none of a cell's (R62). -/
theorem outside_ne_cell {a k : Nat} (ha : a < gridAddr 0 ∨ gridAddr 4000 ≤ a) (hk : k < 2000) :
    a ≠ gridAddr (charOffset k) ∧ a ≠ gridAddr (attrOffset k) := by
  simp only [gridAddr, charOffset, attrOffset, Config.cellBytes] at *
  omega

/-! ### `fb.write_cell` and `fb.move_cursor`, issued or called -/

section
variable {s : State} {rest : List Frame}

/-- The two steps of `fb.write_cell` (R145). -/
theorem runs_writeCell {k : Half} {char : Byte} {fg bg : Nat} (hd : s.DriverReady)
    (hq : s.seq = .writeCell k char fg bg .char :: rest) (hk : k.toNat < Config.cells) :
    Runs 2 s (State.returnFrom { s with grid := s.grid.writeCell k.toNat char (attrByte fg bg) } none rest)
      (cellStores k char (attrByte fg bg)) := by
  have hchar := Runs.one hd hq (seq_writeCell_char hq hk) (issues_writeCell_char hq hk)
  have hattr := Runs.one (s := { s with
      grid := Memory.write s.grid (gridAddr (charOffset k.toNat)) char
      seq := .writeCell k char fg bg .attr :: rest }) hd rfl (seq_writeCell_attr rfl hk) (issues_writeCell_attr rfl)
  rw [← returnFrom_seq _ (.writeCell k char fg bg .attr :: rest)]
  exact hchar.trans hattr

/-- A call of `fb.write_cell`: two steps, and the caller goes on (R147, R150, R151). -/
theorem runs_callWriteCell {f g : Frame} {k : Half} {char : Byte} {fg bg : Nat} (hd : s.DriverReady) (hq : s.seq = f :: rest)
    (hf : f.callee s.cursor = some (g, .writeCell k char fg bg .char)) (hk : k.toNat < Config.cells)
    (hg : (g.resume none).finished = false) :
    Runs 2 s { s with grid := s.grid.writeCell k.toNat char (attrByte fg bg), seq := g.resume none :: rest }
      (cellStores k char (attrByte fg bg)) := by
  have hstore : ∀ q, ((Frame.writeCell k char fg bg .char).micro s.cursor).run { s with seq := q } =
      .done none { s with grid := Memory.write s.grid (gridAddr (charOffset k.toNat)) char, seq := q } := by
    intro q
    simp only [Frame.micro, if_neg (Nat.not_le.mpr hk), Micro.run, gridStore_in _ _ (charOffset_lt hk)]
  refine Runs.of_step_eq (step_call (t := { s with grid := Memory.write s.grid (gridAddr (charOffset k.toNat)) char })
    hd hq hf rfl hstore) (stepIssues_call hd hq hf rfl) ?_
  have hrun := runs_writeCell (s := { s with seq := .writeCell k char fg bg .char :: g :: rest }) hd rfl hk
  rw [returnFrom_cons hg] at hrun
  exact hrun

/-- The five steps of `fb.move_cursor` (R146). -/
theorem runs_moveCursor {pos : Half} (hd : s.DriverReady) (hq : s.seq = .moveCursor pos .highCmd :: rest)
    (hp : pos.toNat ≤ Config.cells) : Runs 5 s ((s.cursorMoved pos).returnFrom none rest) (cursorWrites pos) :=
  ⟨steps_moveCursor hd.1 hd.2 hq hp, issued_moveCursor hd.1 hd.2 hq hp⟩

/-- A call of `fb.move_cursor` that ends its outermost caller: five steps to an idle block (R147, R151). -/
theorem runs_callMoveCursor {f g : Frame} {pos : Half} (hd : s.DriverReady) (hq : s.seq = [f])
    (hf : f.callee s.cursor = some (g, .moveCursor pos .highCmd)) (hp : pos.toNat ≤ Config.cells)
    (hg : (g.resume none).finished = true) :
    Runs 5 s { s.cursorMoved pos with seq := [], result := none } (cursorWrites pos) := by
  have hwrite : ∀ q, ((Frame.moveCursor pos .highCmd).micro s.cursor).run { s with seq := q } =
      .done none { s with crtcIndex := some Config.cursorHighCmd, seq := q } := by
    intro q
    simp only [Frame.micro, if_neg (Nat.not_lt.mpr hp), Micro.run, portWrite_crtcCmd, crtcCmdWrite]
  refine Runs.of_step_eq (step_call (t := { s with crtcIndex := some Config.cursorHighCmd }) hd hq hf rfl hwrite)
    (stepIssues_call hd hq hf rfl) ?_
  have hrun := runs_moveCursor (s := { s with seq := .moveCursor pos .highCmd :: [g] }) hd rfl hp
  rw [returnFrom_finished hg] at hrun
  exact hrun

end

/-- A ready block accepts a command: it starts at its first position, and the driver side steps (R35). -/
theorem State.Ready.start {s : State} (h : s.Ready) (f : Frame) :
    s.issue f = .next { s with seq := [f], result := none } ∧ State.DriverReady { s with seq := [f], result := none } := by
  obtain ⟨hq, hf, hr, hs⟩ := h
  exact ⟨issue_ready f hq hf, hr, hs⟩

/-- Settles O36: in range the two steps of `runs_writeCell`, out of range the fault of the first. -/
theorem writeCellStoresOneCellOrFaults : Obligations.WriteCellStoresOneCellOrFaults := by
  intro index char fg bg s hready
  obtain ⟨hstart, hd⟩ := hready.start (.writeCell index char fg bg .char)
  obtain ⟨hq, hf, _, _⟩ := hready
  refine ⟨fun hi => ?inRange, fun hi => ?outOfRange⟩
  case inRange =>
    have hrun := runs_writeCell hd rfl hi
    rw [attrByte_eq] at hrun
    refine ⟨_, _, hstart, hrun.steps, ?_, ?_, ?_, hrun.issued⟩
    · rw [returnFrom_nil, ← hq]
      rfl
    · exact Prod.ext (Memory.read_writeCell_char ..) (Memory.read_writeCell_attr ..)
    · exact fun a hc ha => Memory.read_writeCell_other _ _ hc ha
  case outOfRange =>
    have hrun := Runs.one hd rfl (seq_writeCell_outOfRange rfl hi) (issues_writeCell_outOfRange rfl hi)
    refine ⟨_, hstart, hrun.steps.trans ?_, hrun.issued⟩
    simp only [State.takeFault, hf, List.nil_append, ← hq]

/-- Settles O37: in range the five steps of `runs_moveCursor`, out of range the fault of the first. -/
theorem moveCursorSendsHighByteFirstOrFaults : Obligations.MoveCursorSendsHighByteFirstOrFaults := by
  intro pos s hready
  obtain ⟨hstart, hd⟩ := hready.start (.moveCursor pos .highCmd)
  obtain ⟨hq, hf, _, _⟩ := hready
  refine ⟨fun hp => ?inRange, fun hp => ?outOfRange⟩
  case inRange =>
    have hrun := runs_moveCursor hd rfl hp
    refine ⟨_, hstart, hrun.steps.trans ?_, hrun.issued⟩
    rw [returnFrom_nil, State.cursorMoved, ← hq]
    rfl
  case outOfRange =>
    have hrun := Runs.one hd rfl (seq_moveCursor_outOfRange rfl hp) (issues_moveCursor_outOfRange rfl hp)
    refine ⟨_, hstart, hrun.steps.trans ?_, hrun.issued⟩
    simp only [State.takeFault, hf, List.nil_append, ← hq]

end Sys2Proof.Machine
end

section
namespace Sys2Proof.Machine

/-! ### The characters of `fb.write` (R147 to R149) -/

/-- A byte of the text as the sequencer reads it. -/
theorem getD_of_getElem? {text : List Byte} {i : Nat} {b : Byte} (h : text[i]? = some b) :
    i < text.length ∧ text.getD i 0 = b := by
  obtain ⟨hi, rfl⟩ := List.getElem?_eq_some_iff.mp h
  exact ⟨hi, List.getD_eq_getElem _ _ hi⟩

/-- The common advance after a newline step ends at the start of the next row (R148, D23). -/
theorem cursorAdvance_cursorNewline (c : Half) :
    cursorAdvance (cursorNewline c) = BitVec.ofNat 16 ((c.toNat / 80 + 1) * 80) := by
  apply BitVec.eq_of_toNat_eq
  simp only [cursorAdvance, cursorNewline, Config.width, BitVec.toNat_ofNat]
  omega

/-- Settles O38: the newline step and then the common advance, neither with a transaction. -/
theorem newlineStepWritesNoCell : Obligations.NewlineStepWritesNoCell := by
  intro text i loc c rest s hd hl hq hb hc hlt
  obtain ⟨hi, hn⟩ := getD_of_getElem? hb
  obtain ⟨hstep, hissue⟩ := seq_fbWrite_newlineAt hl hq hc hi hlt hn
  have hnewline := Runs.one hd hq hstep hissue
  have hadvance := Runs.one (s := { s with cursor := some (cursorNewline c), seq := .fbWrite text (.advance i) :: rest }) hd rfl
    (seq_fbWrite_advance rfl rfl) (issues_fbWrite_advance rfl rfl)
  rw [cursorAdvance_cursorNewline] at hadvance
  exact ⟨hnewline.steps, (hnewline.trans hadvance).steps, (hnewline.trans hadvance).issued⟩

section
variable {s : State} {rest : List Frame}

/-- A character is a call of `fb.write_cell` at CURSOR, at the loop head with no scroll due and after a scroll (R149, R150). -/
theorem callee_charAt {text : List Byte} {i : Nat} {loc : WriteAt} {c : Half} (hl : loc = .head i ∨ loc = .body i)
    (hi : i < text.length) (hlt : c.toNat < Config.cells) (hn : text.getD i 0 ≠ Config.newline) :
    (Frame.fbWrite text loc).callee (some c) =
      some (.fbWrite text (.advance i), .writeCell c (text.getD i 0) Config.white Config.black .char) := by
  rcases hl with rfl | rfl
  · simp only [Frame.callee, if_pos hi, if_neg (Nat.not_le.mpr hlt), writeBody, if_neg hn]
  · simp only [Frame.callee, writeBody, if_neg hn]

/-- The three steps of a character: the two stores of its cell and the advance of CURSOR (R149). -/
theorem runs_fbWrite_char {text : List Byte} {i : Nat} {loc : WriteAt} {c : Half} (hd : s.DriverReady)
    (hl : loc = .head i ∨ loc = .body i) (hq : s.seq = .fbWrite text loc :: rest) (hc : s.cursor = some c)
    (hi : i < text.length) (hlt : c.toNat < Config.cells) (hn : text.getD i 0 ≠ Config.newline) :
    Runs 3 s { s with
      grid := s.grid.writeCell c.toNat (text.getD i 0) Config.attrDefault
      cursor := some (cursorAdvance c)
      seq := .fbWrite text (.head (i + 1)) :: rest } (cellStores c (text.getD i 0) Config.attrDefault) := by
  have hcell := runs_callWriteCell hd hq (by rw [hc]; exact callee_charAt hl hi hlt hn) hlt rfl
  rw [attrByte_default] at hcell
  have hadvance := Runs.one (s := { s with
      grid := s.grid.writeCell c.toNat (text.getD i 0) Config.attrDefault
      seq := .fbWrite text (.advance i) :: rest }) hd rfl
    (seq_fbWrite_advance rfl hc) (issues_fbWrite_advance rfl hc)
  exact hcell.trans hadvance

end

/-- Settles O39: the three steps of `runs_fbWrite_char`. -/
theorem characterStepWritesTheCellAtTheCursor : Obligations.CharacterStepWritesTheCellAtTheCursor := by
  intro text i loc b c rest s hd hl hq hb hn hc hlt
  obtain ⟨hi, rfl⟩ := getD_of_getElem? hb
  have hrun := runs_fbWrite_char hd hl hq hc hi hlt hn
  exact ⟨_, hrun.steps, rfl, Prod.ext (Memory.read_writeCell_char ..) (Memory.read_writeCell_attr ..),
    fun a hchar hattr => Memory.read_writeCell_other _ _ hchar hattr, hrun.issued⟩

/-- Settles O41: the loop head reads CURSOR before it looks at the text (D38). -/
theorem fbWriteWithoutCursorFaults : Obligations.FbWriteWithoutCursorFaults := by
  intro text s hready hc
  obtain ⟨hstart, hd⟩ := hready.start (.fbWrite text (.head 0))
  obtain ⟨hq, hf, _, _⟩ := hready
  have hrun := Runs.one hd rfl (seq_fbWrite_cursorUnwritten rfl hc) (issues_fbWrite_cursorUnwritten rfl hc)
  refine ⟨_, hstart, hrun.steps.trans ?_, hrun.issued⟩
  simp only [State.takeFault, hf, List.nil_append, ← hq]

/-! ### A text without newline (R153) -/

/-- The state at the loop head once the first `j` bytes of a text without newline stand from cell `p` on. -/
def State.written (s : State) (text : List Byte) (p j : Nat) : State :=
  { s with
    grid := s.grid.writeCells p (text.getD · 0) Config.attrDefault j
    cursor := some (BitVec.ofNat 16 (p + j))
    seq := [.fbWrite text (.head j)] }

/-- The bytes of a text without newline that fits are written one after another. -/
theorem runs_written {s : State} {text : List Byte} {p : Nat} (hd : s.DriverReady) (hn : ∀ b ∈ text, b ≠ Config.newline)
    (hfit : p + text.length ≤ 2000) :
    Runs (3 * text.length) (s.written text p 0) (s.written text p text.length)
      ((List.range text.length).flatMap fun j => cellStores (BitVec.ofNat 16 (p + j)) (text.getD j 0) Config.attrDefault) := by
  refine Runs.iterate (S := s.written text p) fun j hj => ?_
  have hcell : (BitVec.ofNat 16 (p + j)).toNat = p + j := by rw [BitVec.toNat_ofNat]; omega
  have hbyte : text.getD j 0 ≠ Config.newline := by
    rw [List.getD_eq_getElem _ _ hj]
    exact hn _ (List.getElem_mem hj)
  have hrun := runs_fbWrite_char (s := s.written text p j) hd (.inl rfl) rfl rfl hj
    (by rw [hcell, cells_eq]; omega) hbyte
  rw [cursorAdvance, hcell] at hrun
  simp only [State.written, Memory.writeCells_succ]
  exact hrun

/-- At the end of the text the call of `fb.move_cursor` ends the command (R147). -/
theorem callee_textEnd {text : List Byte} {i : Nat} {c : Half} (hi : text.length ≤ i) :
    (Frame.fbWrite text (.head i)).callee (some c) = some (.fbWrite text .final, .moveCursor c .highCmd) := by
  simp only [Frame.callee, if_neg (Nat.not_lt.mpr hi)]

/-- Settles O40: the characters by `runs_written`, then the call of `fb.move_cursor`. -/
theorem fbWriteReadsBack : Obligations.FbWriteReadsBack := by
  intro text p s hready hp hn hfit
  obtain ⟨hstart, hd⟩ := hready.start (.fbWrite text (.head 0))
  have hfirst : { s with seq := [.fbWrite text (.head 0)], result := none } =
      State.written { s with result := none } text p.toNat 0 := by
    rw [State.written, Memory.writeCells_zero, Nat.add_zero, BitVec.ofNat_toNat, BitVec.setWidth_eq, ← hp]
  rw [hfirst] at hstart
  have hend : (BitVec.ofNat 16 (p.toNat + text.length)).toNat ≤ Config.cells := by
    rw [BitVec.toNat_ofNat, cells_eq]
    omega
  have hrun := (runs_written (s := { s with result := none }) hd hn hfit).trans
    (runs_callMoveCursor hd rfl (callee_textEnd le_rfl) hend rfl)
  refine ⟨_, _, hstart, hrun.steps, ?_, fun j hj => ?_, fun a ha => Memory.read_writeCells_other ha, hrun.issued⟩
  · obtain ⟨hq, _⟩ := hready
    rw [← hq]
    rfl
  · obtain ⟨hchar, hattr⟩ := Memory.read_writeCells (m := s.grid) (first := p.toNat) (chars := (text.getD · 0))
      (attr := Config.attrDefault) hj
    refine Prod.ext (hchar.trans ?_) hattr
    rw [List.getD_eq_getElem _ _ hj, List.getElem?_eq_getElem hj]

end Sys2Proof.Machine
end

section
namespace Sys2Proof.Machine

/-! ### Blanking cells (R150, R151) -/

/-- A command's position `loop k` calls `fb.write_cell` for the blank cell `k` and goes on at `loop (k + 1)`, up to the last cell. -/
structure BlankLoop (loop : Nat → Frame) : Prop where
  call : ∀ k < Config.cells, ∀ c, (loop k).callee c =
    some (loop (k + 1), .writeCell (BitVec.ofNat 16 k) Config.blankChar Config.white Config.black .char)
  resume : ∀ k, (loop k).resume none = loop k
  goesOn : ∀ k, (loop k).finished = false

theorem blankLoop_scroll : BlankLoop fun k => .scroll (.blank k) where
  call _ hk _ := if_pos hk
  resume _ := rfl
  goesOn _ := rfl

theorem blankLoop_clear : BlankLoop fun k => .clear (.blank k) where
  call _ hk _ := if_pos hk
  resume _ := rfl
  goesOn _ := rfl

/-- The state of a blanking loop that has blanked `j` cells from `first` on. -/
def State.blanked (s : State) (loop : Nat → Frame) (rest : List Frame) (first j : Nat) : State :=
  { s with
    grid := s.grid.writeCells first (fun _ => Config.blankChar) Config.attrDefault j
    seq := loop (first + j) :: rest }

theorem State.blanked_zero (s : State) (loop : Nat → Frame) (rest : List Frame) (first : Nat) :
    s.blanked loop rest first 0 = { s with seq := loop first :: rest } := by
  rw [State.blanked, Memory.writeCells_zero, Nat.add_zero]

/-- Whose step it is does not depend on the grid or on SEQ. -/
theorem State.DriverReady.grid {s : State} (hd : s.DriverReady) (m : Memory) : State.DriverReady { s with grid := m } := hd

theorem State.DriverReady.blanked {s : State} (hd : s.DriverReady) (loop : Nat → Frame) (rest : List Frame) (first j : Nat) :
    (s.blanked loop rest first j).DriverReady := hd

/-- A blanking loop takes two steps and two stores per cell, in increasing order. -/
theorem runs_blanked {s : State} {loop : Nat → Frame} {rest : List Frame} {first n : Nat} (hl : BlankLoop loop)
    (hd : s.DriverReady) (hn : first + n ≤ 2000) :
    Runs (2 * n) (s.blanked loop rest first 0) (s.blanked loop rest first n)
      ((List.range n).flatMap fun j => cellStores (BitVec.ofNat 16 (first + j)) Config.blankChar Config.attrDefault) := by
  refine Runs.iterate (S := s.blanked loop rest first) fun j hj => ?_
  have hcell : (BitVec.ofNat 16 (first + j)).toNat = first + j := by rw [BitVec.toNat_ofNat]; omega
  have hlt : first + j < Config.cells := by rw [cells_eq]; omega
  have hrun := runs_callWriteCell (s := s.blanked loop rest first j) hd rfl (hl.call _ hlt _) (hcell.trans_lt hlt)
    (by rw [hl.resume]; exact hl.goesOn _)
  rw [hcell, hl.resume, attrByte_default] at hrun
  simp only [State.blanked, Memory.writeCells_succ]
  exact hrun

/-- A byte of the window is the character or the attribute of its cell (R64). -/
theorem gridAddr_of_cell (off : Nat) :
    gridAddr off = if off % 2 = 0 then gridAddr (charOffset (off / 2)) else gridAddr (attrOffset (off / 2)) := by
  simp only [gridAddr, charOffset, attrOffset, Config.cellBytes]
  split <;> omega

/-- A byte of a blanked cell. -/
theorem read_blanked {m : Memory} {n off : Nat} (h : off / 2 < n) :
    Memory.read (m.writeCells 0 (fun _ => Config.blankChar) Config.attrDefault n) (gridAddr off) =
      some (if off % 2 = 0 then 0x00 else 0x0F) := by
  obtain ⟨hchar, hattr⟩ := Memory.read_writeCells (m := m) (first := 0) (chars := fun _ => Config.blankChar)
    (attr := Config.attrDefault) h
  rw [Nat.zero_add] at hchar hattr
  rw [gridAddr_of_cell]
  split
  · exact hchar
  · exact hattr

/-- The call that ends `fb.clear`: CURSOR is home and `fb.move_cursor(0)` follows (R151). -/
theorem runs_clearEnd {s : State} {k : Nat} (hd : s.DriverReady) (hq : s.seq = [.clear (.blank k)]) (hk : Config.cells ≤ k) :
    Runs 6 s { s.cursorMoved 0 with seq := [], result := none } (cursorWrites 0) :=
  (Runs.one hd hq (seq_clear_home hq hk) (issues_clear_home hq hk)).trans
    (runs_callMoveCursor (s := { s with cursor := some 0, seq := [.clear .move] }) hd rfl rfl (Nat.zero_le _) rfl)

/-- The whole of `fb.clear`: the 2000 turns of the blanking loop and then `runs_clearEnd`. -/
theorem runs_clear {s : State} (hd : s.DriverReady) (hq : s.seq = [.clear (.blank 0)]) :
    Runs 4006 s
      { s.cursorMoved 0 with
        grid := s.grid.writeCells 0 (fun _ => Config.blankChar) Config.attrDefault 2000
        seq := []
        result := none }
      (((List.range 2000).flatMap fun k => cellStores (BitVec.ofNat 16 k) Config.blankChar Config.attrDefault) ++
        cursorWrites 0) := by
  have hloop := runs_blanked (rest := []) (first := 0) (n := 2000) blankLoop_clear hd (by omega)
  have hrun := hloop.trans (runs_clearEnd (hd.blanked ..) rfl cells_eq.le)
  rw [State.blanked_zero, ← hq] at hrun
  simp only [Nat.zero_add, State.blanked, State.cursorMoved] at hrun ⊢
  exact hrun

/-- Settles O43: the run of `runs_clear`; every byte of the window is one of the blanked cells'. -/
theorem clearBlanksTheGrid : Obligations.ClearBlanksTheGrid := by
  refine ⟨fun _ => rfl, fun s hready => ?_⟩
  obtain ⟨hstart, hd⟩ := hready.start (.clear (.blank 0))
  have hrun := runs_clear hd rfl
  refine ⟨_, _, hstart, hrun.steps, ?_, fun k hk => ?_, fun off hoff => ?_, fun a ha => ?_, hrun.issued⟩
  · obtain ⟨hq, _⟩ := hready
    rw [← hq]
    rfl
  · obtain ⟨hchar, hattr⟩ := Memory.read_writeCells (m := s.grid) (first := 0) (chars := fun _ => Config.blankChar)
      (attr := Config.attrDefault) hk
    rw [Nat.zero_add] at hchar hattr
    exact Prod.ext hchar hattr
  · rw [exec, execGridLoad, gridRead_written hoff (read_blanked (by omega)), Txn.settle_done, returnByte]
  · exact Memory.read_writeCells_other fun j hj => by rw [Nat.zero_add]; exact outside_ne_cell ha hj

/-! ### The scroll (R150) -/

/-- Memory with the bytes of the window copied from one row below, one row being 160 bytes, up to the offset `n` (R150). (By
well-founded recursion, so that 3840 copies are never unfolded.) -/
def Memory.copyUp (m : Memory) : Nat → Memory
  | 0 => m
  | n + 1 => Memory.write (m.copyUp n) (gridAddr n) ((Memory.read m (gridAddr (n + 160))).getD 0)
termination_by n => n

@[simp] theorem Memory.copyUp_zero (m : Memory) : m.copyUp 0 = m := by rw [Memory.copyUp]

theorem Memory.copyUp_succ (m : Memory) (n : Nat) :
    m.copyUp (n + 1) = Memory.write (m.copyUp n) (gridAddr n) ((Memory.read m (gridAddr (n + 160))).getD 0) := by
  rw [Memory.copyUp]

/-- A byte at or beyond the copied ones is as it was, so the copy always reads the old row below. -/
theorem Memory.read_copyUp_other {m : Memory} {n a : Nat} (h : ∀ off < n, a ≠ gridAddr off) :
    Memory.read (m.copyUp n) a = Memory.read m a := by
  induction n with
  | zero => rw [Memory.copyUp_zero]
  | succ n ih =>
    rw [Memory.copyUp_succ, Memory.read_write_other _ _ (h n (Nat.lt_succ_self n)), ih fun off ho => h off (Nat.lt_succ_of_lt ho)]

theorem gridAddr_ne {off off' : Nat} (h : off ≠ off') : gridAddr off ≠ gridAddr off' :=
  fun he => h (Nat.add_left_cancel he)

theorem Memory.read_copyUp {m : Memory} {n off : Nat} (h : off < n) :
    Memory.read (m.copyUp n) (gridAddr off) = some ((Memory.read m (gridAddr (off + 160))).getD 0) := by
  induction n with
  | zero => cases h
  | succ n ih =>
    rw [Memory.copyUp_succ]
    obtain rfl | hne := eq_or_ne off n
    · exact Memory.read_write_same ..
    · rw [Memory.read_write_other _ _ (gridAddr_ne hne), ih (by omega)]

/-- The scroll's position once the bytes below `off` are copied. -/
def scrollAt (off : Nat) : ScrollAt :=
  if off < Config.scrollBytes then .load off else .blank (Config.width * (Config.height - 1))

/-- The state of a scroll that has copied the bytes below `off`. -/
def State.copied (s : State) (rest : List Frame) (off : Nat) : State :=
  { s with grid := s.grid.copyUp off, seq := .scroll (scrollAt off) :: rest }

section
variable {s : State} {rest : List Frame}

/-- One turn of the copy loop: the load of a byte of the row below and its store. -/
theorem steps_copied_succ {off : Nat} (hd : s.DriverReady) (ho : off < 3840) (hw : (s.gridByte (off + 160)).isSome = true) :
    steps 2 (s.copied rest off) = .next (s.copied rest (off + 1)) := by
  obtain ⟨b, hb⟩ := Option.isSome_iff_exists.mp hw
  have hat : (s.copied rest off).seq = .scroll (.load off) :: rest := congrArg (Frame.scroll · :: rest) (if_pos ho)
  have hread : Memory.read (s.copied rest off).grid (gridAddr (off + Config.cellBytes * Config.width)) = some b :=
    (Memory.read_copyUp_other fun off' ho' => gridAddr_ne (by rw [Config.cellBytes, Config.width]; omega)).trans hb
  have hbyte : (Memory.read s.grid (gridAddr (off + 160))).getD 0 = b := by rw [← State.gridByte, hb, Option.getD_some]
  rw [steps_running 1 (by exact hd.1) (by exact hd.2) hat (seq_scroll_load hat ho hread),
    steps_running 0 (by exact hd.1) (by exact hd.2) rfl (seq_scroll_store rfl ho), steps_zero,
    State.copied, State.copied, Memory.copyUp_succ, hbyte]
  rfl

/-- The copy loop moves the bytes of every row up by one row. -/
theorem steps_copied (hd : s.DriverReady) (hw : ∀ off, 160 ≤ off → off < 4000 → (s.gridByte off).isSome = true) :
    steps (2 * 3840) (s.copied rest 0) = .next (s.copied rest 3840) :=
  (Runs.iterate (S := s.copied rest) fun off ho =>
    ⟨steps_copied_succ hd ho (hw _ (Nat.le_add_left ..) (by omega)), rfl⟩).steps

/-- The memory a scroll leaves: every row moved up by one, and then the last row blanked. -/
def Memory.scrolled (m : Memory) : Memory :=
  (m.copyUp 3840).writeCells 1920 (fun _ => Config.blankChar) Config.attrDefault 80

/-- A scroll of `fb.write` that has copied ends: the last row is blanked and CURSOR goes up one row. -/
theorem steps_scrollEnd {text : List Byte} {i : Nat} {c : Half} {m : Memory} (hd : s.DriverReady) (hc : s.cursor = some c) :
    steps (2 * 80 + 1) { s with grid := m, seq := .scroll (.blank 1920) :: .fbWrite text (.body i) :: rest } = .next { s with
      grid := m.writeCells 1920 (fun _ => Config.blankChar) Config.attrDefault 80
      cursor := some (cursorUp c)
      seq := .fbWrite text (.body i) :: rest } := by
  have hblank := (runs_blanked (s := { s with grid := m }) (rest := .fbWrite text (.body i) :: rest)
    (first := 1920) (n := 80) blankLoop_scroll (hd.grid m) (by omega)).steps
  have hadjust : ∀ m', steps 1 { s with grid := m', seq := .scroll (.blank 2000) :: .fbWrite text (.body i) :: rest } =
      .next { s with grid := m', cursor := some (cursorUp c), seq := .fbWrite text (.body i) :: rest } := fun m' =>
    steps_running 0 (by exact hd.1) (by exact hd.2) rfl (seq_scroll_adjust
      (s := { s with grid := m', seq := .scroll (.blank 2000) :: .fbWrite text (.body i) :: rest }) rfl cells_eq.le hc)
  rw [State.blanked_zero] at hblank
  exact (steps_add 1 hblank).trans (hadjust _)

/-- A scroll called by `fb.write`, from its first load to the return (R150). -/
theorem steps_scroll {text : List Byte} {i : Nat} {c : Half} (hd : s.DriverReady) (hc : s.cursor = some c)
    (hq : s.seq = .scroll scrollStart :: .fbWrite text (.body i) :: rest)
    (hw : ∀ off, 160 ≤ off → off < 4000 → (s.gridByte off).isSome = true) :
    steps 7841 s = .next { s with
      grid := s.grid.scrolled, cursor := some (cursorUp c), seq := .fbWrite text (.body i) :: rest } := by
  have hstart : s.copied (.fbWrite text (.body i) :: rest) 0 = s := by
    rw [State.copied, Memory.copyUp_zero, show scrollAt 0 = scrollStart from rfl, ← hq]
  have hcopy := steps_copied (rest := .fbWrite text (.body i) :: rest) hd hw
  rw [hstart] at hcopy
  rw [show 7841 = 2 * 3840 + (2 * 80 + 1) from rfl, steps_add _ hcopy]
  exact steps_scrollEnd hd hc

end

/-- Rows 0 to 23 of the scrolled memory are the rows one below. -/
theorem Memory.read_scrolled_copied {m : Memory} {off : Nat} (ho : off < 3840)
    (hw : (Memory.read m (gridAddr (off + 160))).isSome = true) :
    Memory.read m.scrolled (gridAddr off) = Memory.read m (gridAddr (off + 160)) := by
  obtain ⟨b, hb⟩ := Option.isSome_iff_exists.mp hw
  have hrow : ∀ j < 80, gridAddr off ≠ gridAddr (charOffset (1920 + j)) ∧ gridAddr off ≠ gridAddr (attrOffset (1920 + j)) :=
    fun j _ => ⟨gridAddr_ne (by rw [charOffset, Config.cellBytes]; omega),
      gridAddr_ne (by rw [attrOffset, Config.cellBytes]; omega)⟩
  rw [Memory.scrolled, Memory.read_writeCells_other hrow, Memory.read_copyUp ho, hb, Option.getD_some]

/-- A scroll leaves the memory outside the window alone. -/
theorem Memory.read_scrolled_outside {m : Memory} {a : Nat} (ha : a < gridAddr 0 ∨ gridAddr 4000 ≤ a) :
    Memory.read m.scrolled a = Memory.read m a := by
  rw [Memory.scrolled, Memory.read_writeCells_other fun j hj => outside_ne_cell ha (by omega),
    Memory.read_copyUp_other fun off ho => by simp only [gridAddr] at *; omega]

/-- Settles O42: the step enters the scroll (`step_call`), and `steps_scroll` runs it. -/
theorem scrollMovesTheGridUpFirst : Obligations.ScrollMovesTheGridUpFirst := by
  intro text i c rest s hd hq hi hc hc' hw
  have hcall : (Frame.fbWrite text (.head i)).callee s.cursor = some (.fbWrite text (.body i), .scroll scrollStart) := by
    rw [hc, Frame.callee, if_pos hi, if_pos (cells_eq.trans hc'.symm).le]
  obtain ⟨b, hb⟩ := Option.isSome_iff_exists.mp (hw 160 le_rfl (by omega))
  have hload : ∀ q, ((Frame.scroll scrollStart).micro s.cursor).run { s with seq := q } =
      .done (some b) { s with seq := q } := by
    intro q
    rw [show (Frame.scroll scrollStart).micro s.cursor = .load 160 from rfl, Micro.run,
      gridRead_written (by decide) (by exact hb)]
  have hstep := step_call (t := s) hd hq hcall rfl hload
  have hup : cursorUp c = 1920 := by
    rw [cursorUp, hc']
    rfl
  have hrun := steps_scroll (s := { s with seq := .scroll scrollStart :: .fbWrite text (.body i) :: rest }) hd hc rfl hw
  rw [hup] at hrun
  refine ⟨_, _, rfl, hstep, (steps_of_step_eq 7840 hstep).trans hrun, rfl,
    fun off ho => ?_, fun k hk hk' => ?_, fun a ha => ?_⟩
  · exact Memory.read_scrolled_copied ho (hw _ (by omega) (by omega))
  · obtain ⟨j, rfl⟩ := Nat.exists_eq_add_of_le hk
    obtain ⟨hchar, hattr⟩ := Memory.read_writeCells (m := s.grid.copyUp 3840) (first := 1920)
      (chars := fun _ => Config.blankChar) (attr := Config.attrDefault) (n := 80) (j := j) (by omega)
    exact Prod.ext hchar hattr
  · exact Memory.read_scrolled_outside ha

end Sys2Proof.Machine
end

section
namespace Sys2Proof.Machine

/-! ### The window, and the depth of calls (R153, 00_scope.md section 7) -/

/-- An action inside the window issues a well-formed transaction. -/
theorem Micro.transaction_wellFormed {m : Micro} {i : Instr} (hw : m.inWindow = true) (hi : m.transaction = some i) :
    i.wellFormed = true := by
  cases m with
  | write | read =>
    cases hi
    rfl
  | store off v =>
    have hoff : off < 4000 := of_decide_eq_true hw
    have hcell : cellInGrid (BitVec.ofNat 16 (off / 2)) = true :=
      decide_eq_true (by rw [BitVec.toNat_ofNat, cells_eq]; omega)
    cases hi
    split
    · exact hcell
    · exact hcell
  | load off =>
    have hoff : off < 4000 := of_decide_eq_true hw
    cases hi
    exact decide_eq_true (by rw [BitVec.toNat_ofNat, windowBytes_eq]; omega)
  | setCursor | raise | skip => cases hi

/-- What the sequencer issues under the invariant is well formed. -/
theorem issues_wellFormed {s : State} {i : Instr} (hs : s.Inv) (hq : s.seq ≠ []) (hi : s.issues = some i) :
    i.wellFormed = true := by
  obtain ⟨f, rest, he, _, hok⟩ := enterAll_top hs.cursor_range hs.seq_ok hq
  simp only [seqOk, Bool.and_eq_true] at hok
  obtain ⟨⟨hf, _⟩, _⟩ := hok
  rw [issues_of_enterAll he] at hi
  exact Micro.transaction_wellFormed (Frame.micro_inWindow hf) hi

/-- How many calls deep a command can be entered, counted from the command that calls nothing. -/
def Frame.height : Frame → Nat
  | .print _ _ _ => 4
  | .fbWrite _ _ => 3
  | .serialWrite _ _ _ => 3
  | .scroll _ => 2
  | .clear _ => 2
  | .init _ _ => 2
  | _ => 1

/-- A callee stands lower than its caller. -/
theorem height_of_calls {g f : Frame} (h : calls g f = true) : f.height < g.height := by
  unfold calls at h
  split at h <;> simp [Frame.height] at h ⊢

/-- A legal stack is no deeper than the heights allow. -/
theorem length_of_chained {f : Frame} {rest : List Frame} (h : chained (f :: rest) = true) :
    (f :: rest).length + f.height ≤ 5 := by
  induction rest generalizing f with
  | nil => cases f <;> simp [Frame.height]
  | cons g rest ih =>
    simp only [chained, Bool.and_eq_true] at h
    obtain ⟨hcalls, hrest⟩ := h
    have hdepth := ih hrest
    have hlower := height_of_calls hcalls
    simp only [List.length_cons] at hdepth ⊢
    omega

theorem height_pos (f : Frame) : 0 < f.height := by cases f <;> simp [Frame.height]

/-- A stack that meets the invariant is at most four deep. -/
theorem length_of_seqOk {c : Option Half} {q : List Frame} (h : seqOk c q = true) : q.length ≤ 4 := by
  cases q with
  | nil => exact Nat.zero_le 4
  | cons f rest =>
    simp only [seqOk, Bool.and_eq_true] at h
    have hdepth := length_of_chained h.2
    have hpos := height_pos f
    omega

/-- Settles O46: a scheduled transmitter steps and issues nothing; the driver side's step is the sequencer's. -/
theorem runningCommandsStayInTheWindow : Obligations.RunningCommandsStayInTheWindow := by
  intro s hs hr hq
  refine ⟨fun i hi => ?wellFormed, ?next, length_of_seqOk hs.seq_ok⟩
  case wellFormed =>
    unfold State.stepIssues at hi
    split at hi
    · cases hi
    · exact issues_wellFormed hs hq (Option.mem_toList.mp hi)
  case next =>
    have hdriver : ∀ tail, (s.sched = [] ∧ tail = [] ∨ s.sched = .sequencer :: tail) → ∃ t, step s = .next t := by
      intro tail hsched
      rw [step_driverSide hr hsched, driverStep_running (by exact hq)]
      exact sequencerStep_progress (State.queues_inv hs tail s.inbox) hq
    match hsched : s.sched with
    | [] => exact hdriver [] (.inl ⟨hsched, rfl⟩)
    | .sequencer :: tail => exact hdriver tail (.inr hsched)
    | .transmitter u :: tail => exact ⟨_, step_transmitter hr hsched⟩

end Sys2Proof.Machine
end

section
namespace Sys2Proof.Machine

/-! ### The console's commands on the stack (R145 to R151) -/

/-- The frames of the console's commands. -/
def Frame.ofConsole : Frame → Bool
  | .writeCell _ _ _ _ _ => true
  | .moveCursor _ _ => true
  | .fbWrite _ _ => true
  | .scroll _ => true
  | .clear _ => true
  | _ => false

/-- The calls among the console's commands: under CURSOR the first frame calls, leaving the second to be resumed and entering the
third. -/
inductive ConsoleCall : Option Half → Frame → Frame → Frame → Prop
  | scroll (text : List Byte) (i : Nat) (x : Half) (hi : i < text.length) :
      ConsoleCall (some x) (.fbWrite text (.head i)) (.fbWrite text (.body i)) (.scroll (.load 0))
  | char (text : List Byte) (i : Nat) (loc : WriteAt) (x : Half) (hl : loc = .head i ∨ loc = .body i) (hi : i < text.length)
      (hx : x.toNat < Config.cells) :
      ConsoleCall (some x) (.fbWrite text loc) (.fbWrite text (.advance i))
        (.writeCell x (text.getD i 0) Config.white Config.black .char)
  | textEnd (text : List Byte) (i : Nat) (x : Half) (hx : x.toNat ≤ Config.cells) :
      ConsoleCall (some x) (.fbWrite text (.head i)) (.fbWrite text .final) (.moveCursor x .highCmd)
  | scrollBlank (c : Option Half) (k : Nat) (hk : k < Config.cells) :
      ConsoleCall c (.scroll (.blank k)) (.scroll (.blank (k + 1)))
        (.writeCell (BitVec.ofNat 16 k) Config.blankChar Config.white Config.black .char)
  | clearBlank (c : Option Half) (k : Nat) (hk : k < Config.cells) :
      ConsoleCall c (.clear (.blank k)) (.clear (.blank (k + 1)))
        (.writeCell (BitVec.ofNat 16 k) Config.blankChar Config.white Config.black .char)
  | clearMove (c : Option Half) : ConsoleCall c (.clear .move) (.clear .final) (.moveCursor 0 .highCmd)

/-- A call of a character at CURSOR. -/
theorem consoleCall_char {text : List Byte} {i : Nat} {loc : WriteAt} {x : Half} {g d : Frame}
    (hl : loc = .head i ∨ loc = .body i) (hi : i < text.length) (hx : x.toNat < Config.cells)
    (h : writeBody text i x = some (g, d)) : ConsoleCall (some x) (.fbWrite text loc) g d := by
  unfold writeBody at h
  split at h
  · cases h
  · cases h
    exact .char text i loc x hl hi hx

/-- Every call of a console command that keeps its promise is one of these. -/
theorem consoleCall_of_callee {c : Option Half} {called : Bool} {f g d : Frame} (hf : f.ofConsole = true)
    (hc : cursorInRange c = true) (hok : f.ok c true called = true) (h : f.callee c = some (g, d)) : ConsoleCall c f g d := by
  cases f with
  | writeCell => cases h
  | moveCursor => cases h
  | fbWrite text loc =>
    cases c with
    | none => cases loc <;> cases h
    | some x =>
      cases loc with
      | head i =>
        simp only [Frame.callee] at h
        split at h
        next hi =>
          split at h
          next =>
            cases h
            exact .scroll text i x hi
          next hx => exact consoleCall_char (.inl rfl) hi (Nat.lt_of_not_le hx) h
        next =>
          cases h
          exact .textEnd text i x (of_decide_eq_true hc)
      | body i =>
        obtain ⟨hi, hx⟩ : i < text.length ∧ x.toNat < Config.cells := by simpa [Frame.ok, cursorOnCell] using hok
        exact consoleCall_char (.inr rfl) hi hx h
      | advance | final => cases h
  | scroll loc =>
    cases loc with
    | load | store => cases h
    | blank k =>
      simp only [Frame.callee] at h
      split at h
      next hk =>
        cases h
        exact .scrollBlank c k hk
      next => cases h
  | clear loc =>
    cases loc with
    | blank k =>
      simp only [Frame.callee] at h
      split at h
      next hk =>
        cases h
        exact .clearBlank c k hk
      next => cases h
    | move =>
      cases h
      exact .clearMove c
    | final => cases h
  | configureBaud | configureLine | configureBuffer | configureModem | isTxEmpty | init | serialWrite | print => cases hf

/-! ### The steps a console command has left (R152) -/

/-- The steps left at a position of `fb.write_cell`. -/
def CellAt.stepsLeft : CellAt → Nat
  | .char => 2
  | .attr => 1

/-- The steps left at a position of `fb.move_cursor`. -/
def MoveAt.stepsLeft : MoveAt → Nat
  | .highCmd => 5
  | .highData => 4
  | .lowCmd => 3
  | .lowData => 2
  | .record => 1

/-- A bound on the steps left at a position of `fb.write`: a byte takes a scroll of 7841 steps and three more, the end five. -/
def WriteAt.stepsLeft (len : Nat) : WriteAt → Nat
  | .head i => 7844 * (len - i) + 5
  | .body i => 7844 * (len - (i + 1)) + 8
  | .advance i => 7844 * (len - (i + 1)) + 6
  | .final => 0

/-- The steps left at a position of `fb.scroll`: two per byte copied, two per cell blanked and one more. -/
def ScrollAt.stepsLeft : ScrollAt → Nat
  | .load off => 2 * (3840 - off) + 161
  | .store off _ => 2 * (3840 - off) + 160
  | .blank k => 2 * (2000 - k) + 1

/-- The steps left at a position of `fb.clear`: two per cell and six more. -/
def ClearAt.stepsLeft : ClearAt → Nat
  | .blank k => 2 * (2000 - k) + 6
  | .move => 5
  | .final => 0

/-- A bound on the steps a console command has left, with those of the commands it calls. -/
def Frame.stepsLeft : Frame → Nat
  | .writeCell _ _ _ _ loc => loc.stepsLeft
  | .moveCursor _ loc => loc.stepsLeft
  | .fbWrite text loc => loc.stepsLeft text.length
  | .scroll loc => loc.stepsLeft
  | .clear loc => loc.stepsLeft
  | _ => 0

/-- The bound of a stack. -/
def stepsLeft (q : List Frame) : Nat := (q.map Frame.stepsLeft).sum

@[simp] theorem stepsLeft_nil : stepsLeft [] = 0 := rfl
@[simp] theorem stepsLeft_cons (f : Frame) (q : List Frame) : stepsLeft (f :: q) = f.stepsLeft + stepsLeft q := rfl

/-- A call keeps within the caller's bound. -/
theorem ConsoleCall.stepsLeft_le {c : Option Half} {f g d : Frame} (h : ConsoleCall c f g d) :
    d.stepsLeft + g.stepsLeft ≤ f.stepsLeft := by
  cases h with
  | scroll text i x hi =>
    simp only [Frame.stepsLeft, WriteAt.stepsLeft, ScrollAt.stepsLeft]
    omega
  | char text i loc x hl hi hx =>
    simp only [Frame.stepsLeft, CellAt.stepsLeft]
    rcases hl with rfl | rfl
    · simp only [WriteAt.stepsLeft]
      omega
    · simp only [WriteAt.stepsLeft]
      omega
  | textEnd text i x hx =>
    simp only [Frame.stepsLeft, WriteAt.stepsLeft, MoveAt.stepsLeft]
    omega
  | clearMove => exact le_rfl
  | scrollBlank c k hk | clearBlank c k hk =>
    rw [cells_eq] at hk
    simp only [Frame.stepsLeft, ScrollAt.stepsLeft, ClearAt.stepsLeft, CellAt.stepsLeft]
    omega

/-- The position can act: it is none at which its command has ended, and a data write of `fb.move_cursor` finds the index it
selected (R146). -/
def Frame.ready (index : Option Byte) : Frame → Bool
  | .moveCursor _ .highData => index == some Config.cursorHighCmd
  | .moveCursor _ .lowData => index == some Config.cursorLowCmd
  | f => !f.finished

theorem ConsoleCall.ready {c : Option Half} {f g d : Frame} (h : ConsoleCall c f g d) (index : Option Byte) :
    d.ready index = true := by
  cases h <;> rfl

/-- A console command that can act has a step left. -/
theorem stepsLeft_pos {index : Option Byte} {f : Frame} (hf : f.ofConsole = true) (hr : f.ready index = true) :
    0 < f.stepsLeft := by
  cases f with
  | writeCell index char fg bg loc => cases loc <;> exact Nat.succ_pos _
  | moveCursor pos loc => cases loc <;> exact Nat.succ_pos _
  | fbWrite text loc =>
    cases loc with
    | head | body | advance => exact Nat.succ_pos _
    | final => cases hr
  | scroll loc => cases loc <;> exact Nat.succ_pos _
  | clear loc =>
    cases loc with
    | blank | move => exact Nat.succ_pos _
    | final => cases hr
  | configureBaud | configureLine | configureBuffer | configureModem | isTxEmpty | init | serialWrite | print => cases hf

/-! ### The action of a console command -/

/-- The faults a console command raises, by the frame that raises them (R232, R233, R235). -/
def Frame.raises : Frame → FaultRecord → Bool
  | .writeCell index _ _ _ _, .gridIndexOutOfRange _ => decide (Config.cells ≤ index.toNat)
  | .moveCursor pos _, .cursorOutOfRange _ => decide (Config.cells < pos.toNat)
  | .fbWrite _ _, .unwrittenState _ => true
  | .scroll _, .unwrittenState _ => true
  | _, _ => false

/-- What the action of a console command does: it completes, changes nothing but the grid, the cursor hardware and CURSOR, and the
next position can act and has fewer steps left; or it raises one of the frame's faults. -/
inductive ConsoleAction (s : State) (f : Frame) : Prop
  | done (b : Option Byte) (u : State) (hrun : (f.micro s.cursor).run s = .done b u)
      (changes : u = { s with
        grid := u.grid, crtcIndex := u.crtcIndex, curHi := u.curHi, curLo := u.curLo, hwCursor := u.hwCursor, cursor := u.cursor })
      (next : ∀ g, f.after b = .cont g → g.ready u.crtcIndex = true ∧ g.stepsLeft < f.stepsLeft)
  | raise (r : FaultRecord) (hrun : (f.micro s.cursor).run s = .stopped (.next (s.takeFault r))) (hr : f.raises r = true)

section
variable {s : State} {called : Bool}

theorem consoleAction_writeCell {index : Half} {char : Byte} {fg bg : Nat} {loc : CellAt}
    (hok : (Frame.writeCell index char fg bg loc).ok s.cursor true called = true) :
    ConsoleAction s (.writeCell index char fg bg loc) := by
  cases loc with
  | char =>
    by_cases hi : Config.cells ≤ index.toNat
    · exact .raise (.gridIndexOutOfRange index) (by rw [Frame.micro, if_pos hi]; rfl) (decide_eq_true hi)
    · have hstore := gridStore_in char s (charOffset_lt (Nat.lt_of_not_le hi))
      refine .done none _ (by rw [Frame.micro, if_neg hi, Micro.run, hstore]) rfl fun g hg => ?_
      cases hg
      exact ⟨rfl, Nat.lt_succ_self 1⟩
  | attr =>
    have hi : index.toNat < Config.cells := of_decide_eq_true hok
    have hstore := gridStore_in (attrByte fg bg) s (attrOffset_lt hi)
    exact .done none _ (by rw [Frame.micro, Micro.run, hstore]) rfl nofun

theorem consoleAction_moveCursor {pos : Half} {loc : MoveAt} (hr : (Frame.moveCursor pos loc).ready s.crtcIndex = true) :
    ConsoleAction s (.moveCursor pos loc) := by
  cases loc with
  | highCmd =>
    by_cases hp : Config.cells < pos.toNat
    · exact .raise (.cursorOutOfRange pos) (by rw [Frame.micro, if_pos hp]; rfl) (decide_eq_true hp)
    · refine .done none { s with crtcIndex := some Config.cursorHighCmd }
        (by rw [Frame.micro, if_neg hp, Micro.run, portWrite_crtcCmd, crtcCmdWrite]) rfl fun g hg => ?_
      cases hg
      exact ⟨rfl, Nat.lt_succ_self 4⟩
  | highData =>
    have hindex : s.crtcIndex = some Config.cursorHighCmd := eq_of_beq hr
    refine .done none (s.loadCursorHigh (hiByte pos))
      (by rw [Frame.micro, Micro.run, portWrite_crtcData, crtcDataWrite_high _ hindex]) rfl fun g hg => ?_
    cases hg
    exact ⟨rfl, Nat.lt_succ_self 3⟩
  | lowCmd =>
    refine .done none { s with crtcIndex := some Config.cursorLowCmd }
      (by rw [Frame.micro, Micro.run, portWrite_crtcCmd, crtcCmdWrite]) rfl fun g hg => ?_
    cases hg
    exact ⟨rfl, Nat.lt_succ_self 2⟩
  | lowData =>
    have hindex : s.crtcIndex = some Config.cursorLowCmd := eq_of_beq hr
    refine .done none (s.loadCursorLow (loByte pos))
      (by rw [Frame.micro, Micro.run, portWrite_crtcData, crtcDataWrite_low _ hindex]) ?_ fun g hg => ?_
    · unfold State.loadCursorLow
      split <;> rfl
    · cases hg
      exact ⟨rfl, Nat.lt_succ_self 1⟩
  | record => exact .done none _ rfl rfl nofun

theorem consoleAction_fbWrite {text : List Byte} {loc : WriteAt} (hr : (Frame.fbWrite text loc).ready s.crtcIndex = true)
    (hcall : (Frame.fbWrite text loc).callee s.cursor = none) :
    ConsoleAction s (.fbWrite text loc) := by
  cases hc : s.cursor with
  | none =>
    have hraise : ∀ loc, loc ≠ .final → ((Frame.fbWrite text loc).micro s.cursor).run s =
        .stopped (.next (s.takeFault (.unwrittenState .cursor))) := by
      intro loc hloc
      rw [hc]
      cases loc with
      | head | body | advance => rfl
      | final => exact absurd rfl hloc
    exact .raise _ (hraise loc fun h => by rw [h] at hr; cases hr) rfl
  | some x =>
    rw [hc] at hcall
    cases loc with
    | head i =>
      obtain ⟨hi, _⟩ := head_of_callee_none hcall
      refine .done none { s with cursor := some (cursorNewline x) } (by rw [hc]; rfl) rfl fun g hg => ?_
      cases hg
      exact ⟨rfl, by simp only [Frame.stepsLeft, WriteAt.stepsLeft]; omega⟩
    | body i =>
      refine .done none { s with cursor := some (cursorNewline x) } (by rw [hc]; rfl) rfl fun g hg => ?_
      cases hg
      exact ⟨rfl, by simp only [Frame.stepsLeft, WriteAt.stepsLeft]; omega⟩
    | advance i =>
      refine .done none { s with cursor := some (cursorAdvance x) } (by rw [hc]; rfl) rfl fun g hg => ?_
      cases hg
      exact ⟨rfl, by simp only [Frame.stepsLeft, WriteAt.stepsLeft]; omega⟩
    | final => cases hr

theorem consoleAction_scroll {loc : ScrollAt} (hok : (Frame.scroll loc).ok s.cursor true called = true) :
    ConsoleAction s (.scroll loc) := by
  cases loc with
  | load off =>
    have ho : off < 3840 := of_decide_eq_true hok
    have hw : off + Config.cellBytes * Config.width < Config.windowBytes := by
      rw [windowBytes_eq, Config.cellBytes, Config.width]
      omega
    cases hb : Memory.read s.grid (gridAddr (off + Config.cellBytes * Config.width)) with
    | none => exact .raise _ (by rw [Frame.micro, Micro.run, gridRead_unwritten hw hb, Txn.raise]) rfl
    | some v =>
      refine .done (some v) s (by rw [Frame.micro, Micro.run, gridRead_written hw hb]) rfl fun g hg => ?_
      cases hg
      exact ⟨rfl, Nat.lt_succ_self _⟩
  | store off v =>
    have ho : off < 3840 := of_decide_eq_true hok
    have hw : off < Config.windowBytes := by
      rw [windowBytes_eq]
      omega
    refine .done none _ (by rw [Frame.micro, Micro.run, gridStore_in v s hw]) rfl fun g hg => ?_
    cases hg
    rw [scrollNext, scrollBytes_eq]
    split
    · exact ⟨rfl, by simp only [Frame.stepsLeft, ScrollAt.stepsLeft]; omega⟩
    · exact ⟨rfl, by simp only [Frame.stepsLeft, ScrollAt.stepsLeft, Config.width, Config.height]; omega⟩
  | blank k =>
    cases hc : s.cursor with
    | none => exact .raise (.unwrittenState .cursor) (by rw [hc]; rfl) rfl
    | some x => exact .done none { s with cursor := some (cursorUp x) } (by rw [hc]; rfl) rfl nofun

theorem consoleAction_clear {loc : ClearAt} (hr : (Frame.clear loc).ready s.crtcIndex = true)
    (hcall : (Frame.clear loc).callee s.cursor = none) : ConsoleAction s (.clear loc) := by
  cases loc with
  | blank k =>
    refine .done none { s with cursor := some 0 } rfl rfl fun g hg => ?_
    cases hg
    exact ⟨rfl, by simp only [Frame.stepsLeft, ClearAt.stepsLeft]; omega⟩
  | move => cases hcall
  | final => cases hr

/-- Every console command that keeps its promise and can act does so. -/
theorem consoleAction {f : Frame} (hf : f.ofConsole = true) (hok : f.ok s.cursor true called = true)
    (hr : f.ready s.crtcIndex = true) (hcall : f.callee s.cursor = none) : ConsoleAction s f := by
  cases f with
  | writeCell => exact consoleAction_writeCell hok
  | moveCursor => exact consoleAction_moveCursor hr
  | fbWrite => exact consoleAction_fbWrite hr hcall
  | scroll => exact consoleAction_scroll hok
  | clear => exact consoleAction_clear hr hcall
  | configureBaud | configureLine | configureBuffer | configureModem | isTxEmpty | init | serialWrite | print => cases hf

end

end Sys2Proof.Machine
end

section
namespace Sys2Proof.Machine

/-! ### A stack of console commands -/

/-- A kind of console frames that the calls and the positions of its commands do not leave. -/
structure ConsoleKind (P : Frame → Bool) : Prop where
  console : ∀ {f}, P f = true → f.ofConsole = true
  call : ∀ {c f g d}, ConsoleCall c f g d → P f = true → P g = true ∧ P d = true
  after : ∀ {f g b}, f.after b = .cont g → P f = true → P g = true

/-- The stack's frames are of the kind `P`, and its top can act. -/
structure ConsoleStack (P : Frame → Bool) (index : Option Byte) (q : List Frame) : Prop where
  frames : ∀ f ∈ q, P f = true
  top : ∀ f rest, q = f :: rest → f.ready index = true

theorem ConsoleStack.nil (P : Frame → Bool) (index : Option Byte) : ConsoleStack P index [] where
  frames _ h := absurd h List.not_mem_nil
  top _ _ h := nomatch h

theorem ConsoleStack.cons {P : Frame → Bool} {index : Option Byte} {f : Frame} {rest : List Frame} (hf : P f = true)
    (hrest : ∀ g ∈ rest, P g = true) (hr : f.ready index = true) : ConsoleStack P index (f :: rest) where
  frames := List.forall_mem_cons.mpr ⟨hf, hrest⟩
  top _ _ h := by
    cases h
    exact hr

section
variable {P : Frame → Bool} {index : Option Byte} {c : Option Half}

/-- Entering a call keeps the stack, within its bound. -/
theorem enter_consoleStack {q : List Frame} (hk : ConsoleKind P) (hc : cursorInRange c = true) (hq : seqOk c q = true)
    (h : ConsoleStack P index q) :
    seqOk c (enter c q) = true ∧ ConsoleStack P index (enter c q) ∧ stepsLeft (enter c q) ≤ stepsLeft q := by
  cases q with
  | nil => exact ⟨hq, h, le_rfl⟩
  | cons f rest =>
    cases hcall : f.callee c with
    | none =>
      rw [enter, hcall]
      exact ⟨hq, h, le_rfl⟩
    | some x =>
      obtain ⟨g, d⟩ := x
      obtain ⟨hf, hrest⟩ := List.forall_mem_cons.mp h.frames
      have hpush := seqOk_push hcall hc hq
      simp only [seqOk, Bool.and_eq_true] at hq
      obtain ⟨⟨hok, _⟩, _⟩ := hq
      have hconsole := consoleCall_of_callee (hk.console hf) hc hok hcall
      obtain ⟨hg, hd⟩ := hk.call hconsole hf
      rw [enter, hcall]
      refine ⟨hpush, .cons hd (List.forall_mem_cons.mpr ⟨hg, hrest⟩) (hconsole.ready index), ?_⟩
      have hle := hconsole.stepsLeft_le
      simp only [stepsLeft_cons]
      omega

/-- Entering every call keeps the stack, within its bound. -/
theorem enterAll_consoleStack {q : List Frame} (hk : ConsoleKind P) (hc : cursorInRange c = true) (hq : seqOk c q = true)
    (h : ConsoleStack P index q) : ConsoleStack P index (enterAll c q) ∧ stepsLeft (enterAll c q) ≤ stepsLeft q := by
  obtain ⟨hq₁, h₁, hle₁⟩ := enter_consoleStack hk hc hq h
  obtain ⟨hq₂, h₂, hle₂⟩ := enter_consoleStack hk hc hq₁ h₁
  obtain ⟨_, h₃, hle₃⟩ := enter_consoleStack hk hc hq₂ h₂
  exact ⟨h₃, hle₃.trans (hle₂.trans hle₁)⟩

/-- A caller of the console that goes on can act: no data write of `fb.move_cursor` calls. -/
theorem ready_of_calls {f g : Frame} (hg : g.ofConsole = true) (hcalls : calls g f = true) (hf : g.finished = false) :
    g.ready index = true := by
  cases g with
  | moveCursor => cases f <;> cases hcalls
  | writeCell | fbWrite | scroll | clear => simp [Frame.ready, hf]
  | configureBaud | configureLine | configureBuffer | configureModem | isTxEmpty | init | serialWrite | print => cases hg

/-- A caller of the console goes on from where it called. -/
theorem resume_console {f : Frame} (v : Option Bool) (hf : f.ofConsole = true) : f.resume v = f := by
  cases f with
  | serialWrite => cases hf
  | _ => rfl

/-- A return to the callers keeps the stack, within its bound. -/
theorem returnFrom_consoleStack {rest : List Frame} (hk : ConsoleKind P) (s : State) (f : Frame) (v : Option Bool)
    (hch : chained (f :: rest) = true) (hrest : ∀ g ∈ rest, P g = true) :
    ConsoleStack P index (s.returnFrom v rest).seq ∧ stepsLeft (s.returnFrom v rest).seq ≤ stepsLeft rest := by
  induction rest generalizing f v with
  | nil => exact ⟨.nil P index, le_rfl⟩
  | cons g rest ih =>
    obtain ⟨hg, hrest'⟩ := List.forall_mem_cons.mp hrest
    have hresume := resume_console v (hk.console hg)
    simp only [chained, Bool.and_eq_true] at hch
    obtain ⟨hcalls, hch'⟩ := hch
    cases hfin : g.finished with
    | true =>
      rw [returnFrom_finished (by rw [hresume, hfin]), stepsLeft_cons]
      obtain ⟨hstack, hle⟩ := ih g none hch' hrest'
      exact ⟨hstack, hle.trans (Nat.le_add_left ..)⟩
    | false =>
      rw [returnFrom_cons (by rw [hresume, hfin]), hresume]
      exact ⟨.cons hg hrest' (ready_of_calls (hk.console hg) hcalls hfin), le_rfl⟩

/-- Moving on from a completed action keeps the stack, with fewer steps left. -/
theorem moveOn_consoleStack {f : Frame} {rest : List Frame} {b : Option Byte} (hk : ConsoleKind P) (u : State)
    (hch : chained (f :: rest) = true) (hframes : ∀ g ∈ f :: rest, P g = true) (hpos : 0 < f.stepsLeft)
    (hnext : ∀ g, f.after b = .cont g → g.ready index = true ∧ g.stepsLeft < f.stepsLeft) :
    ConsoleStack P index (u.moveOn f rest b).seq ∧ stepsLeft (u.moveOn f rest b).seq < stepsLeft (f :: rest) := by
  obtain ⟨hf, hrest⟩ := List.forall_mem_cons.mp hframes
  unfold State.moveOn
  rw [stepsLeft_cons]
  cases ha : f.after b with
  | cont g =>
    obtain ⟨hr, hlt⟩ := hnext g ha
    refine ⟨.cons (hk.after ha hf) hrest hr, ?_⟩
    simp only [stepsLeft_cons]
    omega
  | ret v =>
    obtain ⟨hstack, hle⟩ := returnFrom_consoleStack (index := index) hk u f v hch hrest
    exact ⟨hstack, by simp only; omega⟩

end

/-! ### A run of console commands -/

/-- A console command runs, or has run, with the driver side to step: the invariant, and a stack of the kind `P`. -/
structure State.ConsoleRun (P : Frame → Bool) (s : State) : Prop where
  inv : s.Inv
  driver : s.DriverReady
  stack : ConsoleStack P s.crtcIndex s.seq

/-- The running command's step: it keeps the run, leaves fewer steps, and records no fault but one of a frame of its kind. -/
theorem step_consoleRun {P : Frame → Bool} {s : State} (hk : ConsoleKind P) (h : s.ConsoleRun P) (hq : s.seq ≠ []) :
    ∃ t, step s = .next t ∧ t.ConsoleRun P ∧ stepsLeft t.seq < stepsLeft s.seq ∧ t.inbox = s.inbox ∧
      ∀ r ∈ t.fault, r ∈ s.fault ∨ ∃ f, P f = true ∧ f.raises r = true := by
  obtain ⟨hinv, hd, hstack⟩ := h
  obtain ⟨f, rest, he, hcall, hok⟩ := enterAll_top hinv.cursor_range hinv.seq_ok hq
  obtain ⟨hentered, hle⟩ := enterAll_consoleStack hk hinv.cursor_range hinv.seq_ok hstack
  rw [he] at hentered hle
  simp only [seqOk, Bool.and_eq_true] at hok
  obtain ⟨⟨hokf, _⟩, hch⟩ := hok
  have hf : P f = true := hentered.frames f List.mem_cons_self
  have hr := hentered.top f rest rfl
  have hpos := stepsLeft_pos (hk.console hf) hr
  have hstep : step s = sequencerStep s := by rw [step_driver hd.1 hd.2, driverStep_running hq]
  have hkeeps : ∀ t, step s = .next t → t.Inv := fun t => everyStepKeepsTheInvariant s t hinv
  rw [hstep, sequencerStep_of_enterAll he] at hkeeps ⊢
  cases consoleAction (hk.console hf) hokf hr hcall with
  | done b u hrun changes next =>
    rw [hrun] at hkeeps ⊢
    obtain ⟨hmoved, hlt⟩ := moveOn_consoleStack hk u hch hentered.frames hpos next
    have hfields : (u.moveOn f rest b).DriverReady ∧ (u.moveOn f rest b).crtcIndex = u.crtcIndex ∧
        (u.moveOn f rest b).inbox = s.inbox ∧ (u.moveOn f rest b).fault = s.fault := by
      rw [moveOn_eq, changes]
      exact ⟨hd, rfl, rfl, rfl⟩
    obtain ⟨hd', hindex, hinbox, hfault⟩ := hfields
    refine ⟨_, rfl, ⟨hkeeps _ rfl, hd', hindex ▸ hmoved⟩, hlt.trans_le hle, hinbox, fun r hr => .inl (hfault ▸ hr)⟩
  | raise r hrun hraises =>
    rw [hrun] at hkeeps ⊢
    refine ⟨_, rfl, ⟨hkeeps _ rfl, hd, .nil P _⟩, ?_, rfl, fun r' hr' => ?_⟩
    · rw [stepsLeft_cons] at hle
      rw [State.takeFault_seq, stepsLeft_nil]
      omega
    · rcases List.mem_append.mp hr' with hr' | hr'
      · exact .inl hr'
      · rw [List.mem_singleton] at hr'
        exact .inr ⟨f, hf, hr' ▸ hraises⟩

/-- A run of console commands ends within its bound, with SEQ idle and nothing refused (R152). -/
theorem consoleRun_ends {P : Frame → Bool} (hk : ConsoleKind P) {n : Nat} {s : State} (h : s.ConsoleRun P)
    (hn : stepsLeft s.seq ≤ n) : ∃ m t, m ≤ n ∧ steps m s = .next t ∧ t.seq = [] ∧ t.refused = none := by
  induction n generalizing s with
  | zero =>
    by_cases hq : s.seq = []
    · exact ⟨0, s, le_rfl, rfl, hq, h.driver.1⟩
    · obtain ⟨t, _, _, hlt, _⟩ := step_consoleRun hk h hq
      omega
  | succ n ih =>
    by_cases hq : s.seq = []
    · exact ⟨0, s, Nat.zero_le _, rfl, hq, h.driver.1⟩
    · obtain ⟨t, hstep, ht, hlt, _⟩ := step_consoleRun hk h hq
      obtain ⟨m, u, hm, hsteps, hu⟩ := ih ht (by omega)
      exact ⟨m + 1, u, Nat.succ_le_succ hm, (steps_succ m hstep).trans hsteps, hu⟩

/-- A command issued to a ready block is a run of the kind of its first frame. -/
theorem State.Ready.consoleRun {P : Frame → Bool} {s : State} {f : Frame} (h : s.Ready) (hinv : s.Inv) (hf : P f = true)
    (hok : ∀ c, f.ok c true false = true) (hr : ∀ index, f.ready index = true) :
    State.ConsoleRun P { s with seq := [f], result := none } where
  inv := by
    obtain ⟨_, hfault, _, _⟩ := h
    exact State.seq_inv hinv hfault (by simp [seqOk, callersOk, chained, hok]) none
  driver := (h.start f).2
  stack := .cons hf (fun _ hg => absurd hg List.not_mem_nil) (hr _)

/-- The console's commands are the first five of `Frame.command`. -/
theorem ofConsole_eq (f : Frame) : f.ofConsole = decide (f.command ≤ 4) := by cases f <;> rfl

theorem consoleKind_ofConsole : ConsoleKind Frame.ofConsole where
  console h := h
  call h _ := by cases h <;> exact ⟨rfl, rfl⟩
  after h hf := by
    rw [ofConsole_eq] at hf ⊢
    rw [Frame.after_command h, hf]

/-- At the first byte of a text, or at its end, `fb.write` promises nothing of CURSOR. -/
theorem fbWrite_start_ok (text : List Byte) (c : Option Half) : (Frame.fbWrite text (.head 0)).ok c true false = true :=
  decide_eq_true (Nat.zero_le text.length)

/-- A console command from its first frame ends within the frame's bound. -/
theorem command_ends {s : State} {f : Frame} (hready : s.Ready) (hinv : s.Inv) (hf : f.ofConsole = true)
    (hok : ∀ c, f.ok c true false = true) (hr : ∀ index, f.ready index = true) :
    ∃ u n t, s.issue f = .next u ∧ u.seq ≠ [] ∧ n ≤ f.stepsLeft ∧ steps n u = .next t ∧ t.seq = [] ∧ t.refused = none := by
  obtain ⟨n, t, hn, hrun⟩ := consoleRun_ends consoleKind_ofConsole (hready.consoleRun hinv hf hok hr) le_rfl
  exact ⟨_, n, t, (hready.start f).1, List.cons_ne_nil f [], hn, hrun⟩

/-- Settles O44: the bound of a command is that of its first frame. -/
theorem consoleCommandsTerminate : Obligations.ConsoleCommandsTerminate := by
  intro i s hi hinv hready
  cases i with
  | fbWriteCell index char fg bg => exact command_ends hready hinv rfl (fun _ => rfl) (fun _ => rfl)
  | fbMoveCursor pos => exact command_ends hready hinv rfl (fun _ => rfl) (fun _ => rfl)
  | fbWrite text => exact command_ends hready hinv rfl (fbWrite_start_ok text) (fun _ => rfl)
  | fbClear => exact command_ends hready hinv rfl (fun _ => rfl) (fun _ => rfl)
  | _ => exact absurd rfl hi

end Sys2Proof.Machine
end

section
namespace Sys2Proof.Machine

/-! ### Which faults `fb.write` and `fb.clear` can record (R151, R152) -/

/-- The operand of a cell or cursor command is in range. -/
def Frame.inRange : Frame → Bool
  | .writeCell index _ _ _ _ => decide (index.toNat < Config.cells)
  | .moveCursor pos _ => decide (pos.toNat ≤ Config.cells)
  | _ => true

/-- The frames with operands in range of the given commands, in the numbering of `Frame.command`. -/
def Frame.among (commands : List Nat) (f : Frame) : Bool := f.inRange && commands.contains f.command

/-- `fb.write` and the commands it calls: `fb.write_cell`, `fb.move_cursor`, `fb.scroll`. -/
def writeCommands : List Nat := [0, 1, 2, 3]

/-- `fb.clear` and the commands it calls: `fb.write_cell`, `fb.move_cursor`. -/
def clearCommands : List Nat := [0, 1, 4]

/-- A command keeps its operands from one position to the next. -/
theorem inRange_after {f g : Frame} {b : Option Byte} (h : f.after b = .cont g) : g.inRange = f.inRange := by
  cases f with
  | serialWrite port text loc =>
    cases loc with
    | payload i =>
      simp only [Frame.after] at h
      split at h
      · cases h
        rfl
      · cases h
    | spin | init => cases h
  | writeCell _ _ _ _ loc | moveCursor _ loc | fbWrite _ loc | scroll loc | clear loc | configureBaud _ _ loc =>
    cases loc <;> cases h <;> rfl
  | configureLine | configureBuffer | configureModem | isTxEmpty | init | print => cases h

theorem among_after {commands : List Nat} {f g : Frame} {b : Option Byte} (h : f.after b = .cont g)
    (hf : f.among commands = true) : g.among commands = true := by
  rw [Frame.among, inRange_after h, Frame.after_command h]
  exact hf

/-- The cell a blanking loop calls for is in range. -/
theorem inRange_cell {k : Nat} (hk : k < Config.cells) : decide ((BitVec.ofNat 16 k).toNat < Config.cells) = true :=
  decide_eq_true (by rw [cells_eq] at *; rw [BitVec.toNat_ofNat]; omega)

/-- A console call is of a command in range. -/
theorem ConsoleCall.inRange {c : Option Half} {f g d : Frame} (h : ConsoleCall c f g d) :
    g.inRange = true ∧ d.inRange = true := by
  cases h with
  | scroll => exact ⟨rfl, rfl⟩
  | char _ _ _ _ _ _ hx | textEnd _ _ _ hx => exact ⟨rfl, decide_eq_true hx⟩
  | scrollBlank _ _ hk | clearBlank _ _ hk => exact ⟨rfl, inRange_cell hk⟩
  | clearMove => exact ⟨rfl, rfl⟩

theorem consoleKind_write : ConsoleKind (Frame.among writeCommands) where
  console {f} h := by
    rw [ofConsole_eq]
    simp [Frame.among, writeCommands] at h ⊢
    omega
  call h hf := by
    obtain ⟨hg, hd⟩ := h.inRange
    rw [Frame.among, Frame.among, hg, hd]
    cases h with
    | clearBlank | clearMove => cases hf
    | scroll | char | textEnd | scrollBlank => exact ⟨rfl, rfl⟩
  after h hf := among_after h hf

theorem consoleKind_clear : ConsoleKind (Frame.among clearCommands) where
  console {f} h := by
    rw [ofConsole_eq]
    simp [Frame.among, clearCommands] at h ⊢
    omega
  call h hf := by
    obtain ⟨hg, hd⟩ := h.inRange
    rw [Frame.among, Frame.among, hg, hd]
    cases h with
    | clearBlank | clearMove => exact ⟨rfl, rfl⟩
    | scroll | char | textEnd | scrollBlank => cases hf
  after h hf := among_after h hf

/-- With its operand in range a console command raises UnwrittenState alone, and only in `fb.write` and `fb.scroll`. -/
theorem raises_of_inRange {f : Frame} {r : FaultRecord} (hf : f.inRange = true) (h : f.raises r = true) :
    (∃ e, r = .unwrittenState e) ∧ (f.command = 2 ∨ f.command = 3) := by
  cases f with
  | writeCell index char fg bg loc =>
    cases r with
    | gridIndexOutOfRange => exact absurd (of_decide_eq_true h) (Nat.not_le.mpr (of_decide_eq_true hf))
    | cursorOutOfRange | txOverrun | unwrittenState => cases h
  | moveCursor pos loc =>
    cases r with
    | cursorOutOfRange => exact absurd (of_decide_eq_true h) (Nat.not_lt.mpr (of_decide_eq_true hf))
    | gridIndexOutOfRange | txOverrun | unwrittenState => cases h
  | fbWrite text loc =>
    cases r with
    | unwrittenState e => exact ⟨⟨e, rfl⟩, .inl rfl⟩
    | gridIndexOutOfRange | cursorOutOfRange | txOverrun => cases h
  | scroll loc =>
    cases r with
    | unwrittenState e => exact ⟨⟨e, rfl⟩, .inr rfl⟩
    | gridIndexOutOfRange | cursorOutOfRange | txOverrun => cases h
  | clear | configureBaud | configureLine | configureBuffer | configureModem | isTxEmpty | init | serialWrite | print =>
    cases h

/-- A predicate that every step keeps holds after any number of steps. -/
theorem steps_keep {I : State → Prop} (h : ∀ s, I s → ∃ t, step s = .next t ∧ I t) {s : State} (hs : I s) (n : Nat) :
    ∃ t, steps n s = .next t ∧ I t := by
  induction n generalizing s with
  | zero => exact ⟨s, rfl, hs⟩
  | succ n ih =>
    obtain ⟨t, hstep, ht⟩ := h s hs
    obtain ⟨u, hsteps, hu⟩ := ih ht
    exact ⟨u, (steps_succ n hstep).trans hsteps, hu⟩

/-- An idle block with no request and no schedule stays as it is (R35). -/
theorem step_idle {s : State} (hd : s.DriverReady) (hq : s.seq = []) (hi : s.inbox = []) : step s = .next s := by
  rw [step_driver hd.1 hd.2, driverStep_idle hq, callerStep, hi]
  cases s.fault <;> rfl

/-- A run of console commands with no further request, on which every fault recorded meets `R`. -/
structure State.FaultsRun (P : Frame → Bool) (R : FaultRecord → Prop) (s : State) : Prop where
  run : s.ConsoleRun P
  inbox : s.inbox = []
  faults : ∀ r ∈ s.fault, R r

/-- When the frames of the kind raise only faults that meet `R`, every step keeps such a run. -/
theorem step_faultsRun {P : Frame → Bool} {R : FaultRecord → Prop} (hk : ConsoleKind P)
    (hR : ∀ f r, P f = true → f.raises r = true → R r) (s : State) (h : s.FaultsRun P R) :
    ∃ t, step s = .next t ∧ t.FaultsRun P R := by
  by_cases hq : s.seq = []
  · exact ⟨s, step_idle h.run.driver hq h.inbox, h⟩
  · obtain ⟨t, hstep, ht, _, hinbox, hnew⟩ := step_consoleRun hk h.run hq
    refine ⟨t, hstep, ht, hinbox.trans h.inbox, fun r hr => ?_⟩
    rcases hnew r hr with hr | ⟨f, hP, hraises⟩
    · exact h.faults r hr
    · exact hR f r hP hraises

/-- What `fb.write` can record, by its frames. -/
theorem raises_of_write {f : Frame} {r : FaultRecord} (hf : f.among writeCommands = true) (h : f.raises r = true) :
    ∃ e, r = .unwrittenState e := by
  simp only [Frame.among, Bool.and_eq_true] at hf
  exact (raises_of_inRange hf.1 h).1

/-- The frames of `fb.clear` raise nothing. -/
theorem not_raises_of_clear {f : Frame} {r : FaultRecord} (hf : f.among clearCommands = true) : ¬ f.raises r = true := by
  intro h
  simp only [Frame.among, Bool.and_eq_true] at hf
  obtain ⟨hrange, hcommand⟩ := hf
  rcases (raises_of_inRange hrange h).2 with hc | hc
  · simp [hc, clearCommands] at hcommand
  · simp [hc, clearCommands] at hcommand

/-- Settles O45: the frames of `fb.write` have their operands in range, and those of `fb.clear` raise nothing then. -/
theorem fbWriteIsNeverOutOfRange : Obligations.FbWriteIsNeverOutOfRange := by
  intro text s hinv hready hi
  have hnone : ∀ R : FaultRecord → Prop, ∀ r ∈ s.fault, R r := by
    obtain ⟨_, hf, _⟩ := hready
    simp [hf]
  refine ⟨⟨_, (hready.start _).1, fun n => ?write⟩, ⟨_, (hready.start _).1, fun n => ?clear⟩⟩
  case write =>
    have hrun := hready.consoleRun (P := Frame.among writeCommands) hinv rfl (fbWrite_start_ok text) (fun _ => rfl)
    obtain ⟨t, hsteps, ht⟩ := steps_keep (step_faultsRun consoleKind_write fun _ _ => raises_of_write)
      ⟨hrun, hi, hnone _⟩ n
    exact ⟨t, hsteps, ht.faults⟩
  case clear =>
    have hrun := hready.consoleRun (P := Frame.among clearCommands) (f := .clear (.blank 0)) hinv rfl
      (fun _ => rfl) (fun _ => rfl)
    obtain ⟨t, hsteps, ht⟩ := steps_keep (step_faultsRun (R := fun _ => False) consoleKind_clear
      fun _ _ hf => not_raises_of_clear hf) ⟨hrun, hi, hnone _⟩ n
    exact ⟨t, hsteps, List.eq_nil_iff_forall_not_mem.mpr ht.faults⟩

end Sys2Proof.Machine
end

section
namespace Sys2Proof.Machine

/-! ### A port transaction at an offset of a UART (R120, R121, R122) -/

theorem exec_portWrite_offset (u : UartId) (off : BitVec 3) (v : Byte) (s : State) :
    exec (.portWrite (base u + off.setWidth 16) v) s = (uartWrite u off v s).settle keep := by
  rw [exec, execPortWrite, portWrite, claim_uart]

theorem exec_portRead_offset (u : UartId) (off : BitVec 3) (s : State) :
    exec (.portRead (base u + off.setWidth 16)) s = (uartRead u off s).settle returnByte := by
  rw [exec, execPortRead, portRead, claim_uart]

/-- Settles O32: an offset of either clause is none of the offsets with a register, and the data port's own read is refused. -/
theorem otherUartAccessesAreRefused : Obligations.OtherUartAccessesAreRefused := by
  refine fun u v s => ⟨fun off hoff => ?write, fun off h0 h5 => ?read, ?data⟩
  case write =>
    have hother : off ≠ 0 ∧ off ≠ 2 ∧ off ≠ 3 ∧ off ≠ 4 := by rcases hoff with rfl | rfl | rfl | rfl <;> decide
    obtain ⟨h0, h2, h3, h4⟩ := hother
    rw [exec_portWrite_offset, uartWrite_other u v s h0 h2 h3 h4]
    rfl
  case read =>
    rw [exec_portRead_offset, uartRead_other u s h0 h5]
    rfl
  case data =>
    have hp : base u = base u + (0 : BitVec 3).setWidth 16 := (BitVec.add_zero _).symm
    rw [hp, exec_portRead_offset]
    rfl

end Sys2Proof.Machine
end

section
namespace Sys2Proof.Machine

/-! ### The data port (R170, R171, R239) -/

theorem Uart.dlab_of_lcr {x : Uart} {l : Byte} (h : x.lcr = some l) : x.dlab = some (l.getLsbD 7) := by
  rw [Uart.dlab, h, Option.map_some]

theorem Uart.dlab_of_unwritten {x : Uart} (h : x.lcr = none) : x.dlab = none := by
  rw [Uart.dlab, h, Option.map_none]

theorem Uart.txcap_of_fifoEn {x : Uart} {en : Bool} (h : x.fifoEn = some en) : x.txcap = some (txCapacity en) := by
  rw [Uart.txcap, h, Option.map_some]

theorem Uart.txcap_of_unwritten {x : Uart} (h : x.fifoEn = none) : x.txcap = none := by
  rw [Uart.txcap, h, Option.map_none]

/-- The data write with LCR unwritten: the first check of R239. -/
theorem uartDataWrite_lcrUnwritten {u : UartId} {s : State} (v : Byte) (hd : (s.uart u).dlab = none) :
    uartDataWrite u v s = .stopped (.next (s.takeFault (.unwrittenState (.uartLcr u)))) := by
  simp only [uartDataWrite, hd, Txn.raise]

/-- The data write with DLAB clear and FIFO_EN unwritten: the check after the DLAB decode (R239). -/
theorem uartDataWrite_fifoEnUnwritten {u : UartId} {s : State} (v : Byte) (hd : (s.uart u).dlab = some false)
    (hc : (s.uart u).txcap = none) :
    uartDataWrite u v s = .stopped (.next (s.takeFault (.unwrittenState (.uartFifoEn u)))) := by
  simp only [uartDataWrite, hd, hc, Txn.raise]

/-- Either device word of the data port is the same data write: dlab is not on the bus (R92, log 9). -/
theorem exec_uartTxWrite (u : UartId) (v : Byte) (s : State) :
    exec (.uartTxWrite u v) s = (uartDataWrite u v s).settle keep := rfl

theorem exec_uartDivWrite (u : UartId) (v : Byte) (s : State) :
    exec (.uartDivWrite u v) s = (uartDataWrite u v s).settle keep := rfl

/-- Settles O25: the two registers give DLAB and the capacity, and the write queues its byte. -/
theorem txWriteQueuesTheByte : Obligations.TxWriteQueuesTheByte := by
  intro u v l en s hlcr hbit hen hroom
  have hd : (s.uart u).dlab = some false := hbit ▸ Uart.dlab_of_lcr hlcr
  rw [exec_uartTxWrite, uartDataWrite_queue v hd (Uart.txcap_of_fifoEn hen) hroom]
  rfl

/-- Settles O26: one case per check of the data write, in its order. -/
theorem dataWriteFaultsInOrder : Obligations.DataWriteFaultsInOrder := by
  refine fun u v s => ⟨fun hlcr => ?lcr, fun l hlcr hbit => ?checks⟩
  case lcr =>
    rw [exec_uartTxWrite, uartDataWrite_lcrUnwritten v (Uart.dlab_of_unwritten hlcr)]
    rfl
  case checks =>
    have hd : (s.uart u).dlab = some false := hbit ▸ Uart.dlab_of_lcr hlcr
    refine ⟨fun hen => ?fifoEn, fun en hen hfull => ?full⟩
    case fifoEn =>
      rw [exec_uartTxWrite, uartDataWrite_fifoEnUnwritten v hd (Uart.txcap_of_unwritten hen)]
      rfl
    case full =>
      rw [exec_uartTxWrite, uartDataWrite_full v hd (Uart.txcap_of_fifoEn hen) (Nat.not_lt.mpr hfull)]
      rfl

theorem Uart.loadDivisorByte_high {x : Uart} (v : Byte) (h : x.dlphase = false) :
    x.loadDivisorByte v = { x with dlh := some v, dlphase := true } := by
  rw [Uart.loadDivisorByte, h]
  rfl

theorem Uart.loadDivisorByte_low {x : Uart} (v : Byte) (h : x.dlphase = true) :
    x.loadDivisorByte v = { x with dll := some v, dlphase := false } := by
  rw [Uart.loadDivisorByte, h]
  rfl

/-- Two divisor bytes from phase 0 load the divisor and come back to phase 0 (R171). -/
theorem Uart.loadDivisorByte_pair {x : Uart} (v w : Byte) (h : x.dlphase = false) :
    (x.loadDivisorByte v).loadDivisorByte w = { x with dlh := some v, dll := some w } := by
  rw [Uart.loadDivisorByte_high v h, Uart.loadDivisorByte_low w rfl, ← h]

theorem Uart.loadDivisorByte_dlab (x : Uart) (v : Byte) : (x.loadDivisorByte v).dlab = x.dlab := by
  rw [Uart.dlab, Uart.loadDivisorByte_lcr, Uart.dlab]

theorem exec_uartDivWrite_divisor {u : UartId} {s : State} (v : Byte) (hd : (s.uart u).dlab = some true) :
    exec (.uartDivWrite u v) s = .next (s.setUart u ((s.uart u).loadDivisorByte v)) := by
  rw [exec_uartDivWrite, uartDataWrite_divisor v hd]
  rfl

theorem execList_cons {i : Instr} {s t : State} (is : List Instr) (h : exec i s = .next t) :
    execList (i :: is) s = execList is t := by
  rw [execList, h]

/-- Two divisor writes are two loads: the first keeps DLAB set. -/
theorem execList_uartDivWrite_pair {u : UartId} {s : State} (v w : Byte) (hd : (s.uart u).dlab = some true) :
    execList [.uartDivWrite u v, .uartDivWrite u w] s =
      .next (s.setUart u (((s.uart u).loadDivisorByte v).loadDivisorByte w)) := by
  have hd' : ((s.setUart u ((s.uart u).loadDivisorByte v)).uart u).dlab = some true := by
    rw [State.uart_setUart_same, Uart.loadDivisorByte_dlab, hd]
  rw [execList_cons _ (exec_uartDivWrite_divisor v hd), execList_cons _ (exec_uartDivWrite_divisor w hd'), execList,
    State.uart_setUart_same, State.setUart_setUart]

/-- Settles O27: the write is the load of a divisor byte, by the phase. -/
theorem divisorWritesLoadHighThenLow : Obligations.DivisorWritesLoadHighThenLow := by
  intro u v w l s hlcr hbit
  have hd : (s.uart u).dlab = some true := hbit ▸ Uart.dlab_of_lcr hlcr
  refine ⟨fun hphase => ⟨?high, _, execList_uartDivWrite_pair v w hd, ?pair, ?div⟩, fun hphase => ?low⟩
  case high => rw [exec_uartDivWrite_divisor v hd, Uart.loadDivisorByte_high v hphase]
  case pair => rw [Uart.loadDivisorByte_pair v w hphase]
  case div =>
    rw [State.uart_setUart_same, Uart.loadDivisorByte_pair v w hphase]
    rfl
  case low => rw [exec_uartDivWrite_divisor v hd, Uart.loadDivisorByte_low v hphase]

end Sys2Proof.Machine
end

section
namespace Sys2Proof.Machine

/-! ### The control and status registers (R173 to R176) -/

/-- A FIFO-control write that changes the enable bit without both clears is refused (R173). -/
theorem uartFifoWrite_refused {u : UartId} {v : Byte} {s : State} (hen : (s.uart u).fifoEn ≠ some (fcrEnable v))
    (hclear : ¬ (fcrClearRx v = true ∧ fcrClearTx v = true)) :
    uartFifoWrite u v s = .refuse s .fifoModeChangeWithoutClear :=
  if_pos ⟨hen, hclear⟩

/-- Settles O28: the write is accepted or refused by its own test. -/
theorem fifoControlWriteSetsItsFields : Obligations.FifoControlWriteSetsItsFields :=
  fun _ _ _ => ⟨fun h => congrArg (·.settle keep) (uartFifoWrite_accepted h),
    fun hen hclear => congrArg (·.settle keep) (uartFifoWrite_refused hen hclear)⟩

/-- Settles O29: the word by its fields, and the line-control write at the device and at its port. -/
theorem lineControlWriteSetsTheFormat : Obligations.LineControlWriteSetsTheFormat := by
  refine ⟨fun u dlab v => ?word, by decide, fun u v s => ?effect⟩
  case word => exact (uartWordsDecodeByTheirFields u dlab 3 v).1
  case effect =>
    refine ⟨s.setUart u ((s.uart u).configureLine v), rfl, exec_portWrite_done (portWrite_line u v s), rfl, ?_⟩
    rw [State.uart_setUart_same, Uart.dlab_of_lcr (Uart.configureLine_lcr _ v)]

/-- A modem-control write with the loopback bit set is refused (R175). -/
theorem uartModemWrite_loopback {u : UartId} {v : Byte} (s : State) (h : mcrLoopback v = true) :
    uartModemWrite u v s = .refuse s .loopbackNotModelled :=
  if_pos h

/-- Settles O30: the loopback bit decides. -/
theorem modemControlWriteDrivesThePins : Obligations.ModemControlWriteDrivesThePins :=
  fun _ _ s => ⟨fun h => congrArg (·.settle keep) (uartModemWrite_plain s h),
    fun h => congrArg (·.settle keep) (uartModemWrite_loopback s h)⟩

/-- The status byte has the transmit-empty bit set exactly when TXFIFO is empty (R176). -/
theorem Uart.lsr_empty_iff (x : Uart) (r : Byte) : x.lsr r &&& Config.txEmptyMask ≠ 0 ↔ x.txfifo = [] := by
  have h := statusShowsEmpty_lsr x r
  rw [statusShowsEmpty, Uart.transmitEmpty] at h
  rw [← bne_iff_ne, h, List.isEmpty_iff]

/-- The other seven bits of the status byte are the draw's (R176). -/
theorem Uart.lsr_free_bits (x : Uart) (r : Byte) :
    x.lsr r &&& ~~~Config.txEmptyMask = r &&& ~~~Config.txEmptyMask := by
  unfold Uart.lsr
  split
  · rw [BitVec.and_or_distrib_right, BitVec.and_not_self]
    exact BitVec.or_zero
  · rw [BitVec.and_assoc, BitVec.and_self]

/-- Settles O31: the byte returned is the status byte of the draw. -/
theorem lineStatusReadShowsTransmitEmpty : Obligations.LineStatusReadShowsTransmitEmpty :=
  fun u s => ⟨(s.uart u).lsr s.drawn, rfl, Uart.lsr_empty_iff _ _, Uart.lsr_free_bits _ _⟩

end Sys2Proof.Machine
end

section
namespace Sys2Proof.Machine

/-! ### The transmitter (R178) and the order of the bytes (R181) -/

theorem Uart.transmit_of_queued {x : Uart} {b : Byte} {rest : List Byte} (h : x.txfifo = b :: rest) :
    x.transmit = { x with txfifo := rest, line := x.line ++ [{ byte := b, div := x.div, fmt := x.fmt }] } := by
  simp only [Uart.transmit, h]

theorem Uart.transmit_of_empty {x : Uart} (h : x.txfifo = []) : x.transmit = x := by
  simp only [Uart.transmit, h]

theorem exec_uartTxSend (u : UartId) (s : State) :
    exec (.uartTxSend u) s = .next (s.setUart u (s.uart u).transmit) := rfl

/-- Settles O33: TXFIFO with an oldest byte, and empty. -/
theorem transmitterSendsTheOldestByte : Obligations.TransmitterSendsTheOldestByte := by
  refine fun u s => ⟨fun b rest h => ?queued, fun h => ?empty⟩
  case queued => rw [exec_uartTxSend, Uart.transmit_of_queued h]
  case empty => rw [exec_uartTxSend, Uart.transmit_of_empty h, State.setUart_uart]

/-- The bytes on LINE and then those in TXFIFO: the order in which the line carries them (R181 (1)). -/
def Uart.stream (x : Uart) : List Byte := x.line.map (·.byte) ++ x.txfifo

/-- The transmitter moves a byte from TXFIFO to LINE without changing the order. -/
theorem Uart.stream_transmit (x : Uart) : x.transmit.stream = x.stream := by
  cases h : x.txfifo with
  | nil => rw [Uart.transmit_of_empty h]
  | cons b rest => simp [Uart.transmit_of_queued h, Uart.stream, h]

theorem Uart.stream_queue (x : Uart) (v : Byte) :
    Uart.stream { x with txfifo := x.txfifo ++ [v] } = x.stream ++ [v] :=
  (List.append_assoc _ _ _).symm

theorem payloads_cons (i : Instr) (is : List Instr) : payloads (i :: is) = payloads [i] ++ payloads is := by
  cases i <;> rfl

theorem fifoEvent_cases {u : UartId} {i : Instr} (h : fifoEvent u i = true) :
    (∃ v, i = .uartTxWrite u v) ∨ i = .uartLsrRead u ∨ i = .uartTxSend u := by
  cases i <;> simp_all [fifoEvent]

/-- What a run of the FIFO events `is` of UART[u] does: the registers that rule the data port are kept, faults are only added, the
order holds unless a fault is, and no fault is added within the depth. -/
structure FifoRun (u : UartId) (is : List Instr) (s t : State) : Prop where
  dlab : (t.uart u).dlab = (s.uart u).dlab
  fifoEn : (t.uart u).fifoEn = (s.uart u).fifoEn
  faults : s.fault <+: t.fault
  order : t.fault = s.fault → (t.uart u).stream = (s.uart u).stream ++ payloads is
  depth : (s.uart u).fifoEn = some true → (s.uart u).txfifo.length + (payloads is).length ≤ 16 →
    t.fault = s.fault ∧ (t.uart u).txfifo.length ≤ (s.uart u).txfifo.length + (payloads is).length

theorem FifoRun.nil (u : UartId) (s : State) : FifoRun u [] s s where
  dlab := rfl
  fifoEn := rfl
  faults := List.prefix_rfl
  order _ := (List.append_nil _).symm
  depth _ _ := ⟨rfl, Nat.le_refl _⟩

theorem FifoRun.cons {u : UartId} {i : Instr} {is : List Instr} {s t v : State} (h : FifoRun u [i] s t)
    (h' : FifoRun u is t v) : FifoRun u (i :: is) s v where
  dlab := h'.dlab.trans h.dlab
  fifoEn := h'.fifoEn.trans h.fifoEn
  faults := h.faults.trans h'.faults
  order hf := by
    have hst : t.fault = s.fault := (hf ▸ h'.faults).eq_of_length_le h.faults.length_le
    rw [h'.order (hf.trans hst.symm), h.order hst, List.append_assoc, ← payloads_cons]
  depth hen hlen := by
    rw [payloads_cons, List.length_append] at hlen ⊢
    obtain ⟨hf, hl⟩ := h.depth hen (by omega)
    obtain ⟨hf', hl'⟩ := h'.depth (h.fifoEn.trans hen) (by omega)
    exact ⟨hf'.trans hf, by omega⟩

/-- An event that adds no fault and appends the bytes it carries. -/
theorem FifoRun.of_quiet {u : UartId} {i : Instr} {s t : State} (hd : (t.uart u).dlab = (s.uart u).dlab)
    (hen : (t.uart u).fifoEn = (s.uart u).fifoEn) (hf : t.fault = s.fault)
    (hs : (t.uart u).stream = (s.uart u).stream ++ payloads [i])
    (hl : (t.uart u).txfifo.length ≤ (s.uart u).txfifo.length + (payloads [i]).length) : FifoRun u [i] s t where
  dlab := hd
  fifoEn := hen
  faults := hf ▸ List.prefix_rfl
  order _ := hs
  depth _ _ := ⟨hf, hl⟩

/-- A data write that faults: an enabled FIFO does so only when it is full. -/
theorem FifoRun.of_fault {u : UartId} {v : Byte} {s : State} (r : FaultRecord)
    (hfull : (s.uart u).fifoEn = some true → 16 ≤ (s.uart u).txfifo.length) :
    FifoRun u [.uartTxWrite u v] s (s.takeFault r) where
  dlab := congrArg Uart.dlab (State.uart_eq_of_fields rfl rfl u)
  fifoEn := congrArg Uart.fifoEn (State.uart_eq_of_fields rfl rfl u)
  faults := List.prefix_append _ _
  order hf := by simp at hf
  depth hen hlen := by
    have := hfull hen
    simp only [payloads, List.length_singleton] at hlen
    omega

theorem fifoRun_uartTxWrite {u : UartId} {s : State} (v : Byte) (hd : (s.uart u).dlab = some false) :
    ∃ t, exec (.uartTxWrite u v) s = .next t ∧ FifoRun u [.uartTxWrite u v] s t := by
  rw [exec_uartTxWrite]
  cases hen : (s.uart u).fifoEn with
  | none =>
    rw [uartDataWrite_fifoEnUnwritten v hd (Uart.txcap_of_unwritten hen)]
    exact ⟨_, rfl, .of_fault _ (by simp [hen])⟩
  | some en =>
    have hc := Uart.txcap_of_fifoEn hen
    by_cases hl : (s.uart u).txfifo.length < txCapacity en
    · rw [uartDataWrite_queue v hd hc hl]
      refine ⟨_, rfl, .of_quiet ?_ ?_ (State.setUart_fault ..) ?_ ?_⟩ <;> rw [keep_eq, State.uart_setUart_same]
      · rfl
      · exact Uart.stream_queue _ v
      · exact Nat.le_of_eq List.length_append
    · rw [uartDataWrite_full v hd hc hl]
      refine ⟨_, rfl, .of_fault _ fun h => ?_⟩
      cases hen.symm.trans h
      exact Nat.not_lt.mp hl

theorem fifoRun_uartLsrRead (u : UartId) (s : State) :
    ∃ t, exec (.uartLsrRead u) s = .next t ∧ FifoRun u [.uartLsrRead u] s t := by
  have hu : (returnByte ((s.uart u).lsr s.drawn) s.afterDraw).uart u = s.uart u := State.uart_eq_of_fields rfl rfl u
  refine ⟨_, rfl, .of_quiet ?_ ?_ rfl ?_ ?_⟩ <;> rw [hu]
  · exact (List.append_nil _).symm
  · exact Nat.le_add_right _ _

theorem fifoRun_uartTxSend (u : UartId) (s : State) :
    ∃ t, exec (.uartTxSend u) s = .next t ∧ FifoRun u [.uartTxSend u] s t := by
  refine ⟨_, exec_uartTxSend u s, .of_quiet ?_ ?_ (State.setUart_fault ..) ?_ ?_⟩ <;> rw [State.uart_setUart_same]
  · rw [Uart.dlab, Uart.transmit_lcr, Uart.dlab]
  · exact Uart.transmit_fifoEn _
  · exact (Uart.stream_transmit _).trans (List.append_nil _).symm
  · rw [Uart.transmit_txfifo, List.length_tail]
    omega

/-- Every FIFO event with DLAB clear answers a next state, and is a run of one event. -/
theorem fifoRun_event {u : UartId} {i : Instr} {s : State} (hi : fifoEvent u i = true) (hd : (s.uart u).dlab = some false) :
    ∃ t, exec i s = .next t ∧ FifoRun u [i] s t := by
  rcases fifoEvent_cases hi with ⟨v, rfl⟩ | rfl | rfl
  · exact fifoRun_uartTxWrite v hd
  · exact fifoRun_uartLsrRead u s
  · exact fifoRun_uartTxSend u s

theorem fifoRun_execList {u : UartId} {is : List Instr} {s : State} (hi : ∀ i ∈ is, fifoEvent u i = true)
    (hd : (s.uart u).dlab = some false) : ∃ t, execList is s = .next t ∧ FifoRun u is s t := by
  induction is generalizing s with
  | nil => exact ⟨s, rfl, .nil u s⟩
  | cons i is ih =>
    obtain ⟨hhead, htail⟩ := List.forall_mem_cons.mp hi
    obtain ⟨t, ht, hrun⟩ := fifoRun_event hhead hd
    obtain ⟨v, hv, hrest⟩ := ih htail (hrun.dlab.trans hd)
    exact ⟨v, (execList_cons is ht).trans hv, hrun.cons hrest⟩

/-- Settles O35: the events are a `FifoRun`, which keeps the order and the depth. -/
theorem fifoKeepsTheOrderWithinItsDepth : Obligations.FifoKeepsTheOrderWithinItsDepth := by
  intro u is l s hi hlcr hbit
  have hd : (s.uart u).dlab = some false := hbit ▸ Uart.dlab_of_lcr hlcr
  obtain ⟨t, ht, hrun⟩ := fifoRun_execList hi hd
  refine ⟨fun t' ht' hf => ?order, fun hen hlen => ⟨t, ht, (hrun.depth hen hlen).1⟩⟩
  case order =>
    cases ht.symm.trans ht'
    exact hrun.order hf

end Sys2Proof.Machine
end

section
namespace Sys2Proof.Machine

/-! ### Turns of the driver side in a schedule -/

/-- The next step is the driver side's and leaves the schedule `tail`: it names the driver side, or is at its end (log 2). -/
def DriverTurn (sched tail : List Agent) : Prop := sched = [] ∧ tail = [] ∨ sched = .sequencer :: tail

/-- The next `n` steps are the driver side's and leave the schedule `tail`. -/
def DriverTurns : Nat → List Agent → List Agent → Prop
  | 0, sched, tail => sched = tail
  | n + 1, sched, tail => ∃ next, DriverTurn sched next ∧ DriverTurns n next tail

/-- With no schedule every step is the driver side's. -/
theorem driverTurns_unscheduled {sched : List Agent} (h : sched = []) (n : Nat) : DriverTurns n sched [] := by
  subst h
  induction n with
  | zero => rfl
  | succ n ih => exact ⟨[], .inl ⟨rfl, rfl⟩, ih⟩

theorem driverTurns_replicate (n : Nat) (tail : List Agent) : DriverTurns n (List.replicate n .sequencer ++ tail) tail := by
  induction n with
  | zero => rfl
  | succ n ih => exact ⟨_, .inr rfl, ih⟩

/-- The registers of `s` while the stack `q` runs under the schedule `r`, with nothing returned yet. -/
def State.running (s : State) (q : List Frame) (r : List Agent) : State := { s with seq := q, sched := r, result := none }

/-- At the end of a run with no schedule only the result has been cleared. -/
theorem State.running_nil {s : State} (hq : s.seq = []) (hs : s.sched = []) : s.running [] [] = { s with result := none } := by
  rw [State.running, ← hq, ← hs]

theorem State.setUart_running (s : State) (w : UartId) (x : Uart) (q : List Frame) (r : List Agent) :
    (s.running q r).setUart w x = (s.setUart w x).running q r := by
  cases w <;> rfl

theorem State.uart_running (s : State) (w : UartId) (q : List Frame) (r : List Agent) : (s.running q r).uart w = s.uart w :=
  State.uart_eq_of_fields rfl rfl w

theorem State.setUart_safe {s : State} (hs : s.Safe) (w : UartId) (x : Uart) : (s.setUart w x).Safe := by
  rwa [State.Safe, State.setUart_fault, State.setUart_refused]

/-- A return overwrites SEQ. -/
theorem returnFrom_running (s : State) (q : List Frame) (r : List Agent) (rest : List Frame) :
    (s.running q r).returnFrom none rest = (s.running [] r).returnFrom none rest :=
  returnFrom_seq (s.running [] r) q none rest

theorem returnFrom_running_nil (s : State) (q : List Frame) (r : List Agent) :
    (s.running q r).returnFrom none [] = s.running [] r := rfl

/-- A caller with more to do goes on when its callee returns. -/
theorem returnFrom_running_cons (s : State) {f : Frame} (q : List Frame) (r : List Agent) (rest : List Frame)
    (hf : (f.resume none).finished = false) :
    (s.running q r).returnFrom none (f :: rest) = s.running (f.resume none :: rest) r :=
  returnFrom_cons hf

/-- An accepted command starts at its first position (R35). -/
theorem issue_running {s : State} (f : Frame) (hq : s.seq = []) (hf : s.fault = []) :
    s.issue f = .next (s.running [f] s.sched) :=
  issue_ready f hq hf

/-- One turn of a running command. -/
theorem runs_turn {s t : State} {f : Frame} {rest : List Frame} {r tail : List Agent} {o : Option Instr} (hs : s.refused = none)
    (hr : DriverTurn r tail) (h : sequencerStep (s.running (f :: rest) tail) = .next t)
    (ho : (s.running (f :: rest) tail).issues = o) : Runs 1 (s.running (f :: rest) r) t o.toList := by
  have hstep : step (s.running (f :: rest) r) = .next t := by
    rw [step_driverSide (s := s.running (f :: rest) r) (by exact hs) hr, driverStep_running (List.cons_ne_nil f rest)]
    exact h
  have hissues : (s.running (f :: rest) r).stepIssues = o.toList := by
    rw [← ho]
    rcases hr with ⟨rfl, rfl⟩ | rfl
    · exact stepIssues_driver rfl
    · exact stepIssues_scheduled rfl
  exact ⟨steps_succ 0 hstep, by rw [issued_succ 0 hstep, hissues, issued_zero, List.append_nil]⟩

/-- What a command issues in its next step, whatever becomes of the transaction. -/
theorem issued_one {s : State} {i : Instr} (hs : s.sched = []) (h : s.issues = some i) : issued 1 s = [i] := by
  have hi : s.stepIssues = [i] := by rw [stepIssues_driver hs, h, Option.toList_some]
  unfold issued
  split <;> rw [hi]
  exact List.append_nil _

/-! ### The port writes of a running command -/

/-- The port write of `v` completes and takes the registers of `s` to those of `t`, wherever the running command stands. -/
def WritesTo (port : Port) (v : Byte) (s t : State) : Prop :=
  ∀ q r, portWrite port v (s.running q r) = .done () (t.running q r)

/-- The port writes of a list complete one after another and take the registers of `s` to those of `t`. -/
inductive WritesAll : List Instr → State → State → Prop
  | nil (s : State) : WritesAll [] s s
  | cons {port : Port} {v : Byte} {is : List Instr} {s t u : State} (h : WritesTo port v s t) (hs : WritesAll is t u) :
      WritesAll (.portWrite port v :: is) s u

theorem WritesAll.append {is js : List Instr} {s t u : State} (h : WritesAll is s t) (h' : WritesAll js t u) :
    WritesAll (is ++ js) s u := by
  induction h with
  | nil s => exact h'
  | cons hw _ ih => exact .cons hw (ih h')

/-- A write from the registers UART[w] holds. -/
theorem WritesTo.here {port : Port} {v : Byte} {w : UartId} {s t : State} (h : WritesTo port v (s.setUart w (s.uart w)) t) :
    WritesTo port v s t := by
  rwa [State.setUart_uart] at h

theorem WritesTo.safe {port : Port} {v : Byte} {s t : State} (h : WritesTo port v s t) (hs : s.Safe) : t.Safe := by
  have ht : (t.running [] []).Safe := portWrite_done_safe (h [] []) (by exact hs)
  exact ht

/-- At a port no device claims a write changes nothing (R123). -/
theorem WritesTo.unclaimed {port : Port} (h : claim port = .unclaimed) (v : Byte) (s : State) : WritesTo port v s s :=
  fun q r => portWrite_unclaimed h v (s.running q r)

section
variable (w : UartId) (s : State) (x : Uart)

/-- A write that sets the registers of UART[w] to `y` whenever they are `x`. -/
theorem WritesTo.of_uart {port : Port} {v : Byte} {x y : Uart}
    (h : ∀ a : State, a.uart w = x → portWrite port v a = .done () (a.setUart w y)) :
    WritesTo port v (s.setUart w x) (s.setUart w y) := by
  intro q r
  rw [h _ (by rw [State.uart_running, State.uart_setUart_same]), State.setUart_running, State.setUart_setUart]

theorem writesTo_line (v : Byte) :
    WritesTo (registerPort (base w) Config.offLine) v (s.setUart w x) (s.setUart w (x.configureLine v)) :=
  .of_uart w s fun a ha => by rw [portWrite_line, uartLineWrite, ha]

theorem writesTo_fifoCfg :
    WritesTo (registerPort (base w) Config.offFifo) Config.fifoCfg (s.setUart w x)
      (s.setUart w (x.configureFifo Config.fifoCfg)) :=
  .of_uart w s fun a ha => by rw [portWrite_fifo, uartFifoWrite_cfg, ha]

theorem writesTo_modemCfg :
    WritesTo (registerPort (base w) Config.offModem) Config.modemCfg (s.setUart w x)
      (s.setUart w (x.configureModem Config.modemCfg)) :=
  .of_uart w s fun a ha => by rw [portWrite_modem, uartModemWrite_cfg, ha]

theorem writesTo_divisor {x : Uart} (v : Byte) (hd : x.dlab = some true) :
    WritesTo (registerPort (base w) Config.offData) v (s.setUart w x) (s.setUart w (x.loadDivisorByte v)) :=
  .of_uart w s fun a ha => by rw [portWrite_data, uartDataWrite_divisor v (ha ▸ hd), ha]

theorem writesTo_queue {x : Uart} {cap : Nat} (v : Byte) (hd : x.dlab = some false) (hc : x.txcap = some cap)
    (hl : x.txfifo.length < cap) :
    WritesTo (registerPort (base w) Config.offData) v (s.setUart w x) (s.setUart w { x with txfifo := x.txfifo ++ [v] }) :=
  .of_uart w s fun a ha => by
    rw [portWrite_data, uartDataWrite_queue v (ha ▸ hd) (ha ▸ hc) (ha ▸ hl), ha]

end

/-- The registers `serial.configure_baud_rate` leaves (R200). -/
def Uart.baudSet (x : Uart) (d : Half) : Uart :=
  { x with lcr := some 0x80, dlh := some (hiByte d), dll := some (loByte d), dlphase := false }

/-- The first write enters divisor-latch mode at phase 0, so the other two load the divisor (R171, D10). -/
theorem writesAll_baud (w : UartId) (d : Half) (s : State) :
    WritesAll (baudWrites (base w) d) s (s.setUart w ((s.uart w).baudSet d)) := by
  have hd : ((s.uart w).configureLine Config.dlabEnableByte).dlab = some true :=
    Uart.dlab_of_lcr (Uart.configureLine_lcr _ _)
  have hpair := Uart.loadDivisorByte_pair (x := (s.uart w).configureLine Config.dlabEnableByte) (hiByte d) (loByte d) rfl
  have hlow := writesTo_divisor w s (loByte d) ((Uart.loadDivisorByte_dlab _ (hiByte d)).trans hd)
  rw [hpair] at hlow
  exact .cons (writesTo_line w s (s.uart w) Config.dlabEnableByte).here
    (.cons (writesTo_divisor w s (hiByte d) hd) (.cons hlow (.nil _)))

/-- The six writes of `serial.init` set every register they reach, whatever it held (R205). -/
theorem writesAll_init (w : UartId) (s : State) :
    WritesAll (initWrites (base w)) s (s.setUart w (s.uart w).initialised) :=
  (writesAll_baud w Config.initDivisor s).append
    (.cons (writesTo_line w s _ Config.line8N1) (.cons (writesTo_fifoCfg w s _) (.cons (writesTo_modemCfg w s _) (.nil _))))

theorem writesAll_baud_unclaimed {port : Port} (d : Half) (s : State)
    (hline : claim (registerPort port Config.offLine) = .unclaimed)
    (hdata : claim (registerPort port Config.offData) = .unclaimed) : WritesAll (baudWrites port d) s s :=
  .cons (.unclaimed hline _ s) (.cons (.unclaimed hdata _ s) (.cons (.unclaimed hdata _ s) (.nil s)))

theorem writesAll_init_unclaimed {port : Port} (s : State) (hdata : claim (registerPort port Config.offData) = .unclaimed)
    (hfifo : claim (registerPort port Config.offFifo) = .unclaimed)
    (hline : claim (registerPort port Config.offLine) = .unclaimed)
    (hmodem : claim (registerPort port Config.offModem) = .unclaimed) : WritesAll (initWrites port) s s :=
  (writesAll_baud_unclaimed _ s hline hdata).append
    (.cons (.unclaimed hline _ s) (.cons (.unclaimed hfifo _ s) (.cons (.unclaimed hmodem _ s) (.nil s))))

theorem registerPort_data (port : Port) : registerPort port Config.offData = port := BitVec.add_zero port

end Sys2Proof.Machine
end

section
namespace Sys2Proof.Machine

/-! ### The configuration commands (R200 to R203) -/

/-- The writes of `serial.init` to the three control registers, after the divisor's (R205). -/
def controlWrites (port : Port) : List Instr :=
  [.portWrite (registerPort port Config.offLine) Config.line8N1, .portWrite (registerPort port Config.offFifo) Config.fifoCfg,
    .portWrite (registerPort port Config.offModem) Config.modemCfg]

section
variable {port : Port} {s t : State} {rest : List Frame} {r tail : List Agent}

/-- The two divisor bytes, after which `serial.configure_baud_rate` returns (R200). -/
theorem runs_configureBaud_high {d : Half} {u v : State} (hs : s.Safe) (hr : DriverTurns 2 r tail)
    (hhigh : WritesTo (registerPort port Config.offData) (hiByte d) s u)
    (hlow : WritesTo (registerPort port Config.offData) (loByte d) u v) :
    Runs 2 (s.running (.configureBaud port d .high :: rest) r) ((v.running [] tail).returnFrom none rest)
      [.portWrite (registerPort port Config.offData) (hiByte d), .portWrite (registerPort port Config.offData) (loByte d)] := by
  obtain ⟨r', hr1, _, hr2, rfl⟩ := hr
  rw [← returnFrom_running]
  exact (runs_turn hs.2 hr1 (seq_configureBaud_high rfl (hhigh _ _)) (issues_configureBaud_high rfl)).trans
    (runs_turn (hhigh.safe hs).2 hr2 (seq_configureBaud_low rfl (hlow _ _)) (issues_configureBaud_low rfl))

/-- The three writes of `serial.configure_baud_rate` (R200). -/
theorem runs_configureBaud {d : Half} (hs : s.Safe) (hr : DriverTurns 3 r tail) (hw : WritesAll (baudWrites port d) s t) :
    Runs 3 (s.running (.configureBaud port d .enable :: rest) r) ((t.running [] tail).returnFrom none rest)
      (baudWrites port d) := by
  obtain ⟨r', hr1, hr⟩ := hr
  obtain _ | ⟨henable, _ | ⟨hhigh, _ | ⟨hlow, ⟨⟩⟩⟩⟩ := hw
  exact (runs_turn hs.2 hr1 (seq_configureBaud_enable rfl (henable _ _)) (issues_configureBaud_enable rfl)).trans
    (runs_configureBaud_high (henable.safe hs) hr hhigh hlow)

/-- The three calls of `serial.init` after the divisor (R205). -/
theorem runs_init_line (hs : s.Safe) (hr : DriverTurns 3 r tail) (hw : WritesAll (controlWrites port) s t) :
    Runs 3 (s.running (.init port .line :: rest) r) ((t.running [] tail).returnFrom none rest) (controlWrites port) := by
  obtain ⟨_, hr1, _, hr2, _, hr3, rfl⟩ := hr
  obtain _ | ⟨hline, _ | ⟨hfifo, _ | ⟨hmodem, ⟨⟩⟩⟩⟩ := hw
  have hs1 := hline.safe hs
  rw [← returnFrom_running]
  exact (runs_turn hs.2 hr1 (seq_init_line rfl (hline _ _)) (issues_init_line rfl)).trans
    ((runs_turn hs1.2 hr2 (seq_init_buffer rfl (hfifo _ _)) (issues_init_buffer rfl)).trans
      (runs_turn (hfifo.safe hs1).2 hr3 (seq_init_modem rfl (hmodem _ _)) (issues_init_modem rfl)))

/-- The six writes of `serial.init`, from a position `f` whose first step enters its calls: issued by the caller, or called by
`serial.write` (R205, R206). -/
theorem runs_initFrom {f : Frame} {callers : List Frame} (hs : s.Safe) (hr : DriverTurns 6 r tail)
    (hw : WritesAll (initWrites port) s t)
    (hstep : ∀ {a b : State}, a.seq = f :: callers →
      portWrite (registerPort port Config.offLine) Config.dlabEnableByte a = .done () b →
      sequencerStep a = .next { b with seq := .configureBaud port Config.initDivisor .high :: .init port .line :: rest })
    (hissues : ∀ {a : State}, a.seq = f :: callers →
      a.issues = some (.portWrite (registerPort port Config.offLine) Config.dlabEnableByte)) :
    Runs 6 (s.running (f :: callers) r) ((t.running [] tail).returnFrom none rest) (initWrites port) := by
  obtain ⟨_, hr1, _, hr2, _, hr3, hr⟩ := hr
  obtain _ | ⟨henable, _ | ⟨hhigh, _ | ⟨hlow, hw⟩⟩⟩ := hw
  have hs1 := henable.safe hs
  have hbaud := runs_configureBaud_high (rest := .init port .line :: rest) hs1 ⟨_, hr2, _, hr3, rfl⟩ hhigh hlow
  rw [returnFrom_running_cons _ _ _ _ rfl] at hbaud
  exact (runs_turn hs.2 hr1 (hstep rfl (henable _ _)) (hissues rfl)).trans
    (hbaud.trans (runs_init_line (hlow.safe (hhigh.safe hs1)) hr hw))

end

/-- At the end of a run with no schedule that has set UART[w], only that and the result have changed. -/
theorem State.setUart_running_nil {s : State} (hq : s.seq = []) (hs : s.sched = []) (w : UartId) (x : Uart) :
    (s.setUart w x).running [] [] = { s.setUart w x with result := none } :=
  State.running_nil ((State.setUart_seq ..).trans hq) ((State.setUart_sched ..).trans hs)

/-- Settles O47: the three writes at a UART are `writesAll_baud`, and at an unclaimed base they change nothing. -/
theorem configureBaudRateLatchesTheDivisor : Obligations.ConfigureBaudRateLatchesTheDivisor := by
  intro d s ⟨hq, hf, hr, hs⟩
  refine ⟨fun w => ?uart, fun port hline hdata => ?unclaimed⟩
  case uart =>
    have hrun := runs_configureBaud (rest := []) ⟨hf, hr⟩ (driverTurns_unscheduled hs 3) (writesAll_baud w d s)
    refine ⟨_, _, issue_running _ hq hf, hrun.steps, State.setUart_running_nil hq hs w _, ?div, ?issued⟩
    case div =>
      rw [returnFrom_running_nil, State.uart_running, State.uart_setUart_same]
      exact congrArg some (pair_hiByte_loByte d)
    case issued =>
      rw [hrun.issued, baudWrites, registerPort_data]
      rfl
  case unclaimed =>
    rw [← registerPort_data port] at hdata
    have hrun := runs_configureBaud (rest := []) ⟨hf, hr⟩ (driverTurns_unscheduled hs 3)
      (writesAll_baud_unclaimed d s hline hdata)
    exact ⟨_, issue_running _ hq hf, hrun.steps.trans (congrArg _ (State.running_nil hq hs))⟩

/-- The one step of a command `f` that is one write: the register of UART[w] takes its effect. -/
theorem steps_oneWrite {s : State} {f : Frame} {port : Port} {v : Byte} {w : UartId} {y : Uart} (hq : s.seq = [])
    (hr : s.refused = none) (hs : s.sched = [])
    (hstep : ∀ {a b : State}, a.seq = [f] → portWrite port v a = .done () b → sequencerStep a = .next (b.returnFrom none []))
    (hw : WritesTo port v s (s.setUart w y)) :
    steps 1 (s.running [f] s.sched) = .next { s.setUart w y with result := none } :=
  (runs_turn hr (.inl ⟨hs, rfl⟩) (hstep rfl (hw _ _)) rfl).steps.trans (congrArg _ (State.setUart_running_nil hq hs w y))

/-- Settles O48: each command is one write, at any port, and at a UART it is that register's. -/
theorem configureLineBufferModemSendOneByte : Obligations.ConfigureLineBufferModemSendOneByte := by
  refine ⟨fun o => ⟨rfl, rfl, rfl⟩, fun s ⟨hq, hf, hr, hs⟩ => ⟨fun port => ?issued, fun x => ?uart⟩⟩
  case issued =>
    exact ⟨_, _, _, issue_running _ hq hf, issued_one hs (issues_configureLine rfl), issue_running _ hq hf,
      issued_one hs (issues_configureBuffer rfl), issue_running _ hq hf, issued_one hs (issues_configureModem rfl)⟩
  case uart =>
    exact ⟨⟨_, issue_running _ hq hf, steps_oneWrite hq hr hs seq_configureLine (writesTo_line x s (s.uart x) _).here⟩,
      ⟨_, issue_running _ hq hf, steps_oneWrite hq hr hs seq_configureBuffer (writesTo_fifoCfg x s (s.uart x)).here⟩,
      ⟨_, issue_running _ hq hf, steps_oneWrite hq hr hs seq_configureModem (writesTo_modemCfg x s (s.uart x)).here⟩⟩

/-- A status read at a UART, by a running command: it shows transmit-empty exactly when TXFIFO is empty (R176, R204). -/
theorem portRead_status_running (s : State) (w : UartId) (q : List Frame) (r : List Agent) :
    portRead (registerPort (base w) Config.offStatus) (s.running q r) =
      .done ((s.uart w).lsr s.drawn) (s.afterDraw.running q r) := by
  rw [portRead_status, uartStatusRead, State.uart_running]
  rfl

/-- Settles O49: the answer is the test of the one status byte read. -/
theorem statusPollAnswersTransmitEmpty : Obligations.StatusPollAnswersTransmitEmpty := by
  intro port s ⟨hq, hf, hr, hs⟩
  have hturn : DriverTurn s.sched [] := .inl ⟨hs, rfl⟩
  have hanswer {b : Byte} (hread : portRead (registerPort port Config.offStatus) (s.running [.isTxEmpty port] []) =
      .done b (s.afterDraw.running [.isTxEmpty port] [])) :
      steps 1 (s.running [.isTxEmpty port] s.sched) =
        .next { s with draws := s.draws + 1, result := some (.bit (statusShowsEmpty b)) } := by
    refine (runs_turn hr hturn (seq_isTxEmpty rfl hread) (issues_isTxEmpty rfl)).steps.trans ?_
    rw [returnFrom_nil, State.running, State.afterDraw, ← hq, ← hs]
    rfl
  refine ⟨_, issue_running _ hq hf, issued_one hs (issues_isTxEmpty rfl), fun w hport => ?uart, fun hc => ?unclaimed⟩
  case uart =>
    subst hport
    rw [hanswer (portRead_status_running s w _ _), statusShowsEmpty_lsr]
    rfl
  case unclaimed => exact hanswer (portRead_unclaimed hc _)

/-- Settles O50: the six writes at a UART are `writesAll_init`, and at an unclaimed base they change nothing. -/
theorem initConfiguresThePort : Obligations.InitConfiguresThePort := by
  intro s ⟨hq, hf, hr, hs⟩
  have hturns := driverTurns_unscheduled hs 6
  refine ⟨fun w => ?uart, fun port hdata hfifo hline hmodem => ?unclaimed⟩
  case uart =>
    have hrun := runs_initFrom (rest := []) ⟨hf, hr⟩ hturns (writesAll_init w s) seq_init_baud issues_init_baud
    exact ⟨_, issue_running _ hq hf, hrun.steps.trans (congrArg _ (State.setUart_running_nil hq hs w _)), hrun.issued⟩
  case unclaimed =>
    rw [← registerPort_data port] at hdata
    have hrun := runs_initFrom (rest := []) ⟨hf, hr⟩ hturns (writesAll_init_unclaimed s hdata hfifo hline hmodem)
      seq_init_baud issues_init_baud
    exact ⟨_, issue_running _ hq hf, hrun.steps.trans (congrArg _ (State.running_nil hq hs)), hrun.issued⟩

end Sys2Proof.Machine
end

section
namespace Sys2Proof.Machine

/-! ### The spin of `serial.write` (R206) -/

/-- The spin goes on to `serial.init` exactly when the status byte shows transmit-empty. -/
theorem runs_spin {port : Port} {text : List Byte} {rest : List Frame} {s : State} {r tail : List Agent} {b : Byte}
    (hs : s.refused = none) (hr : DriverTurn r tail)
    (hread : portRead (registerPort port Config.offStatus) (s.running (.serialWrite port text .spin :: rest) tail) =
      .done b (s.afterDraw.running (.serialWrite port text .spin :: rest) tail)) :
    Runs 1 (s.running (.serialWrite port text .spin :: rest) r)
      (s.afterDraw.running (.serialWrite port text (if statusShowsEmpty b then .init else .spin) :: rest) tail)
      [.portRead (registerPort port Config.offStatus)] :=
  runs_turn hs hr (seq_serialWrite_spin rfl hread) (issues_serialWrite_spin rfl)

/-- While TXFIFO holds a byte a turn of the spin comes back to it, and only the draw has happened (R206, R236). -/
theorem runs_spin_busy {s : State} {w : UartId} (text : List Byte) (hs : s.refused = none) (h : (s.uart w).txfifo ≠ []) :
    Runs 1 (s.running [.serialWrite (base w) text .spin] []) (s.afterDraw.running [.serialWrite (base w) text .spin] [])
      [.portRead (registerPort (base w) Config.offStatus)] := by
  have hbusy : statusShowsEmpty ((s.uart w).lsr s.drawn) = false := by
    rw [statusShowsEmpty_lsr]
    exact List.isEmpty_eq_false_iff.mpr h
  have hrun := runs_spin (text := text) (rest := []) hs (.inl ⟨rfl, rfl⟩) (portRead_status_running s w _ [])
  rw [hbusy] at hrun
  exact hrun

/-- The state after `n` turns of the spin. -/
def State.spinning (s : State) (port : Port) (text : List Byte) (n : Nat) : State :=
  State.running { s with draws := s.draws + n } [.serialWrite port text .spin] []

/-- As long as no transmitter steps, every turn of the spin finds the same byte in TXFIFO. -/
theorem runs_spinning {s : State} {w : UartId} (text : List Byte) (hs : s.refused = none) (h : (s.uart w).txfifo ≠ []) (n : Nat) :
    Runs 1 (s.spinning (base w) text n) (s.spinning (base w) text (n + 1))
      [.portRead (registerPort (base w) Config.offStatus)] := by
  have hu : State.uart { s with draws := s.draws + n } w = s.uart w := State.uart_eq_of_fields rfl rfl w
  exact runs_spin_busy text hs (by rwa [hu])

/-- Settles O54: one turn by `seq_serialWrite_spin`, and the endless spin by iterating `runs_spinning`. -/
theorem spinEndsOnlyWhenTheStatusShowsEmpty : Obligations.SpinEndsOnlyWhenTheStatusShowsEmpty := by
  refine ⟨fun port text rest s ⟨hr, hs⟩ hq => ⟨issues_serialWrite_spin hq, fun w hport => ?uart, fun hc => ?unclaimed⟩,
    fun w text s ⟨hq, hf, hr, hs⟩ hbusy => ⟨_, issue_running _ hq hf, fun n => ?forever⟩⟩
  case uart =>
    subst hport
    rw [step_running hr hs hq, seq_serialWrite_spin hq (portRead_status w s), statusShowsEmpty_lsr, Uart.transmitEmpty]
    simp only [List.isEmpty_iff]
    rfl
  case unclaimed =>
    rw [step_running hr hs hq, seq_serialWrite_spin hq (portRead_unclaimed hc s), statusShowsEmpty]
    simp only [bne_iff_ne, ite_not]
    rfl
  case forever =>
    have hrun := Runs.iterate (n := n) (S := s.spinning (base w) text) fun j _ => runs_spinning text hr hbusy j
    rw [Nat.one_mul] at hrun
    refine ⟨s.spinning (base w) text n, ?_, rfl, ?_⟩
    · rw [hs]
      exact hrun.steps
    · rw [State.spinning, State.running, ← hs]

end Sys2Proof.Machine
end

section
namespace Sys2Proof.Machine

/-! ### The bytes of `serial.write` (R206) -/

/-- The stack when `serial.write` is about to send byte `i` of its text: it has ended when there is none. -/
def payloadStack (port : Port) (text : List Byte) (i : Nat) : List Frame :=
  if i < text.length then [.serialWrite port text (.payload i)] else []

theorem payloadStack_of_lt (port : Port) {text : List Byte} {i : Nat} (h : i < text.length) :
    payloadStack port text i = [.serialWrite port text (.payload i)] :=
  if_pos h

theorem payloadStack_end (port : Port) (text : List Byte) : payloadStack port text text.length = [] :=
  if_neg (Nat.lt_irrefl _)

/-- The return of `serial.init` ends `serial.write` at once when the text is empty. -/
theorem returnFrom_payload (s : State) (port : Port) (text : List Byte) (q : List Frame) (r : List Agent) :
    (s.running q r).returnFrom none [.serialWrite port text (.payload 0)] = s.running (payloadStack port text 0) r := by
  by_cases h : 0 < text.length
  · rw [payloadStack_of_lt port h]
    exact returnFrom_cons (decide_eq_false (Nat.not_le.mpr h))
  · rw [payloadStack, if_neg h]
    exact returnFrom_finished (decide_eq_true (Nat.not_lt.mp h))

/-- The data write of byte `i` of the text. -/
def dataWrite (port : Port) (text : List Byte) (i : Nat) : Instr :=
  .portWrite (registerPort port Config.offData) (text.getD i 0)

/-- One data write, whether or not it is the last. -/
theorem runs_payload {port : Port} {text : List Byte} {i : Nat} {s t : State} {r tail : List Agent} (hs : s.Safe)
    (hr : DriverTurn r tail) (hi : i < text.length)
    (hw : WritesTo (registerPort port Config.offData) (text.getD i 0) s t) :
    Runs 1 (s.running (payloadStack port text i) r) (t.running (payloadStack port text (i + 1)) tail)
      [dataWrite port text i] := by
  rw [payloadStack_of_lt port hi, payloadStack]
  split
  case isTrue hmore => exact runs_turn hs.2 hr (seq_serialWrite_payload rfl hmore (hw _ _)) (issues_serialWrite_payload rfl)
  case isFalse hlast =>
    exact runs_turn hs.2 hr (seq_serialWrite_lastPayload rfl (Nat.not_lt.mp hlast) (hw _ _)) (issues_serialWrite_payload rfl)

/-- The seven steps of `serial.write` before its first data write, when TXFIFO is empty: the status read and `serial.init`. -/
theorem runs_serialWrite_start {w : UartId} {s : State} {r tail : List Agent} (text : List Byte) (hs : s.Safe)
    (hempty : (s.uart w).txfifo = []) (hr : DriverTurns 7 r tail) :
    Runs 7 (s.running [.serialWrite (base w) text .spin] r)
      ((s.afterDraw.setUart w (s.uart w).initialised).running (payloadStack (base w) text 0) tail)
      (.portRead (registerPort (base w) Config.offStatus) :: initWrites (base w)) := by
  obtain ⟨r', hr1, hr⟩ := hr
  have hspin := runs_spin (text := text) (rest := []) hs.2 hr1 (portRead_status_running s w _ r')
  rw [statusShowsEmpty_lsr, Uart.transmitEmpty, hempty] at hspin
  have hdraw : s.afterDraw.Safe := hs
  have hinit := runs_initFrom (rest := [.serialWrite (base w) text (.payload 0)]) hdraw hr (writesAll_init w s.afterDraw)
    seq_serialWrite_init issues_serialWrite_init
  rw [returnFrom_payload, State.uart_eq_of_fields (s := s) (t := s.afterDraw) rfl rfl] at hinit
  exact hspin.trans hinit

theorem take_succ_getD {text : List Byte} {i : Nat} (hi : i < text.length) :
    text.take (i + 1) = text.take i ++ [text.getD i 0] := by
  rw [List.getD_eq_getElem _ _ hi, List.take_append_getElem hi]

/-- The end of a run that has drawn once and set UART[w]. -/
theorem State.drawn_running_nil {s : State} (hq : s.seq = []) (w : UartId) (x : Uart) (r : List Agent) :
    (s.afterDraw.setUart w x).running [] r = { s.setUart w x with draws := s.draws + 1, sched := r, result := none } := by
  rw [State.running, ← hq]
  cases w <;> rfl

/-! ### Without the transmitter (R181 (3), (4)) -/

/-- A UART configured by `serial.init` and holding `bytes` in TXFIFO. -/
def Uart.queued (x : Uart) (bytes : List Byte) : Uart := { x.initialised with txfifo := bytes }

theorem Uart.queued_dlab (x : Uart) (bytes : List Byte) : (x.queued bytes).dlab = some false := rfl

theorem Uart.queued_txcap (x : Uart) (bytes : List Byte) : (x.queued bytes).txcap = some 16 := rfl

/-- As long as TXFIFO has room each data write queues its byte. -/
theorem runs_queued {s : State} {text : List Byte} {n : Nat} (w : UartId) (x : Uart) (hs : s.Safe) (hn : n ≤ text.length)
    (hroom : n ≤ 16) :
    Runs n ((s.setUart w x.initialised).running (payloadStack (base w) text 0) [])
      ((s.setUart w (x.queued (text.take n))).running (payloadStack (base w) text n) [])
      ((List.range n).flatMap fun j => [dataWrite (base w) text j]) := by
  have hrun := Runs.iterate (k := 1) (n := n)
    (S := fun j => (s.setUart w (x.queued (text.take j))).running (payloadStack (base w) text j) [])
    (is := fun j => [dataWrite (base w) text j]) fun j hj => ?_
  · rwa [Nat.one_mul] at hrun
  · have hj' : j < text.length := by omega
    have hlen : (text.take j).length < 16 := by
      rw [List.length_take]
      omega
    refine runs_payload (State.setUart_safe hs w _) (.inl ⟨rfl, rfl⟩) hj' ?_
    rw [take_succ_getD hj']
    exact writesTo_queue w s _ (x.queued_dlab _) (x.queued_txcap _) hlen

/-- The data writes of the whole text, in order. -/
theorem flatMap_dataWrites (w : UartId) (text : List Byte) :
    ((List.range text.length).flatMap fun j => [dataWrite (base w) text j]) = text.map fun b => .portWrite (base w) b := by
  rw [← List.map_eq_flatMap]
  refine List.ext_getElem (by simp) fun j _ hj => ?_
  rw [List.length_map] at hj
  rw [List.getElem_map, List.getElem_map, List.getElem_range, dataWrite, registerPort_data, List.getD_eq_getElem _ _ hj]

/-- Settles O51: seven steps to the first data write, and one more for each byte queued. -/
theorem serialWriteQueuesAShortText : Obligations.SerialWriteQueuesAShortText := by
  intro w text s ⟨hq, hf, hr, hs⟩ hempty hlen
  have hrun := (runs_serialWrite_start text ⟨hf, hr⟩ hempty (driverTurns_unscheduled hs 7)).trans
    (runs_queued (s := s.afterDraw) w (s.uart w) ⟨hf, hr⟩ le_rfl hlen)
  refine ⟨_, issue_running _ hq hf, hrun.steps.trans (congrArg _ ?state), hrun.issued.trans ?issued⟩
  case state =>
    rw [payloadStack_end, List.take_length, State.drawn_running_nil hq, ← hs, ← State.setUart_sched s w]
    rfl
  case issued =>
    rw [flatMap_dataWrites]
    rfl

/-- A data write that is stopped ends the step so. -/
theorem seq_serialWrite_payloadStopped {s : State} {port : Port} {text : List Byte} {i : Nat} {rest : List Frame}
    {o : Host.Outcome State Fault Refusal} (h : s.seq = .serialWrite port text (.payload i) :: rest)
    (hw : portWrite (registerPort port Config.offData) (text.getD i 0) s = .stopped o) : sequencerStep s = o := by
  rw [sequencerStep_here h rfl]
  simp only [Frame.micro, Micro.run, hw]

/-- With sixteen bytes queued the next data write overruns (D14). -/
theorem portWrite_overrun {a : State} {w : UartId} {x : Uart} {bytes : List Byte} (v : Byte) (h : a.uart w = x.queued bytes)
    (hfull : bytes.length = 16) :
    portWrite (registerPort (base w) Config.offData) v a = .stopped (.next (a.takeFault (.txOverrun w v))) := by
  have hl : ¬ (x.queued bytes).txfifo.length < 16 := Nat.not_lt.mpr hfull.ge
  rw [portWrite_data, uartDataWrite_full v (h ▸ x.queued_dlab bytes) (h ▸ x.queued_txcap bytes) (h ▸ hl)]

/-- The data write that overruns ends the command. -/
theorem runs_overrun {s : State} {text : List Byte} {i : Nat} {bytes : List Byte} (w : UartId) (x : Uart) (hs : s.Safe)
    (hi : i < text.length) (hfull : bytes.length = 16) :
    Runs 1 ((s.setUart w (x.queued bytes)).running (payloadStack (base w) text i) [])
      (((s.setUart w (x.queued bytes)).running [] []).takeFault (.txOverrun w (text.getD i 0)))
      [dataWrite (base w) text i] := by
  have hu (q : List Frame) : ((s.setUart w (x.queued bytes)).running q []).uart w = x.queued bytes :=
    (State.uart_running ..).trans (State.uart_setUart_same ..)
  rw [payloadStack_of_lt (base w) hi]
  exact runs_turn (State.setUart_safe hs w _).2 (.inl ⟨rfl, rfl⟩)
    (seq_serialWrite_payloadStopped rfl (portWrite_overrun _ (hu _) hfull)) (issues_serialWrite_payload rfl)

/-- Settles O53: sixteen bytes are queued after step 23, and step 24 is the overrun. -/
theorem serialWriteOverrunsWithoutTheTransmitter : Obligations.SerialWriteOverrunsWithoutTheTransmitter := by
  intro w text s ⟨hq, hf, hr, hs⟩ hempty hlen
  have hdraw : s.afterDraw.Safe := ⟨hf, hr⟩
  have hfull : (text.take 16).length = 16 := by
    rw [List.length_take]
    omega
  have hrun := ((runs_serialWrite_start text ⟨hf, hr⟩ hempty (driverTurns_unscheduled hs 7)).trans
    (runs_queued w (s.uart w) hdraw hlen.le le_rfl)).trans (runs_overrun w (s.uart w) hdraw hlen hfull)
  refine ⟨_, issue_running _ hq hf, hrun.steps.trans (congrArg _ ?_)⟩
  rw [State.drawn_running_nil hq, State.takeFault, ← hs, ← State.setUart_sched s w, ← hq, ← State.setUart_seq s w]
  simp only [State.setUart_fault, hf, List.nil_append]
  rfl

/-! ### With a prompt transmitter (R181 (4), R262) -/

/-- A step of the transmitter of UART[w] while a command runs, or after it (R178). -/
theorem runs_transmit {s : State} (w : UartId) (x : Uart) (q : List Frame) (r : List Agent) (hs : s.refused = none) :
    Runs 1 ((s.setUart w x).running q (.transmitter w :: r)) ((s.setUart w x.transmit).running q r) [] := by
  have hstep := step_transmitter (s := (s.setUart w x).running q (.transmitter w :: r))
    ((State.setUart_refused ..).trans hs) rfl
  rw [State.uart_running, State.uart_setUart_same] at hstep
  have hnext : step ((s.setUart w x).running q (.transmitter w :: r)) = .next ((s.setUart w x.transmit).running q r) := by
    rw [hstep]
    refine congrArg _ ((State.setUart_running (s.setUart w x) w x.transmit q r).trans ?_)
    rw [State.setUart_setUart]
  exact ⟨steps_succ 0 hnext, issued_succ 0 hnext⟩

/-- A UART configured by `serial.init`, with `bytes` added to LINE at INIT_DIVISOR and 8N1. -/
def Uart.sent (x : Uart) (bytes : List Byte) : Uart :=
  { x.initialised with line := x.line ++ bytes.map initialisedRecord }

theorem Uart.sent_nil (x : Uart) : x.sent [] = x.initialised := by
  rw [Uart.sent, List.map_nil, List.append_nil]
  rfl

theorem Uart.initialised_div (x : Uart) : x.initialised.div = some Config.initDivisor :=
  congrArg some (pair_hiByte_loByte Config.initDivisor)

/-- A byte queued when TXFIFO is empty is the one transmitted, at the divisor and format `serial.init` set. -/
theorem Uart.transmit_sent (x : Uart) (bytes : List Byte) (b : Byte) :
    Uart.transmit { x.sent bytes with txfifo := (x.sent bytes).txfifo ++ [b] } = x.sent (bytes ++ [b]) := by
  have hline : x.line ++ (bytes ++ [b]).map initialisedRecord =
      x.line ++ bytes.map initialisedRecord ++ [{ byte := b, div := x.initialised.div, fmt := x.initialised.fmt }] := by
    rw [x.initialised_div, List.map_append, List.append_assoc]
    rfl
  rw [Uart.sent.eq_def x (bytes ++ [b]), hline]
  rfl

/-- The schedule of `n` data writes, each with a step of the transmitter of UART[w] after it. -/
def sendTurns (w : UartId) (n : Nat) : List Agent := (List.replicate n [.sequencer, .transmitter w]).flatten

theorem sendTurns_succ (w : UartId) (n : Nat) : sendTurns w (n + 1) = .sequencer :: .transmitter w :: sendTurns w n := rfl

/-- One data write and the transmitter's step after it. -/
theorem runs_send {s : State} {text : List Byte} {i : Nat} (w : UartId) (x : Uart) (r : List Agent) (hs : s.Safe)
    (hi : i < text.length) :
    Runs 2 ((s.setUart w (x.sent (text.take i))).running (payloadStack (base w) text i) (.sequencer :: .transmitter w :: r))
      ((s.setUart w (x.sent (text.take (i + 1)))).running (payloadStack (base w) text (i + 1)) r)
      [dataWrite (base w) text i] := by
  have hroom : (x.sent (text.take i)).txfifo.length < 16 := Nat.zero_lt_succ 15
  have hwrite := runs_payload (tail := .transmitter w :: r) (State.setUart_safe hs w _) (.inr rfl) hi
    (writesTo_queue w s (text.getD i 0) rfl rfl hroom)
  rw [take_succ_getD hi, ← Uart.transmit_sent]
  exact hwrite.trans (runs_transmit w _ _ r hs.2)

/-- The bytes are sent one after another. -/
theorem runs_sent {s : State} (text : List Byte) (w : UartId) (x : Uart) (hs : s.Safe) :
    Runs (2 * text.length)
      ((s.setUart w x.initialised).running (payloadStack (base w) text 0) (sendTurns w text.length))
      ((s.setUart w (x.sent text)).running [] [])
      ((List.range text.length).flatMap fun j => [dataWrite (base w) text j]) := by
  have hrun := Runs.iterate (k := 2) (n := text.length)
    (S := fun j => (s.setUart w (x.sent (text.take j))).running (payloadStack (base w) text j) (sendTurns w (text.length - j)))
    (is := fun j => [dataWrite (base w) text j]) fun j hj => ?_
  · rwa [payloadStack_end, List.take_length, Nat.sub_self, List.take_zero, Uart.sent_nil] at hrun
  · rw [show text.length - j = text.length - (j + 1) + 1 by omega, sendTurns_succ]
    exact runs_send w x _ hs hj

/-- Settles O52: the seven steps before the first data write, and two for each byte sent. -/
theorem serialWriteDeliversWithAPromptTransmitter : Obligations.SerialWriteDeliversWithAPromptTransmitter := by
  intro w text s hq hf hr hs hempty
  have hturns : DriverTurns 7 s.sched (sendTurns w text.length) := hs ▸ driverTurns_replicate 7 _
  have hrun := (runs_serialWrite_start text ⟨hf, hr⟩ hempty hturns).trans
    (runs_sent (s := s.afterDraw) text w (s.uart w) ⟨hf, hr⟩)
  exact ⟨_, issue_running _ hq hf, hrun.steps.trans (congrArg _ (State.drawn_running_nil hq w _ []))⟩

end Sys2Proof.Machine
end

section
namespace Sys2Proof.Machine

/-! ### What a transaction does with SEQ (R35) -/

/-- A transaction of the state `s` that does not read SEQ, stated for every stack `q` that may stand there: it completes and leaves
the stack alone, or it stops as its rule says, a fault taken being the same state under every stack (R240). -/
inductive IgnoresSeq {α : Type} (s : State) (x : State → Txn α) : Prop
  | done (a : α) (t : State) (hsched : t.sched = s.sched) (hinbox : t.inbox = s.inbox)
      (h : ∀ q, x { s with seq := q } = .done a { t with seq := q })
  | raised (r : FaultRecord) (h : ∀ q, x { s with seq := q } = .stopped (.next (s.takeFault r)))
  | marked (r : RefuseReason) (h : ∀ q, x { s with seq := q } = .stopped (.next (State.markRefused { s with seq := q } r)))
  | outside (off : Nat) (h : ∀ q, x { s with seq := q } = .stopped (.fault (.outsideGridWindow off)))

/-- SEQ is no part of UART[u]. -/
theorem State.uart_seq (s : State) (u : UartId) (q : List Frame) : State.uart { s with seq := q } u = s.uart u :=
  State.uart_eq_of_fields rfl rfl u

/-- A transaction that replaces UART[u] by what `g` makes of it. -/
theorem IgnoresSeq.setUart {α : Type} {s : State} {x : State → Txn α} {a : α} (u : UartId) (g : Uart → Uart)
    (h : ∀ q, x { s with seq := q } = .done a (State.setUart { s with seq := q } u (g (State.uart { s with seq := q } u)))) :
    IgnoresSeq s x :=
  .done a (s.setUart u (g (s.uart u))) (State.setUart_sched ..) (State.setUart_inbox ..) fun q =>
    (h q).trans (by rw [State.uart_seq]; cases u <;> rfl)

theorem uartDataWrite_ignoresSeq (u : UartId) (v : Byte) (s : State) : IgnoresSeq s (uartDataWrite u v) := by
  have hu := s.uart_seq u
  cases hd : (s.uart u).dlab with
  | none => exact .raised _ fun q => uartDataWrite_lcrUnwritten v (hu q ▸ hd)
  | some dlab =>
    cases dlab with
    | true => exact .setUart u (·.loadDivisorByte v) fun q => uartDataWrite_divisor v (hu q ▸ hd)
    | false =>
      cases hc : (s.uart u).txcap with
      | none => exact .raised _ fun q => uartDataWrite_fifoEnUnwritten v (hu q ▸ hd) (hu q ▸ hc)
      | some cap =>
        by_cases hl : (s.uart u).txfifo.length < cap
        · exact .setUart u (fun y => { y with txfifo := y.txfifo ++ [v] }) fun q =>
            uartDataWrite_queue v (hu q ▸ hd) (hu q ▸ hc) (hu q ▸ hl)
        · exact .raised _ fun q => uartDataWrite_full v (hu q ▸ hd) (hu q ▸ hc) (hu q ▸ hl)

theorem uartFifoWrite_ignoresSeq (u : UartId) (v : Byte) (s : State) : IgnoresSeq s (uartFifoWrite u v) := by
  by_cases h : (s.uart u).fifoEn ≠ some (fcrEnable v) ∧ ¬ (fcrClearRx v = true ∧ fcrClearTx v = true)
  · exact .marked _ fun q => if_pos (s.uart_seq u q ▸ h)
  · exact .setUart u (·.configureFifo v) fun q => if_neg (s.uart_seq u q ▸ h)

theorem uartModemWrite_ignoresSeq (u : UartId) (v : Byte) (s : State) : IgnoresSeq s (uartModemWrite u v) := by
  cases h : mcrLoopback v with
  | true => exact .marked _ fun q => uartModemWrite_loopback _ h
  | false => exact .setUart u (·.configureModem v) fun q => uartModemWrite_plain _ h

theorem uartWrite_ignoresSeq (u : UartId) (off : BitVec 3) (v : Byte) (s : State) : IgnoresSeq s (uartWrite u off v) := by
  by_cases h : off = 0 ∨ off = 2 ∨ off = 3 ∨ off = 4
  · rcases h with rfl | rfl | rfl | rfl
    · exact uartDataWrite_ignoresSeq u v s
    · exact uartFifoWrite_ignoresSeq u v s
    · exact .setUart u (·.configureLine v) fun q => rfl
    · exact uartModemWrite_ignoresSeq u v s
  · simp only [not_or] at h
    obtain ⟨h0, h2, h3, h4⟩ := h
    exact .marked _ fun q => uartWrite_other u v _ h0 h2 h3 h4

theorem crtcDataWrite_ignoresSeq (v : Byte) (s : State) : IgnoresSeq s (crtcDataWrite v) := by
  rcases crtcDataWrite_cases v s with ⟨hi, _⟩ | ⟨hi, _⟩ | ⟨hh, hl, _⟩
  · exact .done () (s.loadCursorHigh v) rfl rfl fun q => crtcDataWrite_high v hi
  · refine .done () (s.loadCursorLow v) (State.loadCursorLow_sched ..) (State.loadCursorLow_inbox ..) fun q => ?_
    rw [crtcDataWrite_low v (by exact hi), State.loadCursorLow, State.loadCursorLow]
    cases s.curHi <;> rfl
  · exact .marked _ fun q => crtcDataWrite_refused v hh hl

theorem portWrite_ignoresSeq (port : Port) (v : Byte) (s : State) : IgnoresSeq s (portWrite port v) := by
  unfold portWrite
  cases claim port with
  | uart u off => exact uartWrite_ignoresSeq u off v s
  | crtcCmd => exact .done () { s with crtcIndex := some v } rfl rfl fun q => rfl
  | crtcData => exact crtcDataWrite_ignoresSeq v s
  | unclaimed => exact .done () s rfl rfl fun q => rfl

theorem uartRead_ignoresSeq (u : UartId) (off : BitVec 3) (s : State) : IgnoresSeq s (uartRead u off) := by
  by_cases h0 : off = 0
  · subst h0
    exact .marked _ fun q => rfl
  by_cases h5 : off = 5
  · subst h5
    exact .done _ s.afterDraw rfl rfl fun q => congrArg (fun x : Uart => Txn.done (x.lsr s.drawn) _) (s.uart_seq u q)
  · exact .marked _ fun q => uartRead_other u _ h0 h5

theorem portRead_ignoresSeq (port : Port) (s : State) : IgnoresSeq s (portRead port) := by
  unfold portRead
  cases claim port with
  | uart u off => exact uartRead_ignoresSeq u off s
  | crtcCmd | crtcData => exact .marked _ fun q => rfl
  | unclaimed => exact .done s.drawn s.afterDraw rfl rfl fun q => rfl

theorem gridStore_ignoresSeq (off : Nat) (v : Byte) (s : State) : IgnoresSeq s (gridStore off v) := by
  by_cases h : off < Config.windowBytes
  · exact .done () { s with grid := Memory.write s.grid (gridAddr off) v } rfl rfl fun q => gridStore_in v _ h
  · exact .outside off fun q => if_neg h

theorem gridRead_ignoresSeq (off : Nat) (s : State) : IgnoresSeq s (gridRead off) := by
  by_cases h : off < Config.windowBytes
  · cases hb : Memory.read s.grid (gridAddr off) with
    | some b => exact .done b s rfl rfl fun q => gridRead_written h hb
    | none => exact .raised _ fun q => by simp only [gridRead, if_pos h, hb]; rfl
  · exact .outside off fun q => if_neg h

/-- An action is its transaction with the byte returned, if any, put into an `Option`. -/
theorem IgnoresSeq.map {α β : Type} {s : State} {x : State → Txn α} {y : State → Txn β} (g : α → β) (h : IgnoresSeq s x)
    (hdone : ∀ {a u t}, x u = .done a t → y u = .done (g a) t) (hstop : ∀ {u o}, x u = .stopped o → y u = .stopped o) :
    IgnoresSeq s y := by
  cases h with
  | done a t hsched hinbox h => exact .done (g a) t hsched hinbox fun q => hdone (h q)
  | raised r h => exact .raised r fun q => hstop (h q)
  | marked r h => exact .marked r fun q => hstop (h q)
  | outside off h => exact .outside off fun q => hstop (h q)

/-- The sequencer's actions do not read SEQ. -/
theorem Micro.run_ignoresSeq (m : Micro) (s : State) : IgnoresSeq s m.run := by
  cases m with
  | write port v =>
    exact (portWrite_ignoresSeq port v s).map (fun _ => none) (fun h => by rw [Micro.run, h]) (fun h => by rw [Micro.run, h])
  | read port =>
    exact (portRead_ignoresSeq port s).map some (fun h => by rw [Micro.run, h]) (fun h => by rw [Micro.run, h])
  | store off v =>
    exact (gridStore_ignoresSeq off v s).map (fun _ => none) (fun h => by rw [Micro.run, h]) (fun h => by rw [Micro.run, h])
  | load off =>
    exact (gridRead_ignoresSeq off s).map some (fun h => by rw [Micro.run, h]) (fun h => by rw [Micro.run, h])
  | setCursor c => exact .done none { s with cursor := some c } rfl rfl fun q => rfl
  | raise r => exact .raised r fun q => rfl
  | skip => exact .done none s rfl rfl fun q => rfl

end Sys2Proof.Machine
end

section
namespace Sys2Proof.Machine

/-! ### Runs in lock-step -/

/-- Outcomes of the same kind: next states that `R` relates, or the same stop. -/
inductive SameOutcome (R : State → State → Prop) :
    Host.Outcome State Fault Refusal → Host.Outcome State Fault Refusal → Prop
  | next {t v : State} (h : R t v) : SameOutcome R (.next t) (.next v)
  | fault (r : Fault) : SameOutcome R (.fault r) (.fault r)
  | refused (r : Refusal) : SameOutcome R (.refused r) (.refused r)

theorem SameOutcome.of_next {R : State → State → Prop} {t : State} {o : Host.Outcome State Fault Refusal}
    (h : SameOutcome R (.next t) o) : ∃ v, o = .next v ∧ R t v := by
  cases h with
  | next h => exact ⟨_, rfl, h⟩

theorem SameOutcome.of_refused {R : State → State → Prop} {r : Refusal} {o : Host.Outcome State Fault Refusal}
    (h : SameOutcome R (.refused r) o) : o = .refused r := by
  cases h
  rfl

/-- The next steps of two states issue the same and have outcomes of the same kind. -/
structure LockStep (R : State → State → Prop) (s v : State) : Prop where
  issues : v.stepIssues = s.stepIssues
  outcome : SameOutcome R (step s) (step v)

/-- A step in lock-step, and then runs of `n` steps that issue the same and have outcomes of the same kind. -/
theorem LockStep.succ {R : State → State → Prop} {s v : State} {n : Nat} (h : LockStep R s v)
    (hrun : ∀ t w, R t w → issued n w = issued n t ∧ SameOutcome R (steps n t) (steps n w)) :
    issued (n + 1) v = issued (n + 1) s ∧ SameOutcome R (steps (n + 1) s) (steps (n + 1) v) := by
  obtain ⟨hi, ho⟩ := h
  rw [issued, issued, steps, steps, hi]
  generalize step s = o, step v = o' at ho
  cases ho with
  | next h =>
    obtain ⟨hissued, hsteps⟩ := hrun _ _ h
    exact ⟨congrArg _ hissued, hsteps⟩
  | fault r => exact ⟨rfl, .fault r⟩
  | refused r => exact ⟨rfl, .refused r⟩

/-- When related states always step in lock-step, so do their runs. -/
theorem LockStep.run {R : State → State → Prop} (hR : ∀ s v, R s v → LockStep R s v) {s v : State} (h : LockStep R s v)
    (n : Nat) :
    issued (n + 1) v = issued (n + 1) s ∧ SameOutcome R (steps (n + 1) s) (steps (n + 1) v) := by
  induction n generalizing s v with
  | zero => exact h.succ fun _ _ ht => ⟨rfl, .next ht⟩
  | succ n ih => exact h.succ fun t w ht => ih (hR t w ht)

end Sys2Proof.Machine
end

section
namespace Sys2Proof.Machine

/-! ### A stack with the frame of `print` at its bottom (R220) -/

section
variable {channel : Port} {text : List Byte}

/-- The two commands `print` forwards to return nothing (R147, R206). -/
theorem after_of_forwarded {f : Frame} {b : Option Byte} {v : Option Bool} (hf : calls (.print channel text true) f = true)
    (h : f.after b = .ret v) : v = none := by
  cases f with
  | fbWrite _ loc =>
    cases loc with
    | head | body | advance => cases h
    | final =>
      cases h
      rfl
  | serialWrite _ bytes loc =>
    cases loc with
    | payload i =>
      simp only [Frame.after] at h
      split at h
      · cases h
      · cases h
        rfl
    | spin | init =>
      cases h
      rfl
  | _ => cases hf

theorem resume_of_forwarded {f : Frame} (v : Option Bool) (hf : calls (.print channel text true) f = true) :
    calls (.print channel text true) (f.resume v) = true := by
  cases f with
  | serialWrite _ _ loc => cases loc <;> rfl
  | _ => exact hf

/-- A character of `fb.write` is called from a position of `fb.write` (R149). -/
theorem writeBody_caller {bytes : List Byte} {i : Nat} {c : Half} {g d : Frame} (h : writeBody bytes i c = some (g, d)) :
    g = .fbWrite bytes (.advance i) := by
  unfold writeBody at h
  split at h <;> cases h
  rfl

/-- A command that calls another stays at a position of its own. -/
theorem caller_of_forwarded {c : Option Half} {f g d : Frame} (hf : calls (.print channel text true) f = true)
    (h : f.callee c = some (g, d)) : calls (.print channel text true) g = true := by
  cases f with
  | fbWrite bytes loc =>
    cases c with
    | none => cases loc <;> cases h
    | some c =>
      cases loc with
      | head i =>
        simp only [Frame.callee] at h
        split at h
        · split at h
          · cases h
            rfl
          · rw [writeBody_caller h]
            rfl
        · cases h
          rfl
      | body i =>
        rw [writeBody_caller h]
        rfl
      | advance | final => cases h
  | serialWrite _ _ loc => cases loc <;> cases h <;> rfl
  | _ => cases hf

variable (channel text) in
/-- A stack whose outermost command is one that `print` forwards to. -/
def forwardedStack : List Frame → Bool
  | [] => false
  | [f] => calls (.print channel text true) f
  | _ :: g :: rest => forwardedStack (g :: rest)

/-- The top may change, as long as it stays a forwarded command where it is the outermost. -/
theorem forwardedStack_top {f g : Frame} {rest : List Frame} (h : forwardedStack channel text (f :: rest) = true)
    (hg : calls (.print channel text true) f = true → calls (.print channel text true) g = true) :
    forwardedStack channel text (g :: rest) = true := by
  cases rest with
  | nil => exact hg h
  | cons _ _ => exact h

/-- Entering a call looks at the top alone, and keeps the outermost command. -/
theorem enter_append {q : List Frame} (c : Option Half) (p : Frame) (hq : forwardedStack channel text q = true) :
    forwardedStack channel text (enter c q) = true ∧ enter c (q ++ [p]) = enter c q ++ [p] := by
  cases q with
  | nil => cases hq
  | cons f rest =>
    rw [List.cons_append, enter, enter]
    cases h : f.callee c with
    | none => exact ⟨hq, rfl⟩
    | some x =>
      obtain ⟨g, d⟩ := x
      exact ⟨forwardedStack_top (g := g) hq fun hf => caller_of_forwarded hf h, rfl⟩

theorem enterAll_append {q : List Frame} (c : Option Half) (p : Frame) (hq : forwardedStack channel text q = true) :
    forwardedStack channel text (enterAll c q) = true ∧ enterAll c (q ++ [p]) = enterAll c q ++ [p] := by
  obtain ⟨hq₁, h₁⟩ := enter_append c p hq
  obtain ⟨hq₂, h₂⟩ := enter_append c p hq₁
  obtain ⟨hq₃, h₃⟩ := enter_append c p hq₂
  exact ⟨hq₃, by rw [enterAll, h₁, h₂, h₃, enterAll]⟩

/-- What becomes of `print` when the forwarded command goes on to the state `t` (R220): it ends with it, or keeps its own frame at the
bottom. -/
inductive Under (channel : Port) (text : List Byte) (t : State) : State → Prop
  | ended (h : t.seq = []) : Under channel text t t
  | below (h : forwardedStack channel text t.seq = true) :
      Under channel text t { t with seq := t.seq ++ [.print channel text true] }

/-- A return ends `print` only with the forwarded command, which itself returns nothing. -/
theorem returnFrom_under (s : State) {f : Frame} {rest : List Frame} {v : Option Bool}
    (hq : forwardedStack channel text (f :: rest) = true) (hv : calls (.print channel text true) f = true → v = none) :
    Under channel text (s.returnFrom v rest) (s.returnFrom v (rest ++ [.print channel text true])) := by
  induction rest generalizing f v with
  | nil =>
    cases hv hq
    exact .ended rfl
  | cons g rest ih =>
    have hg : forwardedStack channel text (g :: rest) = true := hq
    rw [List.cons_append]
    cases hfin : (g.resume v).finished with
    | true =>
      rw [returnFrom_finished hfin, returnFrom_finished hfin]
      exact ih hg fun _ => rfl
    | false =>
      rw [returnFrom_cons hfin, returnFrom_cons hfin]
      exact .below (forwardedStack_top hg (resume_of_forwarded v))

/-- Moving on from a position stays in the forwarded command or returns to its callers. -/
theorem moveOn_under (s : State) {f : Frame} {rest : List Frame} (b : Option Byte)
    (hq : forwardedStack channel text (f :: rest) = true) :
    Under channel text (s.moveOn f rest b) (s.moveOn f (rest ++ [.print channel text true]) b) := by
  unfold State.moveOn
  cases h : f.after b with
  | cont g =>
    have hg : forwardedStack channel text (g :: rest) = true :=
      forwardedStack_top hq fun hf => (calls_congr (Frame.after_command h)).trans hf
    exact .below (t := { s with seq := g :: rest }) hg
  | ret v => exact returnFrom_under s hq fun hf => after_of_forwarded hf h

end

end Sys2Proof.Machine
end

section
namespace Sys2Proof.Machine

/-! ### `print` beside the command it forwards to (R220) -/

/-- The first position of the command `print` forwards to. -/
def forwarded (channel : Port) (text : List Byte) : Frame :=
  if channel = Config.consoleChannel then .fbWrite text (.head 0) else .serialWrite channel text .spin

/-- `q` is the SEQ of `print` while the forwarded command, run by itself with the requests `inbox` waiting, stands at `s`: the two
enter the same calls, over the frame of `print`. -/
structure Carries (channel : Port) (text : List Byte) (inbox : List Request) (s : State) (q : List Frame) : Prop where
  sched : s.sched = []
  inbox : s.inbox = inbox
  bottom : forwardedStack channel text (enterAll s.cursor s.seq) = true
  entered : enterAll s.cursor q = enterAll s.cursor s.seq ++ [.print channel text true]

/-- How `print` stands after its first step when the forwarded command, run by itself, stands at `s`: with its frame below the
command's, but for the stack that a mark keeps; and once the command has ended the two states are one, and stay idle when no request
waits. -/
inductive Follows (channel : Port) (text : List Byte) (inbox : List Request) (s : State) : State → Prop
  | running {q : List Frame} (h : Carries channel text inbox s q)
      (hseq : s.refused = none → q = s.seq ++ [.print channel text true]) : Follows channel text inbox s { s with seq := q }
  | ended (hrest : inbox = [] → s.sched = [] ∧ s.inbox = [] ∧ s.seq = []) : Follows channel text inbox s s

section
variable {channel : Port} {text : List Byte} {inbox : List Request} {s : State} {q : List Frame}

/-- The position whose action comes next is the same for both. -/
theorem Carries.top (h : Carries channel text inbox s q) : ∃ f rest, forwardedStack channel text (f :: rest) = true ∧
    enterAll s.cursor s.seq = f :: rest ∧ enterAll s.cursor q = f :: (rest ++ [.print channel text true]) := by
  have hb := h.bottom
  have he := h.entered
  cases hs : enterAll s.cursor s.seq with
  | nil =>
    rw [hs] at hb
    cases hb
  | cons f rest =>
    rw [hs] at hb he
    exact ⟨f, rest, hb, rfl, he⟩

/-- No call is entered from an idle block. -/
theorem seq_ne_nil_of_enterAll {c : Option Half} {q : List Frame} {f : Frame} {rest : List Frame} (h : enterAll c q = f :: rest) :
    q ≠ [] := by
  rintro rfl
  cases h

/-- While a command runs and no schedule is left, the sequencer steps (R35). -/
theorem step_of_enterAll {f : Frame} {rest : List Frame} (hr : s.refused = none) (hs : s.sched = [])
    (h : enterAll s.cursor s.seq = f :: rest) : step s = sequencerStep s := by
  rw [step_driver hr hs, driverStep_running (seq_ne_nil_of_enterAll h)]

theorem Under.follows {t v : State} (hsched : t.sched = []) (hinbox : t.inbox = inbox) (h : Under channel text t v) :
    Follows channel text inbox t v := by
  cases h with
  | ended hq => exact .ended fun hi => ⟨hsched, hinbox.trans hi, hq⟩
  | below hq =>
    obtain ⟨hbottom, hentered⟩ := enterAll_append t.cursor (.print channel text true) hq
    exact .running ⟨hsched, hinbox, hbottom, hentered⟩ fun _ => rfl

theorem Carries.stepIssues_eq (h : Carries channel text inbox s q) : State.stepIssues { s with seq := q } = s.stepIssues := by
  obtain ⟨f, rest, _, hs, hp⟩ := h.top
  rw [stepIssues_driver h.sched, stepIssues_driver (by exact h.sched), issues_of_enterAll hs, issues_of_enterAll (by exact hp)]

/-- The action does not read SEQ, so it does the same over the frame of `print`, and what follows it differs by that frame. -/
theorem Carries.sequencerStep_same (h : Carries channel text inbox s q) :
    SameOutcome (Follows channel text inbox) (sequencerStep s) (sequencerStep { s with seq := q }) := by
  obtain ⟨f, rest, hbottom, hs, hp⟩ := h.top
  rw [sequencerStep_of_enterAll hs, sequencerStep_of_enterAll (s := { s with seq := q }) hp]
  cases (f.micro s.cursor).run_ignoresSeq s with
  | done b t hsched hinbox hrun =>
    have hs' : (f.micro s.cursor).run s = .done b { t with seq := s.seq } := hrun s.seq
    simp only [hs', hrun, moveOn_seq]
    refine .next (Under.follows ?_ ?_ (moveOn_under t b hbottom))
    · rw [moveOn_eq]
      exact hsched.trans h.sched
    · rw [moveOn_eq]
      exact hinbox.trans h.inbox
  | raised r hrun =>
    have hs' : (f.micro s.cursor).run s = .stopped (.next (s.takeFault r)) := hrun s.seq
    simp only [hs', hrun]
    exact .next (.ended fun hi => ⟨h.sched, h.inbox.trans hi, rfl⟩)
  | marked r hrun =>
    have hs' : (f.micro s.cursor).run s = .stopped (.next (s.markRefused r)) := hrun s.seq
    simp only [hs', hrun]
    exact .next (.running (s := s.markRefused r) ⟨h.sched, h.inbox, h.bottom, h.entered⟩ fun hr => nomatch hr)
  | outside off hrun =>
    have hs' : (f.micro s.cursor).run s = .stopped (.fault (.outsideGridWindow off)) := hrun s.seq
    simp only [hs', hrun]
    exact .fault _

/-- While the forwarded command runs, and under a mark, the two step in lock-step. -/
theorem Carries.lockStep (h : Carries channel text inbox s q) :
    LockStep (Follows channel text inbox) s { s with seq := q } := by
  refine ⟨h.stepIssues_eq, ?_⟩
  obtain hr | ⟨r, hr⟩ := Option.eq_none_or_eq_some s.refused
  · obtain ⟨f, rest, _, hs, hp⟩ := h.top
    rw [step_of_enterAll hr h.sched hs, step_of_enterAll (s := { s with seq := q }) hr h.sched hp]
    exact h.sequencerStep_same
  · rw [step_marked hr, step_marked (s := { s with seq := q }) hr]
    exact .refused _

theorem Follows.lockStep {v : State} (h : Follows channel text inbox s v) : LockStep (Follows channel text inbox) s v := by
  cases h with
  | running h => exact h.lockStep
  | ended hrest =>
    refine ⟨rfl, ?_⟩
    cases hs : step s with
    | next t =>
      refine .next (.ended fun hi => ?_)
      obtain ⟨hsched, hinbox, hq⟩ := hrest hi
      cases (step_idle ⟨refused_of_step_next hs, hsched⟩ hq hinbox).symm.trans hs
      exact ⟨hsched, hinbox, hq⟩
    | fault r => exact .fault r
    | refused r => exact .refused r

end

end Sys2Proof.Machine
end

section
namespace Sys2Proof.Machine

/-! ### The runs of `print` (R220) -/

/-- The command `print` forwards to: `fb.write` on the console channel, `serial.write` on any other (D9). -/
def forwardedCommand (channel : Port) (text : List Byte) : Instr :=
  if channel = Config.consoleChannel then .fbWrite text else .serialWrite channel text

theorem exec_forwardedCommand (channel : Port) (text : List Byte) (s : State) :
    exec (forwardedCommand channel text) s = s.issue (forwarded channel text) := by
  unfold forwardedCommand forwarded
  split <;> rfl

theorem forwardedStack_start (channel : Port) (text : List Byte) :
    forwardedStack channel text [forwarded channel text] = true := by
  unfold forwarded
  split <;> rfl

/-- At its first position `print` enters the calls of the forwarded command, over its own frame. -/
theorem enterAll_print (channel : Port) (text : List Byte) (c : Option Half) :
    enterAll c [.print channel text false] = enterAll c [forwarded channel text] ++ [.print channel text true] := by
  have hcall : (Frame.print channel text false).callee c = some (.print channel text true, forwarded channel text) := rfl
  obtain hc | ⟨g, d, hc, hd⟩ := callee_depth hcall
  · rw [enterAll_of_call hcall hc, enterAll_of_no_call hc]
    rfl
  · rw [enterAll_of_call_call hcall hc hd, enterAll_of_call hc hd]
    rfl

/-- `print` and the command it forwards to, each issued to the same ready block, run in lock-step from their first step on. -/
theorem print_run {s : State} (channel : Port) (text : List Byte) (h : s.Ready) :
    ∃ p u, exec (.print channel text) s = .next p ∧ exec (forwardedCommand channel text) s = .next u ∧
      ∀ n, issued (n + 1) p = issued (n + 1) u ∧
        SameOutcome (Follows channel text s.inbox) (steps (n + 1) u) (steps (n + 1) p) := by
  obtain ⟨hu, hd⟩ := h.start (forwarded channel text)
  have hcarries : Carries channel text s.inbox { s with seq := [forwarded channel text], result := none }
      [.print channel text false] :=
    ⟨hd.2, rfl, (enterAll_append s.cursor (.print channel text true) (forwardedStack_start channel text)).1,
      enterAll_print channel text s.cursor⟩
  exact ⟨_, _, (h.start _).1, (exec_forwardedCommand channel text s).trans hu,
    hcarries.lockStep.run fun _ _ => Follows.lockStep⟩

/-- While the forwarded command runs, `print` has its frame below; at its end both are idle. -/
theorem Follows.registers {channel : Port} {text : List Byte} {t v : State} (h : Follows channel text [] t v) :
    v = { t with seq := v.seq } ∧
      (t.refused = none → v.seq = if t.seq = [] then [] else t.seq ++ [.print channel text true]) := by
  cases h with
  | running h hseq =>
    obtain ⟨_, _, _, htop, _⟩ := h.top
    exact ⟨rfl, fun hr => (hseq hr).trans (if_neg (seq_ne_nil_of_enterAll htop)).symm⟩
  | ended hrest =>
    obtain ⟨_, _, hq⟩ := hrest rfl
    exact ⟨rfl, fun _ => by rw [if_pos hq, hq]⟩

/-- Settles O55: the two runs are in lock-step (`print_run`), and `Follows` says how the states stand after each step. -/
theorem printRunsAsTheForwardedCommand : Obligations.PrintRunsAsTheForwardedCommand := by
  intro channel text s hready hinbox
  obtain ⟨p, u, hp, hu, hrun⟩ := print_run channel text hready
  refine ⟨p, u, hp, hu, fun n => ?_⟩
  obtain ⟨hissued, hsame⟩ := hrun n
  rw [hinbox] at hsame
  refine ⟨hissued, fun t ht => ?next, fun r hr => ?refused⟩
  case next =>
    rw [ht] at hsame
    obtain ⟨v, hv, h⟩ := hsame.of_next
    exact ⟨v, hv, h.registers⟩
  case refused =>
    rw [hr] at hsame
    exact hsame.of_refused

/-- Where the forwarded command has ended, `print` has ended in the same state. -/
theorem print_ends {s u t : State} {channel : Port} {text : List Byte} {n : Nat} (hready : s.Ready) (hn : n ≠ 0)
    (hu : exec (forwardedCommand channel text) s = .next u) (ht : steps n u = .next t) (hq : t.seq = []) :
    ∃ p, exec (.print channel text) s = .next p ∧ steps n p = .next t := by
  obtain ⟨m, rfl⟩ := Nat.exists_eq_add_one_of_ne_zero hn
  obtain ⟨p, u', hp, hu', hrun⟩ := print_run channel text hready
  cases hu.symm.trans hu'
  obtain ⟨_, hsame⟩ := hrun m
  rw [ht] at hsame
  obtain ⟨v, hv, h⟩ := hsame.of_next
  cases h with
  | running h =>
    obtain ⟨_, _, _, htop, _⟩ := h.top
    exact absurd hq (seq_ne_nil_of_enterAll htop)
  | ended => exact ⟨p, hp, hv⟩

/-- CONSOLE_CHANNEL is no serial base (R8). -/
theorem base_ne_consoleChannel (w : UartId) : base w ≠ Config.consoleChannel := by
  obtain ⟨h1, h2⟩ := Config.consoleChannel_ne_bases
  cases w with
  | com1 => exact h1.symm
  | com2 => exact h2.symm

/-- Settles O56: `print` ends where `serial.write` (O51) and `fb.write` (O40) do. -/
theorem printCompletesOnEitherDevice : Obligations.PrintCompletesOnEitherDevice := by
  intro text s hready
  have hidle : s.seq = [] := hready.1
  refine ⟨fun w hempty hlen => ?serial, fun p hp hn hfit => ?console⟩
  case serial =>
    obtain ⟨u, hu, hsteps, _⟩ := serialWriteQueuesAShortText w text s hready hempty hlen
    have hcommand : forwardedCommand (base w) text = .serialWrite (base w) text := if_neg (base_ne_consoleChannel w)
    exact print_ends hready (by omega) (hcommand ▸ hu) hsteps ((State.setUart_seq ..).trans hidle)
  case console =>
    obtain ⟨u, t, hu, hsteps, ht, hcells, hframe, _⟩ := fbWriteReadsBack text p s hready hp hn hfit
    have hcommand : forwardedCommand Config.consoleChannel text = .fbWrite text := if_pos rfl
    have hq : t.seq = [] := by
      rw [ht]
      exact hidle
    obtain ⟨v, hv, hsteps'⟩ := print_ends hready (by omega) (hcommand ▸ hu) hsteps hq
    exact ⟨v, t, hv, hsteps', ht, hcells, hframe⟩

end Sys2Proof.Machine
end

section
namespace Sys2Proof.Machine

/-! ### After a fault (R240, R241) -/

/-- `y` is `x` after some of its queued bytes went out: no register but TXFIFO and LINE differs, and the bytes keep their order. -/
def Uart.Sends (x y : Uart) : Prop := y = { x with txfifo := y.txfifo, line := y.line } ∧ y.stream = x.stream

theorem Uart.Sends.refl (x : Uart) : x.Sends x := ⟨rfl, rfl⟩

theorem Uart.Sends.trans {x y z : Uart} (h : x.Sends y) (h' : y.Sends z) : x.Sends z := by
  obtain ⟨hregs, hstream⟩ := h
  obtain ⟨hregs', hstream'⟩ := h'
  exact ⟨hregs'.trans (by rw [hregs]), hstream'.trans hstream⟩

theorem Uart.sends_transmit (x : Uart) : x.Sends x.transmit := by
  refine ⟨?_, x.stream_transmit⟩
  cases h : x.txfifo with
  | nil => rw [Uart.transmit_of_empty h]
  | cons b rest => rw [Uart.transmit_of_queued h]

/-- `t` is `s` after transmitters' steps alone: of the block only the schedule, TXFIFO and LINE can differ. -/
structure State.Sends (s t : State) : Prop where
  frame : t = { s with uart0 := t.uart0, uart1 := t.uart1, sched := t.sched }
  uart : ∀ u, (s.uart u).Sends (t.uart u)

/-- A shorter schedule is no change of the block. -/
theorem State.sends_sched (s : State) (tail : List Agent) : s.Sends { s with sched := tail } where
  frame := rfl
  uart u := by cases u <;> exact .refl _

/-- A scheduled transmitter's step (R178). -/
theorem State.sends_transmitter (s : State) (u : UartId) (tail : List Agent) :
    s.Sends (State.setUart { s with sched := tail } u (s.uart u).transmit) where
  frame := by cases u <;> rfl
  uart w := by
    by_cases hw : w = u
    · subst hw
      rw [State.uart_setUart_same]
      exact Uart.sends_transmit _
    · rw [State.uart_setUart_other _ _ hw]
      exact (s.sends_sched tail).uart w

theorem State.Sends.trans {s t v : State} (h : s.Sends t) (h' : t.Sends v) : s.Sends v where
  frame := h'.frame.trans (by rw [h.frame])
  uart u := (h.uart u).trans (h'.uart u)

/-- Transmitters' steps keep FAULT, SEQ and the mark. -/
theorem State.Sends.control {s t : State} (h : s.Sends t) : t.fault = s.fault ∧ t.seq = s.seq ∧ t.refused = s.refused := by
  rw [h.frame]
  exact ⟨rfl, rfl, rfl⟩

/-- While a fault is recorded the caller's step does nothing (R240). -/
theorem callerStep_faulted {s : State} (hf : s.fault ≠ []) : callerStep s = .next s := by
  unfold callerStep
  split
  next h _ => exact absurd h hf
  next => rfl

/-- With a fault recorded and SEQ idle, the driver side does nothing and a scheduled transmitter takes its own step (D31). -/
theorem step_faulted {s : State} (hf : s.fault ≠ []) (hq : s.seq = []) (hr : s.refused = none) :
    ∃ t, step s = .next t ∧ s.Sends t := by
  have driverSide : ∀ tail, (s.sched = [] ∧ tail = [] ∨ s.sched = .sequencer :: tail) →
      step s = .next { s with sched := tail } := fun tail hs => by
    rw [step_driverSide hr hs, driverStep_idle (by exact hq), callerStep_faulted (by exact hf)]
  cases hs : s.sched with
  | nil => exact ⟨_, driverSide [] (.inl ⟨hs, rfl⟩), s.sends_sched []⟩
  | cons a tail =>
    cases a with
    | sequencer => exact ⟨_, driverSide tail (.inr hs), s.sends_sched tail⟩
    | transmitter u => exact ⟨_, step_transmitter hr hs, s.sends_transmitter u tail⟩

/-- Settles O57: every step from a state that transmitters' steps led to is one more such step (`step_faulted`). -/
theorem faultIsTerminal : Obligations.FaultIsTerminal := by
  intro s hf hq hr n
  have hstep : ∀ t, s.Sends t → ∃ v, step t = .next v ∧ s.Sends v := fun t ht => by
    obtain ⟨hfault, hseq, hrefused⟩ := ht.control
    obtain ⟨v, hv, htv⟩ := step_faulted (hfault ▸ hf) (hseq.trans hq) (hrefused.trans hr)
    exact ⟨v, hv, ht.trans htv⟩
  obtain ⟨t, hsteps, ht⟩ := steps_keep hstep (s.sends_sched s.sched) n
  exact ⟨t, hsteps, ht.frame, ht.uart⟩

end Sys2Proof.Machine
end
